-- ==== Sys2Proof/Word.lean ====
section
/-! DEFINITION. The word types of the engine (R14): a byte is 8 bits, a word 32 bits; references and the
Poly1305 column sums use 64-bit numbers (R17, R29). -/

namespace Sys2Proof

/-- A byte, 8 bits (R14). -/
abbrev Byte := BitVec 8

/-- A word, 32 bits (R14). `+` on it is `+_32` and `-` is `-_32`. -/
abbrev Word := BitVec 32

/-- A 64-bit unsigned number: an address, a length (R17, ADDR_BITS = 64), a Poly1305 column (R29). -/
abbrev DWord := BitVec 64

end Sys2Proof
end

