-- ==== Sys2Proof/Config.lean ====
section
/-! DEFINITION. What an implementation fixes: the parameters of R13, the fixed sizes of R11, the four
ChaCha20 constants of R23, and what a byte of buffer memory that nothing has written reads as. -/

namespace Sys2Proof

/-- The parameters of R13 that the spec leaves open (D4). `ADDR_BITS` is fixed at 64 and `CAP_SET` at
{SCALAR, VEC128}, so neither is a field. -/
structure Params where
  /-- MEM_SIZE, the number of addressable bytes of buffer memory, 1 ≤ MEM_SIZE ≤ 2^64. -/
  memSize : Nat
  /-- HW_VEC128, "the host supports" the vector path. -/
  hwVec128 : Bool
  /-- FORCE_SCALAR_RESET, the reset value of the override. -/
  forceScalarReset : Bool
  /-- N_CTX, the number of execution contexts that share one key, at least 1. -/
  nCtx : Nat
deriving DecidableEq, Repr

/-- The parameters are legal (R13). -/
abbrev Params.Legal (p : Params) : Prop :=
  1 ≤ p.memSize ∧ p.memSize ≤ 2 ^ 64 ∧ 1 ≤ p.nCtx

namespace Config

/-- The defaults a test harness uses (R13). Statements about the machine quantify over the parameters: every one
of them is read from State, and only `State.reset` uses these. -/
def params : Params :=
  { memSize := 2 ^ 20, hwVec128 := true, forceScalarReset := false, nCtx := 1 }

/-- The four ChaCha20 constants (R23). PRESUMED (log 3): from general knowledge, not in the spec's source. -/
def c0 : Word := 0x61707865#32
/-- Second constant (R23, log 3). -/
def c1 : Word := 0x3320646e#32
/-- Third constant (R23, log 3). -/
def c2 : Word := 0x79622d32#32
/-- Fourth constant (R23, log 3). -/
def c3 : Word := 0x6b206574#32

/-- "Key = 32 bytes; Nonce = 12 bytes; Tag = 16 bytes", fixed (R11). -/
def keyBytes : Nat := 32
/-- Nonce size (R11). -/
def nonceBytes : Nat := 12
/-- Tag size (R11). -/
def tagBytes : Nat := 16

/-- What a byte of buffer memory that nothing has written reads as. DESIGN CHOICE (log 1): the spec gives the
memory no power-on contents; its programs take "Memory not named is zero". -/
def unlistedByte : Byte := 0#8

end Config

end Sys2Proof
end

