-- ==== Sys2Proof/Syntax.lean ====
section
/-! DEFINITION. The fifteen commands (R76) as one inductive, their buffer references (R17, R73), and the
assembler's lines with its four pseudo-commands (R80, R81). -/

namespace Sys2Proof

/-- A buffer reference `[addr, len]`: two 64-bit unsigned numbers (R17). `addr = 0` is the null reference,
whatever `len` is (R51, R73). -/
structure Ref where
  addr : DWord
  len : DWord
deriving DecidableEq, Repr

/-- The commands of R76, one constructor per row of the opcode table, operands in encoding order. -/
inductive Instr where
  /-- `KEY.LOAD key` (R201). -/
  | keyLoad (key : Ref)
  /-- `KEY.DISPOSE` (R202). -/
  | keyDispose
  /-- `CC.INIT key, counter, nonce` (R101); the counter is encoded first, as word 1 (R80). -/
  | ccInit (counter : Word) (key nonce : Ref)
  /-- `CC.XOR buf` (R110). -/
  | ccXor (buf : Ref)
  /-- `CC.CLEAR` (R114). -/
  | ccClear
  /-- `P.INIT key` (R180). -/
  | pInit (key : Ref)
  /-- `P.UPDATE data` (R181). -/
  | pUpdate (data : Ref)
  /-- `P.FINISH tag` (R183). -/
  | pFinish (tag : Ref)
  /-- `P.VERIFY tagA, tagB` (R185). -/
  | pVerify (tagA tagB : Ref)
  /-- `AE.ENC nonce, pt, aad, ct, tag` (R208). -/
  | aeEnc (nonce pt aad ct tag : Ref)
  /-- `AE.ENCC nonce, pt, aad, out` (R209). -/
  | aeEncc (nonce pt aad out : Ref)
  /-- `AE.DEC nonce, ct, tag, aad, pt` (R210). -/
  | aeDec (nonce ct tag aad pt : Ref)
  /-- `AE.DECC nonce, in, aad, pt` (R211). -/
  | aeDecc (nonce inp aad pt : Ref)
  /-- `CAP.FORCE f` (R242). -/
  | capForce (f : Bool)
  /-- `CAP.RD` (R243). -/
  | capRd
deriving DecidableEq, Repr

/-- A reference as the assembler writes it (R80): two numbers, or `null` for `[0, 0]`. -/
inductive AsmRef where
  | null
  | buffer (addr len : Nat)
deriving DecidableEq, Repr

/-- One assembler line (R80): the fifteen mnemonics with their operands in the assembler's order, and the four
pseudo-commands of R81. Numbers are unbounded here; `Asm.wellFormed` says which lines fit the encoding. -/
inductive Asm where
  | keyLoad (key : AsmRef)
  | keyDispose
  | ccInit (key : AsmRef) (counter : Nat) (nonce : AsmRef)
  | ccXor (buf : AsmRef)
  | ccClear
  | pInit (key : AsmRef)
  | pUpdate (data : AsmRef)
  | pFinish (tag : AsmRef)
  | pVerify (tagA tagB : AsmRef)
  | aeEnc (nonce pt aad ct tag : AsmRef)
  | aeEncc (nonce pt aad out : AsmRef)
  | aeDec (nonce ct tag aad pt : AsmRef)
  | aeDecc (nonce inp aad pt : AsmRef)
  | capForce (f : Nat)
  | capRd
  /-- `P.MAC key, data, tag` (R81). -/
  | pMac (key data tag : AsmRef)
  /-- `CC.CRYPT key, counter, nonce, buf` (R81). -/
  | ccCrypt (key : AsmRef) (counter : Nat) (nonce buf : AsmRef)
  /-- `CAP.SCALAR` (R81). -/
  | capScalar
  /-- `CAP.AUTO` (R81). -/
  | capAuto
deriving DecidableEq, Repr

end Sys2Proof
end

