-- ==== Sys2Proof/WellFormed.lean ====
section
/-! DEFINITION. Well-formedness. Of commands there is nothing to check: every bit of every operand word is an
operand bit ("Within the operand words nothing is reserved", R79), and `Instr`'s fields are exactly those bits.
What can be ill formed is an assembler line (R80), whose numbers must fit the fields they are encoded in, and a
command word, whose legality (R78) the decoder checks. -/

namespace Sys2Proof

/-- Every command is well formed: R79 reserves no operand value, and the acceptance checks of R258 judge them. -/
def Instr.wellFormed (_ : Instr) : Bool := true

/-- The two numbers of a reference fit 64 bits (R73, R80). -/
def AsmRef.wellFormed : AsmRef → Bool
  | .null => true
  | .buffer addr len => decide (addr < 2 ^ 64) && decide (len < 2 ^ 64)

/-- The counter is a 32-bit immediate (R74). -/
def counterFits (counter : Nat) : Bool := decide (counter < 2 ^ 32)

/-- The operands of an assembler line fit their fields (R73, R74, R75, R80). -/
def Asm.wellFormed : Asm → Bool
  | .keyLoad key => key.wellFormed
  | .keyDispose => true
  | .ccInit key counter nonce => key.wellFormed && counterFits counter && nonce.wellFormed
  | .ccXor buf => buf.wellFormed
  | .ccClear => true
  | .pInit key => key.wellFormed
  | .pUpdate data => data.wellFormed
  | .pFinish tag => tag.wellFormed
  | .pVerify tagA tagB => tagA.wellFormed && tagB.wellFormed
  | .aeEnc nonce pt aad ct tag =>
    nonce.wellFormed && pt.wellFormed && aad.wellFormed && ct.wellFormed && tag.wellFormed
  | .aeEncc nonce pt aad out => nonce.wellFormed && pt.wellFormed && aad.wellFormed && out.wellFormed
  | .aeDec nonce ct tag aad pt =>
    nonce.wellFormed && ct.wellFormed && tag.wellFormed && aad.wellFormed && pt.wellFormed
  | .aeDecc nonce inp aad pt => nonce.wellFormed && inp.wellFormed && aad.wellFormed && pt.wellFormed
  | .capForce f => decide (f ≤ 1)
  | .capRd => true
  | .pMac key data tag => key.wellFormed && data.wellFormed && tag.wellFormed
  | .ccCrypt key counter nonce buf =>
    key.wellFormed && counterFits counter && nonce.wellFormed && buf.wellFormed
  | .capScalar => true
  | .capAuto => true

end Sys2Proof
end

