-- ==== Sys2Proof/Decode.lean ====
section
/-! DEFINITION. The command stream's encoding (R70 to R79): the fields of `word0`, the opcode map, the decoder
(total on any words, rejecting by name), the encoder written from the same table, the layout of a stream as
bytes (R70), and the assembler (R80, R81). -/

namespace Sys2Proof

/-! ### Fields of word0 (R71) -/

/-- `OPC`, bits 7:0. -/
def fieldOpc (w : Word) : BitVec 8 := w.extractLsb' 0 8
/-- `NREF`, bits 11:8. -/
def fieldNref (w : Word) : BitVec 4 := w.extractLsb' 8 4
/-- `HASIMM`, bit 12. -/
def fieldHasImm (w : Word) : Bool := w.getLsbD 12
/-- `F`, bit 13. -/
def fieldF (w : Word) : Bool := w.getLsbD 13
/-- `ZERO`, bits 31:14. -/
def fieldZero (w : Word) : BitVec 18 := w.extractLsb' 14 18

/-- The length of a command in words, from `word0` alone: `1 + HASIMM + 4·NREF` (R77). -/
def commandLength (word0 : Word) : Nat :=
  1 + (fieldHasImm word0).toNat + 4 * (fieldNref word0).toNat

/-! ### The opcode map (R76) -/

/-- The fifteen opcodes of R76. -/
inductive Opcode where
  | keyLoad | keyDispose | ccInit | ccXor | ccClear | pInit | pUpdate | pFinish | pVerify
  | aeEnc | aeEncc | aeDec | aeDecc | capForce | capRd
deriving DecidableEq, Repr

/-- What the opcode fixes of `word0` (R76): the number of references and whether an immediate follows. -/
structure OpcodeRow where
  opc : BitVec 8
  nref : BitVec 4
  hasImm : Bool
deriving DecidableEq, Repr

/-- The rows of R76. -/
def Opcode.row : Opcode → OpcodeRow
  | .keyLoad => ⟨0x01#8, 1#4, false⟩
  | .keyDispose => ⟨0x02#8, 0#4, false⟩
  | .ccInit => ⟨0x10#8, 2#4, true⟩
  | .ccXor => ⟨0x11#8, 1#4, false⟩
  | .ccClear => ⟨0x12#8, 0#4, false⟩
  | .pInit => ⟨0x20#8, 1#4, false⟩
  | .pUpdate => ⟨0x21#8, 1#4, false⟩
  | .pFinish => ⟨0x22#8, 1#4, false⟩
  | .pVerify => ⟨0x23#8, 2#4, false⟩
  | .aeEnc => ⟨0x30#8, 5#4, false⟩
  | .aeEncc => ⟨0x31#8, 4#4, false⟩
  | .aeDec => ⟨0x32#8, 5#4, false⟩
  | .aeDecc => ⟨0x33#8, 4#4, false⟩
  | .capForce => ⟨0x40#8, 0#4, false⟩
  | .capRd => ⟨0x41#8, 0#4, false⟩

/-- The opcode of an `OPC` byte; every value not in R76 is reserved (R79). -/
def Opcode.ofByte (b : BitVec 8) : Option Opcode :=
  match b.toNat with
  | 0x01 => some .keyLoad
  | 0x02 => some .keyDispose
  | 0x10 => some .ccInit
  | 0x11 => some .ccXor
  | 0x12 => some .ccClear
  | 0x20 => some .pInit
  | 0x21 => some .pUpdate
  | 0x22 => some .pFinish
  | 0x23 => some .pVerify
  | 0x30 => some .aeEnc
  | 0x31 => some .aeEncc
  | 0x32 => some .aeDec
  | 0x33 => some .aeDecc
  | 0x40 => some .capForce
  | 0x41 => some .capRd
  | _ => none

/-- Why a command is illegal (R78). Each of them is the one status `IllegalCommand` (R256). -/
inductive Illegal where
  /-- `OPC` is none of the fifteen opcodes. -/
  | reservedOpcode
  /-- `NREF` is not the opcode's. -/
  | nrefMismatch
  /-- `HASIMM` is not the opcode's. -/
  | hasImmMismatch
  /-- `F = 1` where `OPC ≠ 0x40`. -/
  | flagSet
  /-- `ZERO ≠ 0`. -/
  | zeroFieldSet
  /-- The stream ends inside the command. -/
  | truncated
deriving DecidableEq, Repr

/-- The conditions of R78 on `word0`. -/
def checkWord0 (w : Word) : Except Illegal Opcode :=
  match Opcode.ofByte (fieldOpc w) with
  | none => .error .reservedOpcode
  | some op =>
    if fieldNref w ≠ op.row.nref then .error .nrefMismatch
    else if fieldHasImm w ≠ op.row.hasImm then .error .hasImmMismatch
    else if fieldF w = true ∧ op ≠ .capForce then .error .flagSet
    else if fieldZero w ≠ 0 then .error .zeroFieldSet
    else .ok op

/-! ### Operands -/

/-- The next word of the stream. -/
def takeWord : List Word → Option (Word × List Word)
  | w :: ws => some (w, ws)
  | [] => none

/-- A buffer reference: `addr[31:0]`, `addr[63:32]`, `len[31:0]`, `len[63:32]` (R73). -/
def takeRef : List Word → Option (Ref × List Word)
  | a0 :: a1 :: l0 :: l1 :: ws => some (⟨a1 ++ a0, l1 ++ l0⟩, ws)
  | _ => none

/-- The operands of an opcode, the immediate first and then the references in the order of R76; `none` where the
stream ends inside the command. `f` is the `F` bit of `word0`. -/
def decodeOperands (op : Opcode) (f : Bool) (ws : List Word) : Option (Instr × List Word) :=
  match op with
  | .keyLoad => do
    let (key, ws) ← takeRef ws
    return (.keyLoad key, ws)
  | .keyDispose => some (.keyDispose, ws)
  | .ccInit => do
    let (counter, ws) ← takeWord ws
    let (key, ws) ← takeRef ws
    let (nonce, ws) ← takeRef ws
    return (.ccInit counter key nonce, ws)
  | .ccXor => do
    let (buf, ws) ← takeRef ws
    return (.ccXor buf, ws)
  | .ccClear => some (.ccClear, ws)
  | .pInit => do
    let (key, ws) ← takeRef ws
    return (.pInit key, ws)
  | .pUpdate => do
    let (data, ws) ← takeRef ws
    return (.pUpdate data, ws)
  | .pFinish => do
    let (tag, ws) ← takeRef ws
    return (.pFinish tag, ws)
  | .pVerify => do
    let (tagA, ws) ← takeRef ws
    let (tagB, ws) ← takeRef ws
    return (.pVerify tagA tagB, ws)
  | .aeEnc => do
    let (nonce, ws) ← takeRef ws
    let (pt, ws) ← takeRef ws
    let (aad, ws) ← takeRef ws
    let (ct, ws) ← takeRef ws
    let (tag, ws) ← takeRef ws
    return (.aeEnc nonce pt aad ct tag, ws)
  | .aeEncc => do
    let (nonce, ws) ← takeRef ws
    let (pt, ws) ← takeRef ws
    let (aad, ws) ← takeRef ws
    let (out, ws) ← takeRef ws
    return (.aeEncc nonce pt aad out, ws)
  | .aeDec => do
    let (nonce, ws) ← takeRef ws
    let (ct, ws) ← takeRef ws
    let (tag, ws) ← takeRef ws
    let (aad, ws) ← takeRef ws
    let (pt, ws) ← takeRef ws
    return (.aeDec nonce ct tag aad pt, ws)
  | .aeDecc => do
    let (nonce, ws) ← takeRef ws
    let (inp, ws) ← takeRef ws
    let (aad, ws) ← takeRef ws
    let (pt, ws) ← takeRef ws
    return (.aeDecc nonce inp aad pt, ws)
  | .capForce => some (.capForce f, ws)
  | .capRd => some (.capRd, ws)

/-- The decoder (R77, R78): the first command of a stream and the words after it, or why it is illegal. Total on
every sequence of words. -/
def decode : List Word → Except Illegal (Instr × List Word)
  | [] => .error .truncated
  | w :: ws =>
    match checkWord0 w with
    | .error why => .error why
    | .ok op =>
      match decodeOperands op (fieldF w) ws with
      | some r => .ok r
      | none => .error .truncated

/-! ### The encoder, from the same table -/

/-- The `word0` column of R76. -/
def Instr.word0 : Instr → Word
  | .keyLoad _ => 0x00000101#32
  | .keyDispose => 0x00000002#32
  | .ccInit _ _ _ => 0x00001210#32
  | .ccXor _ => 0x00000111#32
  | .ccClear => 0x00000012#32
  | .pInit _ => 0x00000120#32
  | .pUpdate _ => 0x00000121#32
  | .pFinish _ => 0x00000122#32
  | .pVerify _ _ => 0x00000223#32
  | .aeEnc _ _ _ _ _ => 0x00000530#32
  | .aeEncc _ _ _ _ => 0x00000431#32
  | .aeDec _ _ _ _ _ => 0x00000532#32
  | .aeDecc _ _ _ _ => 0x00000433#32
  | .capForce f => if f then 0x00002040#32 else 0x00000040#32
  | .capRd => 0x00000041#32

/-- The four words of a reference, low word first (R73). -/
def Ref.words (r : Ref) : List Word :=
  [r.addr.extractLsb' 0 32, r.addr.extractLsb' 32 32, r.len.extractLsb' 0 32, r.len.extractLsb' 32 32]

/-- The references of a command, in encoding order (R76). -/
def Instr.refs : Instr → List Ref
  | .keyLoad key => [key]
  | .keyDispose => []
  | .ccInit _ key nonce => [key, nonce]
  | .ccXor buf => [buf]
  | .ccClear => []
  | .pInit key => [key]
  | .pUpdate data => [data]
  | .pFinish tag => [tag]
  | .pVerify tagA tagB => [tagA, tagB]
  | .aeEnc nonce pt aad ct tag => [nonce, pt, aad, ct, tag]
  | .aeEncc nonce pt aad out => [nonce, pt, aad, out]
  | .aeDec nonce ct tag aad pt => [nonce, ct, tag, aad, pt]
  | .aeDecc nonce inp aad pt => [nonce, inp, aad, pt]
  | .capForce _ => []
  | .capRd => []

/-- The immediate word, present in `CC.INIT` alone (R74). -/
def Instr.immediate : Instr → List Word
  | .ccInit counter _ _ => [counter]
  | .keyLoad _ | .keyDispose | .ccXor _ | .ccClear | .pInit _ | .pUpdate _ | .pFinish _ | .pVerify _ _
  | .aeEnc _ _ _ _ _ | .aeEncc _ _ _ _ | .aeDec _ _ _ _ _ | .aeDecc _ _ _ _ | .capForce _ | .capRd => []

/-- The words of a command: `word0`, the immediate where there is one, then the references (R70, R72). -/
def encode (i : Instr) : List Word :=
  i.word0 :: (i.immediate ++ i.refs.flatMap Ref.words)

/-- The number of words by which a completed command advances `ci` (R36, R77). -/
def Instr.length (i : Instr) : Nat := commandLength i.word0

/-! ### A stream stored as bytes (R70) -/

/-- A word from its four bytes, lowest address first: little-endian (R70). -/
def wordOfBytes (b0 b1 b2 b3 : Byte) : Word := b3 ++ b2 ++ b1 ++ b0

/-- The whole words of a byte string. A tail of one to three bytes is no word: all commands are a whole number of
words (R70), so the stream ends before it. -/
def wordsOfBytes : List Byte → List Word
  | b0 :: b1 :: b2 :: b3 :: bs => wordOfBytes b0 b1 b2 b3 :: wordsOfBytes bs
  | _ => []

/-- The four bytes of a word, lowest address first (R70). -/
def bytesOfWord (w : Word) : List Byte :=
  [w.extractLsb' 0 8, w.extractLsb' 8 8, w.extractLsb' 16 8, w.extractLsb' 24 8]

/-- The decoder on a stream stored as bytes. -/
def decodeBytes (bs : List Byte) : Except Illegal (Instr × List Word) := decode (wordsOfBytes bs)

/-! ### The assembler (R80, R81) -/

/-- The reference an assembler operand stands for. -/
def AsmRef.ref : AsmRef → Ref
  | .null => ⟨0#64, 0#64⟩
  | .buffer addr len => ⟨BitVec.ofNat 64 addr, BitVec.ofNat 64 len⟩

/-- The commands of one line; the pseudo-commands expand as R81 says. -/
def Asm.expand : Asm → List Instr
  | .keyLoad key => [.keyLoad key.ref]
  | .keyDispose => [.keyDispose]
  | .ccInit key counter nonce => [.ccInit (BitVec.ofNat 32 counter) key.ref nonce.ref]
  | .ccXor buf => [.ccXor buf.ref]
  | .ccClear => [.ccClear]
  | .pInit key => [.pInit key.ref]
  | .pUpdate data => [.pUpdate data.ref]
  | .pFinish tag => [.pFinish tag.ref]
  | .pVerify tagA tagB => [.pVerify tagA.ref tagB.ref]
  | .aeEnc nonce pt aad ct tag => [.aeEnc nonce.ref pt.ref aad.ref ct.ref tag.ref]
  | .aeEncc nonce pt aad out => [.aeEncc nonce.ref pt.ref aad.ref out.ref]
  | .aeDec nonce ct tag aad pt => [.aeDec nonce.ref ct.ref tag.ref aad.ref pt.ref]
  | .aeDecc nonce inp aad pt => [.aeDecc nonce.ref inp.ref aad.ref pt.ref]
  | .capForce f => [.capForce (decide (f = 1))]
  | .capRd => [.capRd]
  | .pMac key data tag => [.pInit key.ref, .pUpdate data.ref, .pFinish tag.ref]
  | .ccCrypt key counter nonce buf =>
    [.ccInit (BitVec.ofNat 32 counter) key.ref nonce.ref, .ccXor buf.ref]
  | .capScalar => [.capForce true]
  | .capAuto => [.capForce false]

/-- The words of a program, `none` where a line does not fit the encoding (R80). -/
def assemble : List Asm → Option (List Word)
  | [] => some []
  | l :: ls =>
    if l.wellFormed then (assemble ls).map ((l.expand.flatMap encode) ++ ·) else none

/-! ### The decoder on a word of the opcode table -/

/-- The longest command, `AE.ENC`, in bytes: 21 words (R72). -/
def longestCommandBytes : Nat := 84

/-- The first `longestCommandBytes` bytes of a stream whose bits are `w`, bit 0 the least significant bit of the
first word, and every bit from `nbits` up 0: with words stored little-endian (R70), byte i is bits 8i+7 : 8i. -/
def tableBytes (nbits w : Nat) : List Byte :=
  (List.range longestCommandBytes).map fun i => BitVec.ofNat 8 ((w % 2 ^ nbits) >>> (8 * i))

/-- What the decoder reads from an instruction whose bits are `w`, numbered as the opcode table numbers them. -/
def decodeTableWord (nbits w : Nat) : Option Instr :=
  match decodeBytes (tableBytes nbits w) with
  | .ok (i, _) => some i
  | .error _ => none

end Sys2Proof
end

