-- ==== Sys2Proof/Machine/State.lean ====
section
/-! DEFINITION. The state of the engine as plain data: every register of R21 to R33, the shared key and capability
bits, the buffer memory of R50, the command port of R36 and R68, the other contexts of R42, and the host's moves;
and the state after reset (R41, R280, R281). -/

namespace Sys2Proof.Machine

/-! ### Register files -/

/-- Sixteen words, indexed 0 to 15: the ChaCha20 state `S` and the working file `X` (R22, R24). -/
structure Words16 where
  (w0 w1 w2 w3 w4 w5 w6 w7 w8 w9 w10 w11 w12 w13 w14 w15 : Word)
deriving DecidableEq, Repr

/-- Four words: `pad[0..3]` (R27) and the packed accumulator `w` of R163; also one 128-bit vector register, lane j
its field j (R25, R130). -/
structure Quad where
  (q0 q1 q2 q3 : Word)
deriving DecidableEq, Repr

/-- Five limbs in 32-bit registers, limb i of weight 2^(26i): `r`, `h`, `g` and the block transients (R27, R151). -/
structure Limbs where
  (l0 l1 l2 l3 l4 : Word)
deriving DecidableEq, Repr

/-- `s[1..4]`, the multiples 5·r[i] (R28). -/
structure Multiples where
  (s1 s2 s3 s4 : Word)
deriving DecidableEq, Repr

/-- `d[0..4]`, the five 64-bit columns of the schoolbook multiplication (R29). -/
structure Columns where
  (d0 d1 d2 d3 d4 : DWord)
deriving DecidableEq, Repr

/-- All sixteen words zero. -/
def Words16.zero : Words16 := ⟨0, 0, 0, 0, 0, 0, 0, 0, 0, 0, 0, 0, 0, 0, 0, 0⟩
/-- All four words zero. -/
def Quad.zero : Quad := ⟨0, 0, 0, 0⟩
/-- All five limbs zero. -/
def Limbs.zero : Limbs := ⟨0, 0, 0, 0, 0⟩
/-- All four multiples zero. -/
def Multiples.zero : Multiples := ⟨0, 0, 0, 0⟩
/-- All five columns zero. -/
def Columns.zero : Columns := ⟨0, 0, 0, 0, 0⟩

/-- `n` zero bytes. -/
def zeroBytes (n : Nat) : Vector Byte n := Vector.replicate n 0#8

/-! ### The units of a context -/

/-- The ChaCha20 unit (R22, R24, R26). The vector file `V` is `X` seen as rows and `O` is `S` seen as rows
(R25, R37), so neither is stored. -/
structure ChaChaUnit where
  /-- `S[0..15]`. -/
  s : Words16
  /-- `X[0..15]`. -/
  x : Words16
  /-- `KS[0..63]`. -/
  ks : Vector Byte 64
  /-- `CC_LIVE`. -/
  live : Bool
deriving DecidableEq, Repr

/-- The Poly1305 unit (R27 to R30). `b`, `t` and `w` are the transients that R159 line 10 and R184 clear. -/
structure PolyUnit where
  r : Limbs
  s : Multiples
  h : Limbs
  pad : Quad
  buf : Vector Byte 16
  /-- `leftover`, 5 bits: 0 to 15 between commands, 16 only inside `ABSORB` (R27, R186). -/
  leftover : BitVec 5
  /-- `final`. -/
  final : Bool
  /-- `P_LIVE`. -/
  live : Bool
  d : Columns
  c : Word
  g : Limbs
  mask : Word
  f : DWord
  b : Limbs
  t : Limbs
  w : Quad
deriving DecidableEq, Repr

/-- `PHASE`, the orchestrator's sequencer position (R31, R217). -/
inductive Phase where
  | idle | derive | encrypt | mac | compare | decrypt | wipe
deriving DecidableEq, Repr

/-- The orchestrator's registers (R31). -/
structure AeadUnit where
  otk : Vector Byte 32
  ctag : Vector Byte 16
  lenblk : Vector Byte 16
  phase : Phase
deriving DecidableEq, Repr

/-- `CAP_SET` (R240): the two ChaCha20 datapaths, `SCALAR = 0`, `VEC128 = 1`. -/
inductive Datapath where
  | scalar | vec128
deriving DecidableEq, Repr

/-- `CAP` (R32). `sel` is stored because R241 resolves it at reset and at each `CAP.FORCE` and keeps it between. -/
structure Cap where
  hwVec128 : Bool
  forceScalar : Bool
  sel : Datapath
deriving DecidableEq, Repr

/-! ### The command port -/

/-- A command in progress (only with several contexts, R65, R67): its words, captured whole at acceptance (R68),
and the datapath it sampled there (R241, R242). -/
structure InFlight where
  instr : Instr
  sel : Datapath
deriving DecidableEq, Repr

/-- A context's command port: the host's stream with its index `ci` (R36), whether an illegal command ended the
run (R78), and the command in progress, if any. The stream is not in buffer memory (R68). -/
structure Port where
  stream : List Word
  ci : Nat
  ended : Bool
  busy : Option InFlight
deriving DecidableEq, Repr

/-- One context (R42): its own copy of the registers of R22 to R31 and R33, and its own command port. -/
structure Context where
  cc : ChaChaUnit
  poly : PolyUnit
  ae : AeadUnit
  /-- `STATUS`, 8 bits (R33). -/
  status : BitVec 8
  /-- `VALUE`, 32 bits (R33). -/
  value : Word
  port : Port
deriving DecidableEq, Repr

/-! ### Buffer memory -/

/-- The buffer memory (R50): `size` is MEM_SIZE, and `cells` lists, at strictly rising addresses, the bytes that
differ from `Config.unlistedByte` (log 1). -/
structure Memory where
  size : Nat
  cells : List Host.Cell
deriving DecidableEq, Repr

/-! ### The host's moves -/

/-- What the host does next (R9, R42, R63 to R65). With no move listed, a step serves the active context's next
command, alone and to completion (log 8). -/
inductive HostMove where
  /-- Present context `k`'s next command and let it complete before anything else. -/
  | run (k : Nat)
  /-- Present context `k`'s next command and leave it in progress. -/
  | start (k : Nat)
  /-- The command in progress in context `k` completes. -/
  | finish (k : Nat)
  /-- The host writes bytes to buffer memory, lowest address first. -/
  | write (addr : Nat) (bytes : List Byte)
  /-- The host reads `len` bytes of buffer memory from `addr`. -/
  | read (addr len : Nat)
deriving DecidableEq, Repr

/-! ### Statuses -/

/-- The statuses a command can end with (R250); the table there is complete. -/
inductive Status where
  | ok | invalidArgument | invalidSize | lengthMismatch | authenticationFailure | sequenceError
  | illegalCommand | accessFault
deriving DecidableEq, Repr

/-! ### The machine -/

/-- The engine with its buffer memory and its host. `ctx` is the active context, number `cur`; `others` are the
remaining contexts in the order of their numbers (R42). The key register and `CAP` are shared by all. -/
structure State where
  /-- `KEY[0..31]` (R21). -/
  key : Vector Byte 32
  /-- `KEY_VALID` (R21). -/
  keyValid : Bool
  /-- `CAP` (R32). -/
  cap : Cap
  /-- Buffer memory (R50). -/
  mem : Memory
  /-- The active context. -/
  ctx : Context
  /-- Its number. -/
  cur : Nat
  /-- The other contexts. -/
  others : List Context
  /-- The host's moves to come. -/
  moves : List HostMove
deriving DecidableEq, Repr

/-- Why the machine stops without an outcome of the engine: the host's side has nothing to present, or does what
no host can do. Each is raised by `step` alone and is safe: the machine stops where the hardware does nothing. -/
inductive Fault where
  /-- Raised when a step finds no further command: `ci` is at the stream's end, or an illegal command ended the run
  (R36, R78). Safe. -/
  | runEnded
  /-- Raised by a move that names a context that does not exist (R42). Safe. -/
  | noSuchContext
  /-- Raised when a command is presented on a port whose command is still in progress: one at a time (R9). Safe. -/
  | portBusy
  /-- Raised by `finish` on a port with no command in progress. Safe. -/
  | nothingInProgress
  /-- Raised by a host access outside the buffer memory (R50). Safe. -/
  | hostAddress
deriving DecidableEq, Repr

/-- The outcome `refused` (R10): the spec defines no behaviour. -/
inductive Refusal where
  /-- An instruction that has no meaning yet; raised by `exec` alone. Safe. -/
  | notModelled (mnemonic : String)
  /-- U3: buffers of one command overlap other than by the identical in-place pair (R59). Raised by `AE.ENC`,
  `AE.ENCC`, `AE.DEC`, `AE.DECC`. Safe. -/
  | overlap
  /-- U4: the buffers of commands in progress in two contexts intersect, other than by common inputs (R65). Raised
  by `step`. Safe. -/
  | bufferRace
  /-- U5: `KEY.LOAD` or `KEY.DISPOSE` while an `AE.*` command is in progress in another context (R67, R284). Raised
  by `step`. Safe. -/
  | keyRace
  /-- U6: the host accesses a buffer of a command in progress (R64, R287). Raised by `step`. Safe. -/
  | hostRace
deriving DecidableEq, Repr

/-! ### Reset -/

/-- The ChaCha20 unit after reset (R41). -/
def ChaChaUnit.reset : ChaChaUnit :=
  { s := .zero, x := .zero, ks := zeroBytes 64, live := false }

/-- The Poly1305 unit after reset (R41). -/
def PolyUnit.reset : PolyUnit :=
  { r := .zero, s := .zero, h := .zero, pad := .zero, buf := zeroBytes 16, leftover := 0, final := false,
    live := false, d := .zero, c := 0, g := .zero, mask := 0, f := 0, b := .zero, t := .zero, w := .zero }

/-- The orchestrator's registers after reset (R41). -/
def AeadUnit.reset : AeadUnit :=
  { otk := zeroBytes 32, ctag := zeroBytes 16, lenblk := zeroBytes 16, phase := .idle }

/-- A port to which the host has given no stream (R281: `ci = 0`). -/
def Port.empty : Port := { stream := [], ci := 0, ended := false, busy := none }

/-- A context after reset (R41). -/
def Context.reset : Context :=
  { cc := .reset, poly := .reset, ae := .reset, status := 0, value := 0, port := .empty }

/-- `CAP` after reset (R41): `SEL = HW_VEC128 & ~FORCE_SCALAR_RESET`. -/
def Cap.reset (p : Params) : Cap :=
  { hwVec128 := p.hwVec128, forceScalar := p.forceScalarReset,
    sel := if p.hwVec128 && !p.forceScalarReset then .vec128 else .scalar }

/-- Buffer memory of `size` bytes that nothing has written. -/
def Memory.empty (size : Nat) : Memory := { size := size, cells := [] }

/-- The machine right after reset with parameters `p` and buffer memory `mem`, which reset does not change
(R41, R280). -/
def State.resetWith (p : Params) (mem : Memory) : State :=
  { key := zeroBytes 32, keyValid := false, cap := .reset p, mem := mem, ctx := .reset, cur := 0,
    others := List.replicate (p.nCtx - 1) .reset, moves := [] }

/-- The machine right after reset with the default parameters of R13 and memory that nothing has written. -/
def State.reset : State := .resetWith Config.params (.empty Config.params.memSize)

end Sys2Proof.Machine
end

