-- ==== Sys2Proof/Machine/Ops.lean ====
section
/-! DEFINITION. The shared operations: buffer memory (R50, R52), the word and byte utilities (R90 to R95), register
access, the response and the one way a command ends with an error (R82, R260), zeroisation (R40, R184, R213), and
the choice of the active context (R42). -/

namespace Sys2Proof.Machine

/-! ### Byte strings and little-endian packing (R53, R90 to R93) -/

/-- The number `Σ bs[i]·2^(8i)` (R54, R92, R150). -/
def leNat : List Byte → Nat
  | [] => 0
  | b :: bs => b.toNat + 2 ^ 8 * leNat bs

/-- `LOAD32LE(b, o)` (R90). -/
def load32le (b : List Byte) (o : Nat) : Word := BitVec.ofNat 32 (leNat ((b.drop o).take 4))

/-- `STORE32LE(v)` (R91). -/
def store32le (v : Word) : List Byte :=
  [v.extractLsb' 0 8, v.extractLsb' 8 8, v.extractLsb' 16 8, v.extractLsb' 24 8]

/-- `LOAD64LE(b, o)` (R92). -/
def load64le (b : List Byte) (o : Nat) : DWord := BitVec.ofNat 64 (leNat ((b.drop o).take 8))

/-- `STORE64LE(v)` (R93). -/
def store64le (v : DWord) : List Byte :=
  [v.extractLsb' 0 8, v.extractLsb' 8 8, v.extractLsb' 16 8, v.extractLsb' 24 8,
   v.extractLsb' 32 8, v.extractLsb' 40 8, v.extractLsb' 48 8, v.extractLsb' 56 8]

/-- `ROTL32(v, n)` (R94); the engine uses n ∈ {16, 12, 8, 7}. -/
def rotl32 (v : Word) (n : Nat) : Word := (v <<< n) ||| (v >>> (32 - n))

/-- The accumulator of `CTEQ16`: the OR of the XORs of all byte pairs, 32 bits wide (R95). -/
def cteqAcc (a b : List Byte) : Word :=
  (a.zip b).foldl (fun acc p => acc ||| (p.1 ^^^ p.2).setWidth 32) 0#32

/-- `CTEQ16(a, b)` by subtract-and-shift, 1 for equal 16-byte strings and 0 otherwise (R95). -/
def cteq16 (a b : List Byte) : Word := ((cteqAcc a b - 1#32) >>> 31) &&& 1#32

/-- A byte register of `n` bytes from a byte string. -/
def byteVec (n : Nat) (bs : List Byte) : Vector Byte n := Vector.ofFn fun i => bs.getD i.val 0#8

/-- The XOR of two byte strings, as long as the shorter (R110: the needed prefix of the keystream, R112). -/
def xorBytes (a b : List Byte) : List Byte := List.zipWith (· ^^^ ·) a b

/-! ### Buffer memory (R50, R52) -/

/-- Strictly rising addresses from `lo` on and below `hi`, and no entry equal to what an unlisted address reads as. -/
def cellsWf (lo hi : Nat) : List Host.Cell → Bool
  | [] => true
  | (a, b) :: cs => decide (lo ≤ a) && decide (a < hi) && decide (b ≠ Config.unlistedByte) && cellsWf (a + 1) hi cs

/-- The canonical form of buffer memory: its cells are listed canonically, all inside `0 .. MEM_SIZE−1`, and
MEM_SIZE is legal (R13). -/
def Memory.wf (m : Memory) : Bool :=
  cellsWf 0 m.size m.cells && decide (1 ≤ m.size) && decide (m.size ≤ 2 ^ 64)

/-- The byte listed at an address, or what an unlisted address reads as. -/
def cellsRead (a : Nat) : List Host.Cell → Byte
  | [] => Config.unlistedByte
  | (a', b') :: cs => if a = a' then b' else cellsRead a cs

/-- The cells with address `a` holding `b`; the canonical form is kept. -/
def cellsWrite (a : Nat) (b : Byte) : List Host.Cell → List Host.Cell
  | [] => if b = Config.unlistedByte then [] else [(a, b)]
  | (a', b') :: cs =>
    if a < a' then (if b = Config.unlistedByte then (a', b') :: cs else (a, b) :: (a', b') :: cs)
    else if a = a' then (if b = Config.unlistedByte then cs else (a, b) :: cs)
    else (a', b') :: cellsWrite a b cs

/-- `MEM[a]`. -/
def Memory.read (m : Memory) (a : Nat) : Byte := cellsRead a m.cells

/-- `MEM[a] <- b`. -/
def Memory.write (m : Memory) (a : Nat) (b : Byte) : Memory := { m with cells := cellsWrite a b m.cells }

/-- `MemRead(addr, n)` (R52). -/
def Memory.readBytes (m : Memory) : Nat → Nat → List Byte
  | _, 0 => []
  | a, n + 1 => m.read a :: m.readBytes (a + 1) n

/-- `MemWrite(addr, n, v)` with `n = len(v)` (R52). -/
def Memory.writeBytes (m : Memory) : Nat → List Byte → Memory
  | _, [] => m
  | a, b :: bs => (m.write a b).writeBytes (a + 1) bs

/-! ### The word files, by index (R15) -/

/-- `x[i]`. -/
def Words16.get (x : Words16) (i : Fin 16) : Word :=
  match i.val with
  | 0 => x.w0 | 1 => x.w1 | 2 => x.w2 | 3 => x.w3 | 4 => x.w4 | 5 => x.w5 | 6 => x.w6 | 7 => x.w7
  | 8 => x.w8 | 9 => x.w9 | 10 => x.w10 | 11 => x.w11 | 12 => x.w12 | 13 => x.w13 | 14 => x.w14 | _ => x.w15

/-- `x[i] <- v`. -/
def Words16.set (x : Words16) (i : Fin 16) (v : Word) : Words16 :=
  match i.val with
  | 0 => { x with w0 := v } | 1 => { x with w1 := v } | 2 => { x with w2 := v } | 3 => { x with w3 := v }
  | 4 => { x with w4 := v } | 5 => { x with w5 := v } | 6 => { x with w6 := v } | 7 => { x with w7 := v }
  | 8 => { x with w8 := v } | 9 => { x with w9 := v } | 10 => { x with w10 := v } | 11 => { x with w11 := v }
  | 12 => { x with w12 := v } | 13 => { x with w13 := v } | 14 => { x with w14 := v } | _ => { x with w15 := v }

/-- The sixteen words in index order. -/
def Words16.toList (x : Words16) : List Word :=
  [x.w0, x.w1, x.w2, x.w3, x.w4, x.w5, x.w6, x.w7, x.w8, x.w9, x.w10, x.w11, x.w12, x.w13, x.w14, x.w15]

/-! ### Register access -/

/-- The machine with another buffer memory. -/
def State.withMem (m : Memory) (s : State) : State := { s with mem := m }
/-- The machine with the active context's ChaCha20 unit replaced. -/
def State.withCc (u : ChaChaUnit) (s : State) : State := { s with ctx := { s.ctx with cc := u } }
/-- The machine with the active context's Poly1305 unit replaced. -/
def State.withPoly (u : PolyUnit) (s : State) : State := { s with ctx := { s.ctx with poly := u } }
/-- The machine with the active context's orchestrator registers replaced. -/
def State.withAe (u : AeadUnit) (s : State) : State := { s with ctx := { s.ctx with ae := u } }
/-- The machine with `PHASE` at another position (R217). -/
def State.withPhase (p : Phase) (s : State) : State := s.withAe { s.ctx.ae with phase := p }
/-- The machine with the key register and its flag replaced (R21). -/
def State.withKey (k : Vector Byte 32) (valid : Bool) (s : State) : State := { s with key := k, keyValid := valid }
/-- The machine with the capability bits replaced (R32). -/
def State.withCap (c : Cap) (s : State) : State := { s with cap := c }
/-- The machine with the active context's command port replaced. -/
def State.withPort (p : Port) (s : State) : State := { s with ctx := { s.ctx with port := p } }
/-- The machine with the host's moves replaced. -/
def State.withMoves (ms : List HostMove) (s : State) : State := { s with moves := ms }

/-! ### The response (R82, R250) -/

/-- The numbers of the statuses (R250). -/
def Status.code : Status → BitVec 8
  | .ok => 0
  | .invalidArgument => 1
  | .invalidSize => 2
  | .lengthMismatch => 3
  | .authenticationFailure => 4
  | .sequenceError => 5
  | .illegalCommand => 6
  | .accessFault => 7

/-- `STATUS <- code; VALUE <- v`, the response of the active context (R33, R82). -/
def State.respond (st : Status) (v : Word) (s : State) : State :=
  { s with ctx := { s.ctx with status := st.code, value := v } }

/-- A command ends with an error status before any work: no register changes except the response, and no byte of
memory (R16 `raise`, R260 a). The engine has no trap entry: this is all there is to taking an error (R265). -/
def State.raise (st : Status) (s : State) : State := s.respond st 0#32

/-! ### Zeroisation -/

/-- `zeroise(S); zeroise(X); zeroise(KS); CC_LIVE <- 0` (R110, R114). -/
def wipeCc (_ : ChaChaUnit) : ChaChaUnit :=
  { s := .zero, x := .zero, ks := zeroBytes 64, live := false }

/-- `WIPE_P` (R184). -/
def wipePoly (_ : PolyUnit) : PolyUnit :=
  { r := .zero, s := .zero, h := .zero, pad := .zero, buf := zeroBytes 16, leftover := 0, final := false,
    live := false, d := .zero, c := 0, g := .zero, mask := 0, f := 0, b := .zero, t := .zero, w := .zero }

/-- `OTK <- 0; CTAG <- 0; LENBLK <- 0` (R213); `PHASE` is moved by its own writes (R217). -/
def wipeAeRegs (u : AeadUnit) : AeadUnit :=
  { otk := zeroBytes 32, ctag := zeroBytes 16, lenblk := zeroBytes 16, phase := u.phase }

/-- `WIPE_AE` (R213). `KEY` is not wiped. -/
def wipeAe (s : State) : State :=
  ((s.withCc (wipeCc s.ctx.cc)).withPoly (wipePoly s.ctx.poly)).withAe (wipeAeRegs s.ctx.ae)

/-! ### Contexts (R42) -/

/-- All contexts in the order of their numbers. -/
def State.contexts (s : State) : List Context := s.others.take s.cur ++ s.ctx :: s.others.drop s.cur

/-- The machine with context `k` active; `none` where there is no context `k`. No register changes. -/
def State.select (k : Nat) (s : State) : Option State :=
  match s.contexts[k]? with
  | none => none
  | some c => some { s with ctx := c, cur := k, others := s.contexts.eraseIdx k }

/-- The datapath a command of the active context uses for all its blocks: what it sampled at acceptance when it is
in progress, `CAP.SEL` otherwise (R241, R242). -/
def State.datapath (s : State) : Datapath :=
  match s.ctx.port.busy with
  | some b => b.sel
  | none => s.cap.sel

end Sys2Proof.Machine
end

