-- ==== Sys2Proof/Machine/Operands.lean ====
section
/-! DEFINITION. Buffer references as operands: presence (R51, R251), bounds (R58, R257), the ranges a command reads
and writes (R57), the sub-ranges of the combined forms (R209, R211), and overlap within one command (R59) and
between two (R65). -/

namespace Sys2Proof.Machine

/-- A range of buffer memory: `len` bytes from `addr` on, as unbounded integers (R14, R58). -/
structure Range where
  addr : Nat
  len : Nat
deriving DecidableEq, Repr

/-- The bytes a reference names. -/
def refRange (r : Ref) : Range := { addr := r.addr.toNat, len := r.len.toNat }

/-- `bytes(p)` (R17). -/
def Memory.readRange (m : Memory) (r : Range) : List Byte := m.readBytes r.addr r.len

/-- A reference is present unless its address is 0, the null reference (R51). -/
def present (r : Ref) : Bool := decide (r.addr ≠ 0#64)

/-- `aad` may be null when its length is 0; a null reference with a length is absent (R251, D23). -/
def aadPresent (r : Ref) : Bool := present r || decide (r.len = 0#64)

/-- A reference has a fixed size (R252). -/
def sized (r : Ref) (n : Nat) : Bool := decide (r.len.toNat = n)

/-- `addr + len ≤ MEM_SIZE` computed without wrap, asked of a present reference only (R58, R257). -/
def bounded (size : Nat) (r : Ref) : Bool := !present r || decide (r.addr.toNat + r.len.toNat ≤ size)

/-- The ciphertext part of a combined buffer: all but the trailing 16 bytes (R209, R211). -/
def combinedData (r : Ref) : Range := { addr := r.addr.toNat, len := r.len.toNat - Config.tagBytes }

/-- The tag part of a combined buffer: "tag always the trailing 16 bytes" (R209, R211). -/
def combinedTag (r : Ref) : Range :=
  { addr := r.addr.toNat + (r.len.toNat - Config.tagBytes), len := Config.tagBytes }

/-- Two ranges share no byte; an empty range overlaps nothing (R59). -/
def disjoint (a b : Range) : Bool :=
  decide (a.len = 0) || decide (b.len = 0) || decide (a.addr + a.len ≤ b.addr) || decide (b.addr + b.len ≤ a.addr)

/-- The two allowed shapes of a data pair: disjoint, or the identical range (in place) (R59). -/
def disjointOrSame (src dst : Range) : Bool := disjoint src dst || decide (src = dst)

/-- R59 for an encryption: outputs `ct` and `tag`, inputs `nonce`, `pt`, `aad`, with the in-place pair `pt`/`ct`. -/
def encShapes (nonce pt aad ct tag : Range) : Bool :=
  disjointOrSame pt ct && disjoint ct nonce && disjoint ct aad && disjoint ct tag &&
    disjoint tag nonce && disjoint tag pt && disjoint tag aad

/-- R59 for a decryption: output `pt`, inputs `nonce`, `ct`, `tag`, `aad`, with the in-place pair `ct`/`pt`. -/
def decShapes (nonce ct tag aad pt : Range) : Bool :=
  disjointOrSame ct pt && disjoint pt nonce && disjoint pt tag && disjoint pt aad

/-- The ranges a command reads (R57). -/
def inputs : Instr → List Range
  | .keyLoad key => [refRange key]
  | .keyDispose => []
  | .ccInit _ key nonce => [refRange key, refRange nonce]
  | .ccXor buf => [refRange buf]
  | .ccClear => []
  | .pInit key => [refRange key]
  | .pUpdate data => [refRange data]
  | .pFinish _ => []
  | .pVerify tagA tagB => [refRange tagA, refRange tagB]
  | .aeEnc nonce pt aad _ _ => [refRange nonce, refRange pt, refRange aad]
  | .aeEncc nonce pt aad _ => [refRange nonce, refRange pt, refRange aad]
  | .aeDec nonce ct tag aad _ => [refRange nonce, refRange ct, refRange tag, refRange aad]
  | .aeDecc nonce inp aad _ => [refRange nonce, refRange inp, refRange aad]
  | .capForce _ => []
  | .capRd => []

/-- The ranges a command writes (R57, R62). -/
def outputs : Instr → List Range
  | .keyLoad _ => []
  | .keyDispose => []
  | .ccInit _ _ _ => []
  | .ccXor buf => [refRange buf]
  | .ccClear => []
  | .pInit _ => []
  | .pUpdate _ => []
  | .pFinish tag => [refRange tag]
  | .pVerify _ _ => []
  | .aeEnc _ _ _ ct tag => [refRange ct, refRange tag]
  | .aeEncc _ _ _ out => [refRange out]
  | .aeDec _ _ _ _ pt => [refRange pt]
  | .aeDecc _ _ _ pt => [refRange pt]
  | .capForce _ => []
  | .capRd => []

/-- Some range of `as` shares a byte with some range of `bs`. -/
def intersects (as bs : List Range) : Bool := as.any fun a => bs.any fun b => !disjoint a b

/-- Two commands race on memory: an output of one meets a buffer of the other (R65). -/
def bufferRaces (i j : Instr) : Bool :=
  intersects (outputs i) (inputs j ++ outputs j) || intersects (inputs i) (outputs j)

/-- `AE.ENC`, `AE.ENCC`, `AE.DEC`, `AE.DECC`: the commands that read `KEY` (R21). -/
def isAead : Instr → Bool
  | .aeEnc _ _ _ _ _ | .aeEncc _ _ _ _ | .aeDec _ _ _ _ _ | .aeDecc _ _ _ _ => true
  | .keyLoad _ | .keyDispose | .ccInit _ _ _ | .ccXor _ | .ccClear | .pInit _ | .pUpdate _ | .pFinish _
  | .pVerify _ _ | .capForce _ | .capRd => false

/-- `CC.XOR` and `AE.*`: the commands that generate blocks, on the datapath `CAP.SEL` selects (R110, R241). -/
def usesDatapath : Instr → Bool
  | .ccXor _ | .aeEnc _ _ _ _ _ | .aeEncc _ _ _ _ | .aeDec _ _ _ _ _ | .aeDecc _ _ _ _ => true
  | .keyLoad _ | .keyDispose | .ccInit _ _ _ | .ccClear | .pInit _ | .pUpdate _ | .pFinish _ | .pVerify _ _
  | .capForce _ | .capRd => false

/-- `KEY.LOAD`, `KEY.DISPOSE`: the commands that write `KEY` (R21). -/
def writesKey : Instr → Bool
  | .keyLoad _ | .keyDispose => true
  | .ccInit _ _ _ | .ccXor _ | .ccClear | .pInit _ | .pUpdate _ | .pFinish _ | .pVerify _ _
  | .aeEnc _ _ _ _ _ | .aeEncc _ _ _ _ | .aeDec _ _ _ _ _ | .aeDecc _ _ _ _ | .capForce _ | .capRd => false

/-- Two commands race on the key: one writes it while the other, an `AE.*`, is in progress (R67, R284). -/
def keyRaces (i j : Instr) : Bool := (writesKey i && isAead j) || (isAead i && writesKey j)

end Sys2Proof.Machine
end

