-- ==== Sys2Proof/Machine/Flags.lean ====
section
/-! DEFINITION. The flags (R34): the liveness conditions a command needs (R255), the resolution of `CAP.SEL`
(R241), and the `CAPSTAT` image (R38). The engine has no carry, zero, sign or overflow flag (R34). -/

namespace Sys2Proof.Machine

/-- `CAP.SEL = CAP.HW_VEC128 & ~CAP.FORCE_SCALAR` (R241). -/
def resolveSel (hwVec128 forceScalar : Bool) : Datapath :=
  if hwVec128 && !forceScalar then .vec128 else .scalar

/-- The numeric value of a selection: `SCALAR = 0`, `VEC128 = 1` (R240). -/
def selBit : Datapath → Bool
  | .scalar => false
  | .vec128 => true

/-- The override written and the selection resolved again; `HW_VEC128` is read-only (R32, R242). -/
def forceScalar (f : Bool) (c : Cap) : Cap :=
  { hwVec128 := c.hwVec128, forceScalar := f, sel := resolveSel c.hwVec128 f }

/-- The `CAPSTAT` image (R38): bits 0 to 5, bits 31:6 zero. -/
def capstat (s : State) : Word :=
  BitVec.ofNat 32
    (s.cap.hwVec128.toNat + 2 * s.cap.forceScalar.toNat + 4 * (selBit s.cap.sel).toNat + 8 * s.keyValid.toNat +
      16 * s.ctx.cc.live.toNat + 32 * s.ctx.poly.live.toNat)

/-- What every `AE.*` command needs of the flags: a key, and both units idle (R217, R255). -/
def aeadReady (s : State) : Bool := s.keyValid && !s.ctx.cc.live && !s.ctx.poly.live

end Sys2Proof.Machine
end

