-- ==== Sys2Proof/Machine/Acceptance.lean ====
section
/-! DEFINITION. The acceptance stage (R258, R259): what each command's checks ask, in the classes of R258 after
decode, and what the first failing class means. The checks use the command's operands, MEM_SIZE and the three
liveness flags only. -/

namespace Sys2Proof.Machine

/-- The answers of the six acceptance classes of R258 (decode, the first class, comes before): `true` is passed. -/
structure Checks where
  /-- Class 2, the liveness flags (R255). -/
  live : Bool
  /-- Class 3, presence of every reference (R251). -/
  present : Bool
  /-- Class 4, every fixed size (R252). -/
  sized : Bool
  /-- Class 5, length relations (R253). -/
  related : Bool
  /-- Class 6, bounds of every present reference (R257). -/
  bounded : Bool
  /-- Class 7, the overlap rule (R59). -/
  shapes : Bool
deriving DecidableEq, Repr

/-- What acceptance decides. -/
inductive Verdict where
  | accept
  | error (st : Status)
  | refuse (r : Refusal)
deriving DecidableEq, Repr

/-- "The first check that fails decides the status; later checks are not made" (R258). -/
def verdict (c : Checks) : Verdict :=
  if !c.live then .error .sequenceError
  else if !c.present then .error .invalidArgument
  else if !c.sized then .error .invalidSize
  else if !c.related then .error .lengthMismatch
  else if !c.bounded then .error .accessFault
  else if !c.shapes then .refuse .overlap
  else .accept

/-- The one way every command runs: acceptance, then its work; a command that fails acceptance does no work and
changes nothing but the response (R258, R260 a, c). -/
def perform (c : Checks) (work : State → State) (s : State) : Host.Outcome State Fault Refusal :=
  match verdict c with
  | .accept => .next (work s)
  | .error st => .next (s.raise st)
  | .refuse r => .refused r

/-! ### The checks of each command -/

/-- The checks of a command without references that is accepted in every state. -/
def checksNone : Checks :=
  { live := true, present := true, sized := true, related := true, bounded := true, shapes := true }

/-- `KEY.LOAD` (R201). -/
def checksKeyLoad (key : Ref) (s : State) : Checks :=
  { checksNone with live := !s.keyValid, present := present key, sized := sized key Config.keyBytes,
                    bounded := bounded s.mem.size key }

/-- `CC.INIT` (R101). -/
def checksCcInit (key nonce : Ref) (s : State) : Checks :=
  { checksNone with present := present key && present nonce,
                    sized := sized key Config.keyBytes && sized nonce Config.nonceBytes,
                    bounded := bounded s.mem.size key && bounded s.mem.size nonce }

/-- `CC.XOR` (R110). -/
def checksCcXor (buf : Ref) (s : State) : Checks :=
  { checksNone with live := s.ctx.cc.live, present := present buf, bounded := bounded s.mem.size buf }

/-- `P.INIT` (R180). -/
def checksPInit (key : Ref) (s : State) : Checks :=
  { checksNone with present := present key, sized := sized key Config.keyBytes, bounded := bounded s.mem.size key }

/-- `P.UPDATE` (R181). -/
def checksPUpdate (data : Ref) (s : State) : Checks :=
  { checksNone with live := s.ctx.poly.live, present := present data, bounded := bounded s.mem.size data }

/-- `P.FINISH` (R183). -/
def checksPFinish (tag : Ref) (s : State) : Checks :=
  { checksNone with live := s.ctx.poly.live, present := present tag, sized := sized tag Config.tagBytes,
                    bounded := bounded s.mem.size tag }

/-- `P.VERIFY` (R185). -/
def checksPVerify (tagA tagB : Ref) (s : State) : Checks :=
  { checksNone with present := present tagA && present tagB,
                    sized := sized tagA Config.tagBytes && sized tagB Config.tagBytes,
                    bounded := bounded s.mem.size tagA && bounded s.mem.size tagB }

/-- `AE.ENC` (R208). -/
def checksAeEnc (nonce pt aad ct tag : Ref) (s : State) : Checks :=
  { live := aeadReady s
    present := present nonce && present pt && aadPresent aad && present ct && present tag
    sized := sized nonce Config.nonceBytes && sized tag Config.tagBytes
    related := decide (pt.len = ct.len)
    bounded := bounded s.mem.size nonce && bounded s.mem.size pt && bounded s.mem.size aad &&
      bounded s.mem.size ct && bounded s.mem.size tag
    shapes := encShapes (refRange nonce) (refRange pt) (refRange aad) (refRange ct) (refRange tag) }

/-- `AE.ENCC` (R209). -/
def checksAeEncc (nonce pt aad out : Ref) (s : State) : Checks :=
  { live := aeadReady s
    present := present nonce && present pt && aadPresent aad && present out
    sized := sized nonce Config.nonceBytes
    related := decide (out.len.toNat = pt.len.toNat + Config.tagBytes)
    bounded := bounded s.mem.size nonce && bounded s.mem.size pt && bounded s.mem.size aad &&
      bounded s.mem.size out
    shapes := encShapes (refRange nonce) (refRange pt) (refRange aad) (combinedData out) (combinedTag out) }

/-- `AE.DEC` (R210). -/
def checksAeDec (nonce ct tag aad pt : Ref) (s : State) : Checks :=
  { live := aeadReady s
    present := present nonce && present ct && present tag && aadPresent aad && present pt
    sized := sized nonce Config.nonceBytes && sized tag Config.tagBytes
    related := decide (ct.len = pt.len)
    bounded := bounded s.mem.size nonce && bounded s.mem.size ct && bounded s.mem.size tag &&
      bounded s.mem.size aad && bounded s.mem.size pt
    shapes := decShapes (refRange nonce) (refRange ct) (refRange tag) (refRange aad) (refRange pt) }

/-- `AE.DECC` (R211): `in.len < 16` is a size defect. -/
def checksAeDecc (nonce inp aad pt : Ref) (s : State) : Checks :=
  { live := aeadReady s
    present := present nonce && present inp && aadPresent aad && present pt
    sized := sized nonce Config.nonceBytes && decide (Config.tagBytes ≤ inp.len.toNat)
    related := decide (inp.len.toNat - Config.tagBytes = pt.len.toNat)
    bounded := bounded s.mem.size nonce && bounded s.mem.size inp && bounded s.mem.size aad &&
      bounded s.mem.size pt
    shapes := decShapes (refRange nonce) (combinedData inp) (combinedTag inp) (refRange aad) (refRange pt) }

/-- The checks of a command (R258). -/
def checks (i : Instr) (s : State) : Checks :=
  match i with
  | .keyLoad key => checksKeyLoad key s
  | .keyDispose => checksNone
  | .ccInit _ key nonce => checksCcInit key nonce s
  | .ccXor buf => checksCcXor buf s
  | .ccClear => checksNone
  | .pInit key => checksPInit key s
  | .pUpdate data => checksPUpdate data s
  | .pFinish tag => checksPFinish tag s
  | .pVerify tagA tagB => checksPVerify tagA tagB s
  | .aeEnc nonce pt aad ct tag => checksAeEnc nonce pt aad ct tag s
  | .aeEncc nonce pt aad out => checksAeEncc nonce pt aad out s
  | .aeDec nonce ct tag aad pt => checksAeDec nonce ct tag aad pt s
  | .aeDecc nonce inp aad pt => checksAeDecc nonce inp aad pt s
  | .capForce _ => checksNone
  | .capRd => checksNone

/-- The command is accepted: it passed every check of R258. -/
abbrev accepted (i : Instr) (s : State) : Prop := verdict (checks i s) = .accept

end Sys2Proof.Machine
end

