-- ==== Sys2Proof/Machine/ChaCha.lean ====
section
/-! DEFINITION. The ChaCha20 unit: state set-up (R101, R118), the scalar datapath (R102 to R109), the 128-bit
vector datapath (R130 to R138), the choice between them (R142, R240), the keystream engine (R110 to R113, R139), and
the commands `CC.INIT`, `CC.XOR`, `CC.CLEAR`. -/

namespace Sys2Proof.Machine

/-! ### State set-up -/

/-- `STATE(k, counter, n)` (R101, R118): constants, key words, counter, nonce words, in the layout of R22. -/
def chachaState (k : List Byte) (counter : Word) (n : List Byte) : Words16 :=
  { w0 := Config.c0, w1 := Config.c1, w2 := Config.c2, w3 := Config.c3
    w4 := load32le k 0, w5 := load32le k 4, w6 := load32le k 8, w7 := load32le k 12
    w8 := load32le k 16, w9 := load32le k 20, w10 := load32le k 24, w11 := load32le k 28
    w12 := counter
    w13 := load32le n 0, w14 := load32le n 4, w15 := load32le n 8 }

/-! ### The scalar datapath -/

/-- The twelve steps of the quarter-round on the words (a, b, c, d), in R102's order. -/
def quarter (v : Quad) : Quad :=
  let a := v.q0
  let b := v.q1
  let c := v.q2
  let d := v.q3
  let a := a + b
  let d := rotl32 (d ^^^ a) 16
  let c := c + d
  let b := rotl32 (b ^^^ c) 12
  let a := a + b
  let d := rotl32 (d ^^^ a) 8
  let c := c + d
  let b := rotl32 (b ^^^ c) 7
  { q0 := a, q1 := b, q2 := c, q3 := d }

/-- `QR(a, b, c, d)` on four distinct indices of the working file (R102). -/
def quarterRound (a b c d : Fin 16) (x : Words16) : Words16 :=
  let v := quarter { q0 := x.get a, q1 := x.get b, q2 := x.get c, q3 := x.get d }
  (((x.set a v.q0).set b v.q1).set c v.q2).set d v.q3

/-- `CROUND` (R103). -/
def columnRound (x : Words16) : Words16 :=
  quarterRound 3 7 11 15 (quarterRound 2 6 10 14 (quarterRound 1 5 9 13 (quarterRound 0 4 8 12 x)))

/-- `DIAGROUND` (R104). -/
def diagonalRound (x : Words16) : Words16 :=
  quarterRound 3 4 9 14 (quarterRound 2 7 8 13 (quarterRound 1 6 11 12 (quarterRound 0 5 10 15 x)))

/-- `DROUND` (R105). -/
def doubleRound (x : Words16) : Words16 := diagonalRound (columnRound x)

/-- `n` applications of `f`, one after another. -/
def applyTimes {α : Type} (f : α → α) : Nat → α → α
  | 0, x => x
  | n + 1, x => applyTimes f n (f x)

/-- `PERMUTE`: ten double rounds (R106). -/
def permute (x : Words16) : Words16 := applyTimes doubleRound 10 x

/-- `FEEDFWD`: `X[i] +_32 S[i]` for all sixteen words (R107). -/
def feedForward (x s : Words16) : Words16 :=
  { w0 := x.w0 + s.w0, w1 := x.w1 + s.w1, w2 := x.w2 + s.w2, w3 := x.w3 + s.w3
    w4 := x.w4 + s.w4, w5 := x.w5 + s.w5, w6 := x.w6 + s.w6, w7 := x.w7 + s.w7
    w8 := x.w8 + s.w8, w9 := x.w9 + s.w9, w10 := x.w10 + s.w10, w11 := x.w11 + s.w11
    w12 := x.w12 + s.w12, w13 := x.w13 + s.w13, w14 := x.w14 + s.w14, w15 := x.w15 + s.w15 }

/-- `SERIALIZE`: `STORE32LE` of the sixteen words in index order (R108). -/
def serialize (x : Words16) : List Byte := x.toList.flatMap store32le

/-- The sixteen words after the scalar permutation and feed-forward of `S` (R109). -/
def scalarBlock (s : Words16) : Words16 := feedForward (permute s) s

/-! ### The vector datapath -/

/-- The four vector registers `V[0..3]` (R130). -/
structure Rows where
  (v0 v1 v2 v3 : Quad)
deriving DecidableEq, Repr

/-- The vector view: `V[i].lane[j] = X[4i + j]` (R25, R130). -/
def rowsOf (x : Words16) : Rows :=
  { v0 := ⟨x.w0, x.w1, x.w2, x.w3⟩, v1 := ⟨x.w4, x.w5, x.w6, x.w7⟩
    v2 := ⟨x.w8, x.w9, x.w10, x.w11⟩, v3 := ⟨x.w12, x.w13, x.w14, x.w15⟩ }

/-- The working file that four rows alias (R25, R130). -/
def wordsOf (v : Rows) : Words16 :=
  ⟨v.v0.q0, v.v0.q1, v.v0.q2, v.v0.q3, v.v1.q0, v.v1.q1, v.v1.q2, v.v1.q3,
   v.v2.q0, v.v2.q1, v.v2.q2, v.v2.q3, v.v3.q0, v.v3.q1, v.v3.q2, v.v3.q3⟩

/-- The 128-bit value of a vector register: lane j is bits 32j+31 : 32j (R130). -/
def lanes128 (a : Quad) : BitVec 128 := a.q3 ++ a.q2 ++ a.q1 ++ a.q0

/-- `VADD` (R131). -/
def vadd (a b : Quad) : Quad := ⟨a.q0 + b.q0, a.q1 + b.q1, a.q2 + b.q2, a.q3 + b.q3⟩

/-- `VXOR` (R132). -/
def vxor (a b : Quad) : Quad := ⟨a.q0 ^^^ b.q0, a.q1 ^^^ b.q1, a.q2 ^^^ b.q2, a.q3 ^^^ b.q3⟩

/-- `VROTL` (R133). -/
def vrotl (a : Quad) (n : Nat) : Quad := ⟨rotl32 a.q0 n, rotl32 a.q1 n, rotl32 a.q2 n, rotl32 a.q3 n⟩

/-- Lane `j` of a vector register. -/
def lane (a : Quad) (j : Nat) : Word :=
  match j with
  | 0 => a.q0
  | 1 => a.q1
  | 2 => a.q2
  | _ => a.q3

/-- `VSHUF(A, k)`: result lane j is `A.lane[(j + k) mod 4]` (R134). -/
def vshuf (a : Quad) (k : Nat) : Quad :=
  ⟨lane a ((0 + k) % 4), lane a ((1 + k) % 4), lane a ((2 + k) % 4), lane a ((3 + k) % 4)⟩

/-- `VQR` (R135). -/
def vquarter (v : Rows) : Rows :=
  let a := v.v0
  let b := v.v1
  let c := v.v2
  let d := v.v3
  let a := vadd a b
  let d := vrotl (vxor d a) 16
  let c := vadd c d
  let b := vrotl (vxor b c) 12
  let a := vadd a b
  let d := vrotl (vxor d a) 8
  let c := vadd c d
  let b := vrotl (vxor b c) 7
  { v0 := a, v1 := b, v2 := c, v3 := d }

/-- `DIAGONALISE` (R136). -/
def diagonalise (v : Rows) : Rows := { v with v1 := vshuf v.v1 1, v2 := vshuf v.v2 2, v3 := vshuf v.v3 3 }

/-- `UNDIAGONALISE` (R136). -/
def undiagonalise (v : Rows) : Rows := { v with v1 := vshuf v.v1 3, v2 := vshuf v.v2 2, v3 := vshuf v.v3 1 }

/-- `VDROUND` (R137). -/
def vdoubleRound (v : Rows) : Rows := undiagonalise (vquarter (diagonalise (vquarter v)))

/-- The feed-forward, a row at a time (R138). -/
def vfeedForward (v o : Rows) : Rows :=
  { v0 := vadd v.v0 o.v0, v1 := vadd v.v1 o.v1, v2 := vadd v.v2 o.v2, v3 := vadd v.v3 o.v3 }

/-- `STORE128` (R138). -/
def store128 (a : Quad) : List Byte := store32le a.q0 ++ store32le a.q1 ++ store32le a.q2 ++ store32le a.q3

/-- The rows after the vector permutation and feed-forward of `O` (R138). -/
def vectorBlock (s : Words16) : Rows :=
  vfeedForward (applyTimes vdoubleRound 10 (rowsOf s)) (rowsOf s)

/-- The four rows as 64 keystream bytes (R138). -/
def storeRows (v : Rows) : List Byte := store128 v.v0 ++ store128 v.v1 ++ store128 v.v2 ++ store128 v.v3

/-! ### The block function on either datapath -/

/-- `BLOCK` (R109) on the scalar datapath and `VBLOCK` (R138) on the vector datapath, into `X` and `KS`; `S` is
unchanged (R109). -/
def block (dp : Datapath) (u : ChaChaUnit) : ChaChaUnit :=
  match dp with
  | .scalar => { u with x := scalarBlock u.s, ks := byteVec 64 (serialize (scalarBlock u.s)) }
  | .vec128 => { u with x := wordsOf (vectorBlock u.s), ks := byteVec 64 (storeRows (vectorBlock u.s)) }

/-- The counter increment: `S[12] <- S[12] +_32 1`, no carry into the nonce words (R111). -/
def bumpCounter (u : ChaChaUnit) : ChaChaUnit := { u with s := u.s.set 12 (u.s.get 12 + 1#32) }

/-! ### The keystream engine -/

/-- The number of blocks a buffer of `len` bytes takes, `ceil(len/64)` (R112). -/
def blockCount (len : Nat) : Nat := (len + 63) / 64

/-- One pass of R110's loop body on the stretch of `n ≤ 64` bytes at `addr`. -/
def xorStretch (dp : Datapath) (addr n : Nat) (um : ChaChaUnit × Memory) : ChaChaUnit × Memory :=
  let u := block dp um.1
  let t := xorBytes (um.2.readBytes addr n) u.ks.toList
  (bumpCounter u, um.2.writeBytes addr t)

/-- R110's loop, `k` passes, each over the next `min(64, len)` bytes. -/
def xorStretches (dp : Datapath) : Nat → Nat → Nat → ChaChaUnit × Memory → ChaChaUnit × Memory
  | 0, _, _, um => um
  | k + 1, addr, len, um =>
    xorStretches dp k (addr + min 64 len) (len - min 64 len) (xorStretch dp addr (min 64 len) um)

/-- `XORSTREAM(S, [addr, len])` (R118): the loop of R110, without the zeroisation. With `len = 0` no block is
generated (R113). -/
def xorStream (dp : Datapath) (r : Range) (um : ChaChaUnit × Memory) : ChaChaUnit × Memory :=
  xorStretches dp (blockCount r.len) r.addr r.len um

/-- `XORSTREAM` on the machine, with the datapath its command uses (R241). -/
def xorStreamOn (r : Range) (s : State) : State :=
  let um := xorStream s.datapath r (s.ctx.cc, s.mem)
  (s.withCc um.1).withMem um.2

/-! ### The commands -/

/-- `CC.INIT key, counter, nonce` (R101). -/
def execCcInit (counter : Word) (key nonce : Ref) (s : State) : Host.Outcome State Fault Refusal :=
  perform (checksCcInit key nonce s) (fun s =>
    let k := s.mem.readRange (refRange key)
    let n := s.mem.readRange (refRange nonce)
    (s.withCc { s.ctx.cc with s := chachaState k counter n, live := true }).respond .ok 0#32) s

/-- `CC.XOR buf` (R110 to R113): the stream, then the unit is zeroised. -/
def execCcXor (buf : Ref) (s : State) : Host.Outcome State Fault Refusal :=
  perform (checksCcXor buf s) (fun s =>
    let s := xorStreamOn (refRange buf) s
    (s.withCc (wipeCc s.ctx.cc)).respond .ok 0#32) s

/-- `CC.CLEAR` (R114), accepted in every state. -/
def execCcClear (s : State) : Host.Outcome State Fault Refusal :=
  perform checksNone (fun s => (s.withCc (wipeCc s.ctx.cc)).respond .ok 0#32) s

end Sys2Proof.Machine
end

