-- ==== Sys2Proof/Machine/Poly.lean ====
section
/-! DEFINITION. The Poly1305 unit: the radix-2^26 field arithmetic (R151 to R165), the absorber and the finisher
(R186, R187), and the commands `P.INIT`, `P.UPDATE`, `P.FINISH`, `P.VERIFY`. The limb schedule is the spec's
(D15); the register widths are those of R27 and R29. -/

namespace Sys2Proof.Machine

/-- `M = 0x3ffffff`, a full limb (R161). -/
def limbMask : Word := 0x3ffffff#32

/-! ### Key set-up -/

/-- `CLAMP_LOAD_R(k[0..15])` in its limb form (R152). -/
def clampLoadR (k : List Byte) : Limbs :=
  { l0 := load32le k 0 &&& 0x3ffffff#32
    l1 := (load32le k 3 >>> 2) &&& 0x3ffff03#32
    l2 := (load32le k 6 >>> 4) &&& 0x3ffc0ff#32
    l3 := (load32le k 9 >>> 6) &&& 0x3f03fff#32
    l4 := (load32le k 12 >>> 8) &&& 0x00fffff#32 }

/-- `s[i] = 5·r[i]`, i = 1..4 (R153). -/
def multiples (r : Limbs) : Multiples :=
  { s1 := 5#32 * r.l1, s2 := 5#32 * r.l2, s3 := 5#32 * r.l3, s4 := 5#32 * r.l4 }

/-- `LOAD_PAD`: `pad[j] = LOAD32LE(k, 16 + 4j)` (R154). -/
def loadPad (k : List Byte) : Quad :=
  { q0 := load32le k 16, q1 := load32le k 20, q2 := load32le k 24, q3 := load32le k 28 }

/-- The Poly1305 registers initialised from a 32-byte key; `P_LIVE` is set by `P.INIT` and not by `TAGGEN`
(R180, R207). -/
def polyKey (k : List Byte) (live : Bool) (p : PolyUnit) : PolyUnit :=
  { p with r := clampLoadR k, s := multiples (clampLoadR k), pad := loadPad k, h := .zero, buf := zeroBytes 16,
           leftover := 0, final := false, live := live }

/-! ### Absorbing one block -/

/-- `UNPACK(m[0..15], hibit)` in its load form (R155). -/
def unpack (m : List Byte) (hibit : Bool) : Limbs :=
  { l0 := load32le m 0 &&& limbMask
    l1 := (load32le m 3 >>> 2) &&& limbMask
    l2 := (load32le m 6 >>> 4) &&& limbMask
    l3 := (load32le m 9 >>> 6) &&& limbMask
    l4 := (load32le m 12 >>> 8) ||| ((if hibit then 1#32 else 0#32) <<< 24) }

/-- `ADD`: five independent 32-bit additions (R156). -/
def limbAdd (h b : Limbs) : Limbs :=
  { l0 := h.l0 + b.l0, l1 := h.l1 + b.l1, l2 := h.l2 + b.l2, l3 := h.l3 + b.l3, l4 := h.l4 + b.l4 }

/-- A 32×32→64-bit product (R96, R157). -/
def wideMul (x y : Word) : DWord := x.setWidth 64 * y.setWidth 64

/-- `MUL`: the five 64-bit column sums (R157). -/
def limbMul (t r : Limbs) (s : Multiples) : Columns :=
  { d0 := wideMul t.l0 r.l0 + wideMul t.l1 s.s4 + wideMul t.l2 s.s3 + wideMul t.l3 s.s2 + wideMul t.l4 s.s1
    d1 := wideMul t.l0 r.l1 + wideMul t.l1 r.l0 + wideMul t.l2 s.s4 + wideMul t.l3 s.s3 + wideMul t.l4 s.s2
    d2 := wideMul t.l0 r.l2 + wideMul t.l1 r.l1 + wideMul t.l2 r.l0 + wideMul t.l3 s.s4 + wideMul t.l4 s.s3
    d3 := wideMul t.l0 r.l3 + wideMul t.l1 r.l2 + wideMul t.l2 r.l1 + wideMul t.l3 r.l0 + wideMul t.l4 s.s4
    d4 := wideMul t.l0 r.l4 + wideMul t.l1 r.l3 + wideMul t.l2 r.l2 + wideMul t.l3 r.l1 + wideMul t.l4 r.l0 }

/-- The carry cut from a column into a 32-bit register (R159 lines 3 to 7). -/
def columnCarry (d : DWord) : Word := (d >>> 26).setWidth 32

/-- The limb kept of a column (R159 lines 3 to 7). -/
def columnLimb (d : DWord) : Word := d.setWidth 32 &&& limbMask

/-- `CARRY`: lines 3 to 9 of R159, from the columns to the accumulator. -/
def limbCarry (d : Columns) : Limbs :=
  let c := columnCarry d.d0
  let h0 := columnLimb d.d0
  let d1 := d.d1 + c.setWidth 64
  let c := columnCarry d1
  let h1 := columnLimb d1
  let d2 := d.d2 + c.setWidth 64
  let c := columnCarry d2
  let h2 := columnLimb d2
  let d3 := d.d3 + c.setWidth 64
  let c := columnCarry d3
  let h3 := columnLimb d3
  let d4 := d.d4 + c.setWidth 64
  let c := columnCarry d4
  let h4 := columnLimb d4
  let h0 := h0 + c * 5#32
  let c := h0 >>> 26
  let h0 := h0 &&& limbMask
  let h1 := h1 + c
  { l0 := h0, l1 := h1, l2 := h2, l3 := h3, l4 := h4 }

/-- `PBLOCK(m)` (R159): `hibit = 1 − final`, the accumulator updated, the scratch cleared (line 10). -/
def pblock (m : List Byte) (p : PolyUnit) : PolyUnit :=
  let b := unpack m (!p.final)
  let t := limbAdd p.h b
  let d := limbMul t p.r p.s
  { p with h := limbCarry d, d := .zero, c := 0, t := .zero, b := .zero }

/-! ### Final reduction and tag -/

/-- `FULLCARRY` (R161). -/
def fullCarry (p : PolyUnit) : PolyUnit :=
  let c := p.h.l1 >>> 26
  let h1 := p.h.l1 &&& limbMask
  let h2 := p.h.l2 + c
  let c := h2 >>> 26
  let h2 := h2 &&& limbMask
  let h3 := p.h.l3 + c
  let c := h3 >>> 26
  let h3 := h3 &&& limbMask
  let h4 := p.h.l4 + c
  let c := h4 >>> 26
  let h4 := h4 &&& limbMask
  let h0 := p.h.l0 + c * 5#32
  let c := h0 >>> 26
  let h0 := h0 &&& limbMask
  let h1 := h1 + c
  { p with h := { l0 := h0, l1 := h1, l2 := h2, l3 := h3, l4 := h4 }, c := c }

/-- One limb chosen by the mask, without a branch (R162). -/
def maskSelect (mask h g : Word) : Word := (h &&& ~~~mask) ||| (g &&& mask)

/-- `CSUB` (R162): `g = h + 5 − 2^130` limb by limb, and the selection by `mask`. -/
def condSub (p : PolyUnit) : PolyUnit :=
  let h := p.h
  let g0 := h.l0 + 5#32
  let c := g0 >>> 26
  let g0 := g0 &&& limbMask
  let g1 := h.l1 + c
  let c := g1 >>> 26
  let g1 := g1 &&& limbMask
  let g2 := h.l2 + c
  let c := g2 >>> 26
  let g2 := g2 &&& limbMask
  let g3 := h.l3 + c
  let c := g3 >>> 26
  let g3 := g3 &&& limbMask
  let g4 := (h.l4 + c) - 0x4000000#32
  let mask := (g4 >>> 31) - 1#32
  { p with
    h := { l0 := maskSelect mask h.l0 g0, l1 := maskSelect mask h.l1 g1, l2 := maskSelect mask h.l2 g2,
           l3 := maskSelect mask h.l3 g3, l4 := maskSelect mask h.l4 g4 }
    g := { l0 := g0, l1 := g1, l2 := g2, l3 := g3, l4 := g4 }
    mask := mask, c := c }

/-- `PACK128` (R163): the lower 128 bits as four words, each truncated to 32 bits. -/
def pack128 (h : Limbs) : Quad :=
  { q0 := h.l0 ||| (h.l1 <<< 26)
    q1 := (h.l1 >>> 6) ||| (h.l2 <<< 20)
    q2 := (h.l2 >>> 12) ||| (h.l3 <<< 14)
    q3 := (h.l3 >>> 18) ||| (h.l4 <<< 8) }

/-- `ADDPAD` (R164): `w + pad` through the 64-bit accumulator `f`; the last carry is dropped. -/
def addPad (p : PolyUnit) : PolyUnit :=
  let f := p.w.q0.setWidth 64 + p.pad.q0.setWidth 64
  let w0 := f.setWidth 32
  let f := p.w.q1.setWidth 64 + p.pad.q1.setWidth 64 + (f >>> 32)
  let w1 := f.setWidth 32
  let f := p.w.q2.setWidth 64 + p.pad.q2.setWidth 64 + (f >>> 32)
  let w2 := f.setWidth 32
  let f := p.w.q3.setWidth 64 + p.pad.q3.setWidth 64 + (f >>> 32)
  let w3 := f.setWidth 32
  { p with w := { q0 := w0, q1 := w1, q2 := w2, q3 := w3 }, f := f }

/-- `TAGOUT` (R165). -/
def tagOut (w : Quad) : List Byte := store32le w.q0 ++ store32le w.q1 ++ store32le w.q2 ++ store32le w.q3

/-! ### Absorber and finisher -/

/-- `buf[at .. at+len(bs)−1] <- bs`. -/
def bufWrite (buf : Vector Byte 16) (pos : Nat) (bs : List Byte) : Vector Byte 16 :=
  Vector.ofFn fun i => if pos ≤ i.val ∧ i.val < pos + bs.length then bs.getD (i.val - pos) 0#8 else buf[i]

/-- The loop of R186, `k` whole blocks straight from the input. -/
def absorbBlocks : Nat → List Byte → PolyUnit → PolyUnit
  | 0, _, p => p
  | k + 1, m, p => absorbBlocks k (m.drop 16) (pblock (m.take 16) p)

/-- R186 from its `while` on, with `leftover = 0`: whole blocks, then the tail kept in `buf`. -/
def absorbAligned (m : List Byte) (p : PolyUnit) : PolyUnit :=
  let p := absorbBlocks (m.length / 16) m p
  let tail := m.drop (16 * (m.length / 16))
  if tail.length = 0 then p else { p with buf := bufWrite p.buf 0 tail, leftover := BitVec.ofNat 5 tail.length }

/-- `ABSORB(m)` (R186). `leftover` is 16 while a completed buffer is absorbed; a count above 16, which no run
reaches, is taken as a full buffer (log 5). -/
def absorb (m : List Byte) (p : PolyUnit) : PolyUnit :=
  if p.leftover.toNat = 0 then absorbAligned m p
  else
    let want := min (16 - p.leftover.toNat) m.length
    let q := { p with buf := bufWrite p.buf p.leftover.toNat (m.take want),
                      leftover := p.leftover + BitVec.ofNat 5 want }
    if q.leftover.toNat < 16 then q
    else absorbAligned (m.drop want) { pblock q.buf.toList q with leftover := 0 }

/-- The partial block padded and absorbed with hibit 0, where there is one (R187). -/
def padLast (p : PolyUnit) : PolyUnit :=
  if p.leftover.toNat = 0 then p
  else
    let buf := bufWrite p.buf p.leftover.toNat (0x01#8 :: List.replicate (15 - p.leftover.toNat) 0x00#8)
    pblock buf.toList { p with buf := buf, final := true }

/-- `TAGFIN` up to its packed result in `w` (R187). -/
def tagFin (p : PolyUnit) : PolyUnit :=
  let p := condSub (fullCarry (padLast p))
  addPad { p with w := pack128 p.h }

/-- The 16 bytes `TAGFIN` returns (R165, R187). -/
def tagBytesOf (p : PolyUnit) : List Byte := tagOut (tagFin p).w

/-! ### The commands -/

/-- `P.INIT key` (R180). -/
def execPInit (key : Ref) (s : State) : Host.Outcome State Fault Refusal :=
  perform (checksPInit key s) (fun s =>
    (s.withPoly (polyKey (s.mem.readRange (refRange key)) true s.ctx.poly)).respond .ok 0#32) s

/-- `P.UPDATE data` (R181). -/
def execPUpdate (data : Ref) (s : State) : Host.Outcome State Fault Refusal :=
  perform (checksPUpdate data s) (fun s =>
    (s.withPoly (absorb (s.mem.readRange (refRange data)) s.ctx.poly)).respond .ok 0#32) s

/-- `P.FINISH tag` (R183). -/
def execPFinish (tag : Ref) (s : State) : Host.Outcome State Fault Refusal :=
  perform (checksPFinish tag s) (fun s =>
    let p := tagFin s.ctx.poly
    let s := s.withMem (s.mem.writeBytes tag.addr.toNat (tagOut p.w))
    (s.withPoly (wipePoly p)).respond .ok 0#32) s

/-- `P.VERIFY tagA, tagB` (R185): `VALUE` is 1 for equal tags and 0 otherwise, `STATUS` is `OK` in both cases. -/
def execPVerify (tagA tagB : Ref) (s : State) : Host.Outcome State Fault Refusal :=
  perform (checksPVerify tagA tagB s) (fun s =>
    s.respond .ok (cteq16 (s.mem.readRange (refRange tagA)) (s.mem.readRange (refRange tagB)))) s

end Sys2Proof.Machine
end

