-- ==== Sys2Proof/Machine/Aead.lean ====
section
/-! DEFINITION. The key register and the AEAD orchestrator: `OTKGEN` (R203), the framing (R204 to R207), and the
commands `KEY.LOAD`, `KEY.DISPOSE`, `AE.ENC`, `AE.ENCC`, `AE.DEC`, `AE.DECC` (R201, R202, R208 to R211). -/

namespace Sys2Proof.Machine

/-! ### The key register -/

/-- `KEY.LOAD key` (R201). -/
def execKeyLoad (key : Ref) (s : State) : Host.Outcome State Fault Refusal :=
  perform (checksKeyLoad key s) (fun s =>
    (s.withKey (byteVec 32 (s.mem.readRange (refRange key))) true).respond .ok 0#32) s

/-- `KEY.DISPOSE` (R202), accepted in every state. -/
def execKeyDispose (s : State) : Host.Outcome State Fault Refusal :=
  perform checksNone (fun s => (s.withKey (zeroBytes 32) false).respond .ok 0#32) s

/-! ### Internal functions -/

/-- `OTKGEN(nonce)` (R203): `OTK` from block 0, `KS` and `X` cleared, and `S` left with counter 1. -/
def otkGen (nonce : List Byte) (s : State) : State :=
  let u := block s.datapath { s.ctx.cc with s := chachaState s.key.toList 0#32 nonce }
  let s := s.withAe { s.ctx.ae with otk := byteVec 32 (u.ks.toList.take 32) }
  s.withCc { u with s := u.s.set 12 1#32, x := .zero, ks := zeroBytes 64 }

/-- `PAD16(n) = (16 − n mod 16) mod 16` (R204). -/
def pad16 (n : Nat) : Nat := (16 - n % 16) % 16

/-- `LENBLK(a, c) = STORE64LE(a) || STORE64LE(c)` (R206). -/
def lenBlk (a c : Nat) : List Byte := store64le (BitVec.ofNat 64 a) ++ store64le (BitVec.ofNat 64 c)

/-- The five `ABSORB` calls of R207, in order. -/
def absorbFraming (aad ct lenblk : List Byte) (p : PolyUnit) : PolyUnit :=
  let p := absorb aad p
  let p := absorb (List.replicate (pad16 aad.length) 0#8) p
  let p := absorb ct p
  let p := absorb (List.replicate (pad16 ct.length) 0#8) p
  absorb lenblk p

/-- `TAGGEN(aad, ct)` (R207): the Poly1305 registers keyed from `OTK`, the framing absorbed, `CTAG` computed. -/
def tagGen (aad ct : Range) (s : State) : State :=
  let s := s.withAe { s.ctx.ae with lenblk := byteVec 16 (lenBlk aad.len ct.len) }
  let p := polyKey s.ctx.ae.otk.toList false s.ctx.poly
  let p := absorbFraming (s.mem.readRange aad) (s.mem.readRange ct) s.ctx.ae.lenblk.toList p
  let p := tagFin p
  (s.withPoly p).withAe { s.ctx.ae with ctag := byteVec 16 (tagOut p.w) }

/-! ### Encryption (R208) -/

/-- Step 2 of R208: the plaintext copied into the ciphertext range, then the keystream from counter 1. -/
def copyAndStream (src dst : Range) (s : State) : State :=
  xorStreamOn dst (s.withMem (s.mem.writeBytes dst.addr (s.mem.readRange src)))

/-- The work of an accepted encryption (R208): derive, encrypt, authenticate, write the tag, wipe. -/
def encrypt (nonce pt aad ct tag : Range) (s : State) : State :=
  let s := s.withPhase .derive
  let s := otkGen (s.mem.readRange nonce) s
  let s := s.withPhase .encrypt
  let s := copyAndStream pt ct s
  let s := s.withPhase .mac
  let s := tagGen aad ct s
  let s := s.withMem (s.mem.writeBytes tag.addr s.ctx.ae.ctag.toList)
  let s := s.withPhase .wipe
  let s := wipeAe s
  let s := s.withPhase .idle
  s.respond .ok 0#32

/-- `AE.ENC nonce, pt, aad, ct, tag` (R208). -/
def execAeEnc (nonce pt aad ct tag : Ref) (s : State) : Host.Outcome State Fault Refusal :=
  perform (checksAeEnc nonce pt aad ct tag s)
    (encrypt (refRange nonce) (refRange pt) (refRange aad) (refRange ct) (refRange tag)) s

/-- `AE.ENCC nonce, pt, aad, out` (R209): R208 with `ct` and `tag` the two parts of `out`. -/
def execAeEncc (nonce pt aad out : Ref) (s : State) : Host.Outcome State Fault Refusal :=
  perform (checksAeEncc nonce pt aad out s)
    (encrypt (refRange nonce) (refRange pt) (refRange aad) (combinedData out) (combinedTag out)) s

/-! ### Decryption (R210) -/

/-- Steps 1 to 3 of R210: the one-time key, the expected tag over the received ciphertext, in `CTAG`. -/
def expectTag (nonce ct aad : Range) (s : State) : State :=
  let s := s.withPhase .derive
  let s := otkGen (s.mem.readRange nonce) s
  let s := s.withPhase .mac
  tagGen aad ct s

/-- The work of an accepted decryption (R210): the plaintext is written only if the tags are equal, and the wipe
runs on both paths (R212, R213). -/
def decrypt (nonce ct tag aad pt : Range) (s : State) : State :=
  let s := expectTag nonce ct aad s
  let s := s.withPhase .compare
  let eq := cteq16 s.ctx.ae.ctag.toList (s.mem.readRange tag)
  let s := if eq = 1#32 then copyAndStream ct pt (s.withPhase .decrypt) else s
  let s := s.withPhase .wipe
  let s := wipeAe s
  let s := s.withPhase .idle
  s.respond (if eq = 1#32 then .ok else .authenticationFailure) 0#32

/-- `AE.DEC nonce, ct, tag, aad, pt` (R210). -/
def execAeDec (nonce ct tag aad pt : Ref) (s : State) : Host.Outcome State Fault Refusal :=
  perform (checksAeDec nonce ct tag aad pt s)
    (decrypt (refRange nonce) (refRange ct) (refRange tag) (refRange aad) (refRange pt)) s

/-- `AE.DECC nonce, in, aad, pt` (R211): R210 with `ct` and `tag` the two parts of `in`. -/
def execAeDecc (nonce inp aad pt : Ref) (s : State) : Host.Outcome State Fault Refusal :=
  perform (checksAeDecc nonce inp aad pt s)
    (decrypt (refRange nonce) (combinedData inp) (combinedTag inp) (refRange aad) (refRange pt)) s

end Sys2Proof.Machine
end

