-- ==== Sys2Proof/Machine/Capability.lean ====
section
/-! DEFINITION. The capability dispatch's commands, `CAP.FORCE` (R242) and `CAP.RD` (R243). -/

namespace Sys2Proof.Machine

/-- `CAP.FORCE f` (R242), accepted in every state. -/
def execCapForce (f : Bool) (s : State) : Host.Outcome State Fault Refusal :=
  perform checksNone (fun s => (s.withCap (forceScalar f s.cap)).respond .ok 0#32) s

/-- `CAP.RD` (R243), accepted in every state: `VALUE <- CAPSTAT`. -/
def execCapRd (s : State) : Host.Outcome State Fault Refusal :=
  perform checksNone (fun s => s.respond .ok (capstat s)) s

end Sys2Proof.Machine
end

