-- ==== Sys2Proof/Machine/Dispatch.lean ====
section
/-! DEFINITION. The meaning of every command: one arm per constructor. -/

namespace Sys2Proof.Machine

def exec (i : Instr) (s : State) : Host.Outcome State Fault Refusal :=
  match i with
  | .keyLoad key => Sys2Proof.Machine.execKeyLoad key s
  | .keyDispose => Sys2Proof.Machine.execKeyDispose s
  | .ccInit counter key nonce => Sys2Proof.Machine.execCcInit counter key nonce s
  | .ccXor buf => Sys2Proof.Machine.execCcXor buf s
  | .ccClear => Sys2Proof.Machine.execCcClear s
  | .pInit key => Sys2Proof.Machine.execPInit key s
  | .pUpdate data => Sys2Proof.Machine.execPUpdate data s
  | .pFinish tag => Sys2Proof.Machine.execPFinish tag s
  | .pVerify tagA tagB => Sys2Proof.Machine.execPVerify tagA tagB s
  | .aeEnc nonce pt aad ct tag => Sys2Proof.Machine.execAeEnc nonce pt aad ct tag s
  | .aeEncc nonce pt aad out => Sys2Proof.Machine.execAeEncc nonce pt aad out s
  | .aeDec nonce ct tag aad pt => Sys2Proof.Machine.execAeDec nonce ct tag aad pt s
  | .aeDecc nonce inp aad pt => Sys2Proof.Machine.execAeDecc nonce inp aad pt s
  | .capForce f => Sys2Proof.Machine.execCapForce f s
  | .capRd => Sys2Proof.Machine.execCapRd s

end Sys2Proof.Machine
end

