-- ==== Sys2Proof/Machine/Run.lean ====
section
/-! DEFINITION. The command port and the host (R9, R36, R42, R63 to R68, R77, R78): taking the next command from
the stream, its completion and the advance of `ci`, an illegal command, the races between commands in progress in
several contexts, and the host's own accesses. -/

namespace Sys2Proof.Machine

/-- The next command of the active context's stream: `none` when the run has ended (`ci` at the stream's end, or an
illegal command before, R36, R78), else what the decoder reads at `ci`. -/
def fetch (s : State) : Option (Except Illegal Instr) :=
  let p := s.ctx.port
  if p.ended || decide (p.stream.length ≤ p.ci) then none
  else
    match decode (p.stream.drop p.ci) with
    | .ok (i, _) => some (.ok i)
    | .error why => some (.error why)

/-- `ci` past the completed command (R36, R77); the port is free again. -/
def advance (i : Instr) (s : State) : State :=
  s.withPort { s.ctx.port with ci := s.ctx.port.ci + i.length, busy := none }

/-- An illegal command: `complete(IllegalCommand, 0)`, `ci` not advanced, the run ended (R78, R256). -/
def illegalCommand (s : State) : State :=
  (s.raise .illegalCommand).withPort { s.ctx.port with ended := true }

/-- The command runs to completion and `ci` advances past it, whatever its status (R36, R260 e); a refusal ends the
run and is kept (R36). -/
def complete (i : Instr) (s : State) : Host.Outcome State Fault Refusal :=
  match exec i s with
  | .next t => .next (advance i t)
  | .fault f => .fault f
  | .refused r => .refused r

/-- The commands in progress in a list of contexts. -/
def inProgress (cs : List Context) : List Instr :=
  cs.filterMap fun c => c.port.busy.map InFlight.instr

/-- `KEY.DISPOSE` or `KEY.LOAD` presented while another context has an `AE.*` command in progress: refused whether
or not it would be accepted (R67, R284, U5). -/
def presentedKeyRace (i : Instr) (s : State) : Bool := writesKey i && (inProgress s.others).any isAead

/-- Why an accepted command may not begin beside the commands in progress in the other contexts (U4, U5). -/
def races (i : Instr) (s : State) : Option Refusal :=
  if (inProgress s.others).any (bufferRaces i) then some .bufferRace
  else if (inProgress s.others).any (keyRaces i) then some .keyRace
  else none

/-- What presenting the active context's next command does: `go i` is done with it once it is known to be accepted
and to race with no other; a command that fails acceptance is answered at once (R258, R260). -/
def presentThen (go : Instr → State → Host.Outcome State Fault Refusal) (s : State) :
    Host.Outcome State Fault Refusal :=
  match s.ctx.port.busy with
  | some _ => .fault .portBusy
  | none =>
    match fetch s with
    | none => .fault .runEnded
    | some (.error _) => .next (illegalCommand s)
    | some (.ok i) =>
      if presentedKeyRace i s then .refused .keyRace
      else
        match verdict (checks i s) with
        | .accept =>
          match races i s with
          | some r => .refused r
          | none => go i s
        | .error _ => complete i s
        | .refuse _ => complete i s

/-- The command is captured at acceptance, with the datapath it samples, and left in progress (R68, R241, R242). -/
def beginCommand (i : Instr) (s : State) : Host.Outcome State Fault Refusal :=
  .next (s.withPort { s.ctx.port with busy := some { instr := i, sel := s.cap.sel } })

/-- The active context's next command, presented and run to completion. -/
def serve (s : State) : Host.Outcome State Fault Refusal := presentThen complete s

/-- The active context's next command, presented and left in progress. -/
def presentCommand (s : State) : Host.Outcome State Fault Refusal := presentThen beginCommand s

/-- A command run with a datapath selection of its own: `CAP` itself stays what it is. -/
def underSelection (sel : Datapath) (go : State → Host.Outcome State Fault Refusal) (s : State) :
    Host.Outcome State Fault Refusal :=
  match go (s.withCap { s.cap with sel := sel }) with
  | .next t => .next (t.withCap s.cap)
  | .fault f => .fault f
  | .refused r => .refused r

/-- The active context's command in progress completes; a command that generates blocks keeps the selection it
sampled at acceptance, for all its blocks (R241, R242). DESIGN CHOICE (log 17): the checks of R258 are made again
here, so that of two `KEY.LOAD` in progress the later to complete ends with `SequenceError`. -/
def finishCommand (s : State) : Host.Outcome State Fault Refusal :=
  match s.ctx.port.busy with
  | none => .fault .nothingInProgress
  | some b =>
    if usesDatapath b.instr then underSelection b.sel (complete b.instr) s
    else complete b.instr s

/-- Context `k` made active, and then `go`. -/
def inContext (k : Nat) (go : State → Host.Outcome State Fault Refusal) (s : State) :
    Host.Outcome State Fault Refusal :=
  match s.select k with
  | none => .fault .noSuchContext
  | some t => go t

/-- The host writes buffer memory: not a buffer of a command in progress (R64, U6). -/
def hostWrite (addr : Nat) (bytes : List Byte) (s : State) : Host.Outcome State Fault Refusal :=
  if s.mem.size < addr + bytes.length then .fault .hostAddress
  else if (inProgress s.contexts).any fun i =>
      intersects [{ addr := addr, len := bytes.length }] (inputs i ++ outputs i) then .refused .hostRace
  else .next (s.withMem (s.mem.writeBytes addr bytes))

/-- The host reads buffer memory: not an output of a command in progress (R64, U6). No state changes. -/
def hostRead (addr len : Nat) (s : State) : Host.Outcome State Fault Refusal :=
  if s.mem.size < addr + len then .fault .hostAddress
  else if (inProgress s.contexts).any fun i => intersects [{ addr := addr, len := len }] (outputs i) then
    .refused .hostRace
  else .next s

/-- One move of the host. -/
def hostMove (m : HostMove) (s : State) : Host.Outcome State Fault Refusal :=
  match m with
  | .run k => inContext k serve s
  | .start k => inContext k presentCommand s
  | .finish k => inContext k finishCommand s
  | .write addr bytes => hostWrite addr bytes s
  | .read addr len => hostRead addr len s

/-- The host's next move; with none listed, the active context's next command, alone (log 8). -/
def nextMove (s : State) : Host.Outcome State Fault Refusal :=
  match s.moves with
  | [] => serve s
  | m :: ms => hostMove m (s.withMoves ms)

/-- The first words of a stream whose bits are `w`, as `decodeTableWord` lays them out. -/
def tableStream (nbits w : Nat) : List Word := wordsOfBytes (tableBytes nbits w)

/-- The machine about to take a given stream's first command: the host loads the stream on the active context's
idle port and lists no other move (log 9). -/
def loadStream (ws : List Word) (s : State) : State :=
  (s.withPort { Port.empty with stream := ws }).withMoves []

end Sys2Proof.Machine
end

