-- ==== Sys2Proof/Machine/Step.lean ====
section
/-! DEFINITION. One step of the machine: the host's next move, each command one indivisible transition (R9, R57). -/

namespace Sys2Proof.Machine

/-- One step: with no host move listed, the active context's next command is fetched at `ci`, decoded and run. -/
def step (s : State) : Host.Outcome State Fault Refusal := nextMove s

/-- The machine whose next step runs the command with bits `w` (bit 0 the least significant bit of its first word,
bits from `nbits` up 0): its words are what the host's stream holds. -/
def State.withFetchWord (s : State) (nbits w : Nat) : State := loadStream (tableStream nbits w) s

end Sys2Proof.Machine
end

