-- ==== Sys2Proof/Machine/Reference.lean ====
section
/-! DEFINITION. The functions the spec defines apart from the datapaths, for claims to compare the machine with: the
integer-level Poly1305 (R150), the keystream of a key, nonce and counter (R111, R116), the framing (R205), and the
ciphertext and tag of an encryption (R208). No meaning calls them. -/

namespace Sys2Proof.Machine

/-! ### Poly1305 over the integers (R150) -/

/-- `P = 2^130 − 5`. -/
def prime1305 : Nat := 2 ^ 130 - 5

/-- The value of five limbs, `Σ x[i]·2^(26i)` (R151). -/
def limbsVal (x : Limbs) : Nat :=
  x.l0.toNat + 2 ^ 26 * x.l1.toNat + 2 ^ 52 * x.l2.toNat + 2 ^ 78 * x.l3.toNat + 2 ^ 104 * x.l4.toNat

/-- The value of four 32-bit words, the first the lowest (R163). -/
def quadVal (x : Quad) : Nat := x.q0.toNat + 2 ^ 32 * x.q1.toNat + 2 ^ 64 * x.q2.toNat + 2 ^ 96 * x.q3.toNat

/-- The clamping of one key byte in its byte form (R152). -/
def clampByte (i : Nat) (b : Byte) : Byte :=
  if i = 3 ∨ i = 7 ∨ i = 11 ∨ i = 15 then b &&& 0x0f#8
  else if i = 4 ∨ i = 8 ∨ i = 12 then b &&& 0xfc#8
  else b

/-- `k'[0..15]`, the clamped key bytes (R152). -/
def clampedKey (k : List Byte) : List Byte := (List.range 16).map fun i => clampByte i (k.getD i 0#8)

/-- The number `r` of a key (R150 step 1). -/
def keyR (k : List Byte) : Nat := leNat (clampedKey k)

/-- The number `pad` of a key (R150 step 2). -/
def keyPad (k : List Byte) : Nat := leNat ((k.drop 16).take 16)

/-- The number `N_t` of a block: its bytes and the bit above them (R150 step 4). -/
def blockNumber (m : List Byte) : Nat := leNat m + 2 ^ (8 * m.length)

/-- R150 step 5 over the next `q` blocks, from the accumulator `h`. -/
def hashBlocks (r : Nat) : Nat → Nat → List Byte → Nat
  | 0, h, _ => h
  | q + 1, h, m => hashBlocks r q (((h + blockNumber (m.take 16)) * r) % prime1305) (m.drop 16)

/-- `h_q` of a message: R150 steps 3 to 5, with `q = ceil(L/16)`. -/
def hashMessage (r : Nat) (m : List Byte) : Nat := hashBlocks r ((m.length + 15) / 16) 0 m

/-- The lowest `n` bytes of a number, little-endian. -/
def natBytes (n v : Nat) : List Byte := (List.range n).map fun i => BitVec.ofNat 8 (v / 2 ^ (8 * i))

/-- The Poly1305 tag of a message under a 32-byte key, by R150 alone. -/
def polyTag (k m : List Byte) : List Byte :=
  natBytes 16 ((hashMessage (keyR k) m + keyPad k) % 2 ^ 128)

/-! ### The keystream (R109, R111, R116) -/

/-- The keystream block of a key, counter and nonce, by the scalar datapath, which is the definition (R18). -/
def keystreamBlock (key : List Byte) (counter : Word) (nonce : List Byte) : List Byte :=
  serialize (scalarBlock (chachaState key counter nonce))

/-- The first `len` keystream bytes from a counter on: block j has counter `(counter + j) mod 2^32` (R111). -/
def keystream (key : List Byte) (counter : Word) (nonce : List Byte) (len : Nat) : List Byte :=
  ((List.range (blockCount len)).flatMap fun j => keystreamBlock key (counter + BitVec.ofNat 32 j) nonce).take len

/-! ### The AEAD construction (R203, R205, R208) -/

/-- The one-time key: the first 32 keystream bytes of counter 0 (R203). -/
def oneTimeKey (key nonce : List Byte) : List Byte := (keystreamBlock key 0#32 nonce).take 32

/-- `MACDATA(aad, ct)` (R205). -/
def macData (aad ct : List Byte) : List Byte :=
  aad ++ List.replicate (pad16 aad.length) 0#8 ++ ct ++ List.replicate (pad16 ct.length) 0#8 ++
    lenBlk aad.length ct.length

/-- The data XORed with the keystream from counter 1: encryption and decryption alike (R115, R208, R210). -/
def aeadStream (key nonce data : List Byte) : List Byte := xorBytes data (keystream key 1#32 nonce data.length)

/-- The tag of associated data and a ciphertext (R207). -/
def aeadTag (key nonce aad ct : List Byte) : List Byte := polyTag (oneTimeKey key nonce) (macData aad ct)

end Sys2Proof.Machine
end

