-- ==== Sys2Proof/Machine/Timing.lean ====
section
/-! DEFINITION. The optional step count of R291 (D32): `1 + NB + NP`, a function of lengths, `leftover` and the
response status only. No rule depends on it and no hardware is claimed to meet it. -/

namespace Sys2Proof.Machine

/-- The `PBLOCK` evaluations of one `AE.*` command over `a` associated bytes and `n` data bytes (R291). -/
def aeadPolyBlocks (a n : Nat) : Nat := (a + pad16 a + n + pad16 n) / 16 + 1

/-- `NB`, the `BLOCK` evaluations of an accepted command that ends `OK` or, with `ok = false`, in
`AuthenticationFailure` (R291). -/
def blockEvals (ok : Bool) : Instr → Nat
  | .ccXor buf => blockCount buf.len.toNat
  | .aeEnc _ pt _ _ _ => 1 + blockCount pt.len.toNat
  | .aeEncc _ pt _ _ => 1 + blockCount pt.len.toNat
  | .aeDec _ _ _ _ pt => if ok then 1 + blockCount pt.len.toNat else 1
  | .aeDecc _ _ _ pt => if ok then 1 + blockCount pt.len.toNat else 1
  | .keyLoad _ | .keyDispose | .ccInit _ _ _ | .ccClear | .pInit _ | .pUpdate _ | .pFinish _ | .pVerify _ _
  | .capForce _ | .capRd => 0

/-- `NP`, the `PBLOCK` evaluations of an accepted command that finds `leftover` bytes buffered (R291). -/
def polyEvals (leftover : Nat) : Instr → Nat
  | .pUpdate data => (leftover + data.len.toNat) / 16
  | .pFinish _ => if leftover ≠ 0 then 1 else 0
  | .aeEnc _ pt aad _ _ => aeadPolyBlocks aad.len.toNat pt.len.toNat
  | .aeEncc _ pt aad _ => aeadPolyBlocks aad.len.toNat pt.len.toNat
  | .aeDec _ ct _ aad _ => aeadPolyBlocks aad.len.toNat ct.len.toNat
  | .aeDecc _ _ aad pt => aeadPolyBlocks aad.len.toNat pt.len.toNat
  | .keyLoad _ | .keyDispose | .ccInit _ _ _ | .ccXor _ | .ccClear | .pInit _ | .pVerify _ _
  | .capForce _ | .capRd => 0

/-- The steps of a command presented in `s` that ends with the given status: 1 where it fails acceptance, since it
then evaluates nothing (R259, R291). -/
def stepCount (i : Instr) (s : State) (st : Status) : Nat :=
  if verdict (checks i s) = .accept then
    1 + blockEvals (decide (st = .ok)) i + polyEvals s.ctx.poly.leftover.toNat i
  else 1

end Sys2Proof.Machine
end

