-- ==== Sys2Proof/Safety.lean ====
section
/-! DEFINITION. What claims are stated in: the acceptance rules R251 to R257 and R59 as propositions, one definition
per rule and none of them the machine's own checks; what a completed command owes (R40, R82); the invariants of a
machine between steps; and the premises a host owes (R283, R284, R288). -/

namespace Sys2Proof.Machine

/-! ### Acceptance, rule by rule -/

/-- R255: the liveness flags forbid the command. -/
def OutOfOrder (i : Instr) (s : State) : Prop :=
  match i with
  | .keyLoad _ => s.keyValid = true
  | .ccXor _ => s.ctx.cc.live = false
  | .pUpdate _ | .pFinish _ => s.ctx.poly.live = false
  | .aeEnc _ _ _ _ _ | .aeEncc _ _ _ _ | .aeDec _ _ _ _ _ | .aeDecc _ _ _ _ =>
    s.keyValid = false ∨ s.ctx.cc.live = true ∨ s.ctx.poly.live = true
  | .keyDispose | .ccInit _ _ _ | .ccClear | .pInit _ | .pVerify _ _ | .capForce _ | .capRd => False

/-- Every reference of a command but `aad` (R251). -/
def requiredRefs : Instr → List Ref
  | .keyLoad key => [key]
  | .ccInit _ key nonce => [key, nonce]
  | .ccXor buf => [buf]
  | .pInit key => [key]
  | .pUpdate data => [data]
  | .pFinish tag => [tag]
  | .pVerify tagA tagB => [tagA, tagB]
  | .aeEnc nonce pt _ ct tag => [nonce, pt, ct, tag]
  | .aeEncc nonce pt _ out => [nonce, pt, out]
  | .aeDec nonce ct tag _ pt => [nonce, ct, tag, pt]
  | .aeDecc nonce inp _ pt => [nonce, inp, pt]
  | .keyDispose | .ccClear | .capForce _ | .capRd => []

/-- The associated data of an `AE.*` command, its one optional reference (R214). -/
def aadRefs : Instr → List Ref
  | .aeEnc _ _ aad _ _ => [aad]
  | .aeEncc _ _ aad _ => [aad]
  | .aeDec _ _ _ aad _ => [aad]
  | .aeDecc _ _ aad _ => [aad]
  | .keyLoad _ | .keyDispose | .ccInit _ _ _ | .ccXor _ | .ccClear | .pInit _ | .pUpdate _ | .pFinish _
  | .pVerify _ _ | .capForce _ | .capRd => []

/-- R251: a required reference is null, or `aad` is null with a length. -/
def RefAbsent (i : Instr) : Prop :=
  (∃ r ∈ requiredRefs i, r.addr = 0#64) ∨ ∃ r ∈ aadRefs i, r.addr = 0#64 ∧ r.len ≠ 0#64

/-- R252: a key, nonce or tag buffer is not of its fixed size, or `in` has no room for a tag. -/
def WrongSize : Instr → Prop
  | .keyLoad key => key.len ≠ 32#64
  | .ccInit _ key nonce => key.len ≠ 32#64 ∨ nonce.len ≠ 12#64
  | .pInit key => key.len ≠ 32#64
  | .pFinish tag => tag.len ≠ 16#64
  | .pVerify tagA tagB => tagA.len ≠ 16#64 ∨ tagB.len ≠ 16#64
  | .aeEnc nonce _ _ _ tag => nonce.len ≠ 12#64 ∨ tag.len ≠ 16#64
  | .aeEncc nonce _ _ _ => nonce.len ≠ 12#64
  | .aeDec nonce _ tag _ _ => nonce.len ≠ 12#64 ∨ tag.len ≠ 16#64
  | .aeDecc nonce inp _ _ => nonce.len ≠ 12#64 ∨ inp.len.toNat < 16
  | .keyDispose | .ccXor _ | .ccClear | .pUpdate _ | .capForce _ | .capRd => False

/-- R253: plaintext and ciphertext differ in length. -/
def LengthsDiffer : Instr → Prop
  | .aeEnc _ pt _ ct _ => pt.len ≠ ct.len
  | .aeEncc _ pt _ out => out.len.toNat ≠ pt.len.toNat + 16
  | .aeDec _ ct _ _ pt => ct.len ≠ pt.len
  | .aeDecc _ inp _ pt => inp.len.toNat - 16 ≠ pt.len.toNat
  | .keyLoad _ | .keyDispose | .ccInit _ _ _ | .ccXor _ | .ccClear | .pInit _ | .pUpdate _ | .pFinish _
  | .pVerify _ _ | .capForce _ | .capRd => False

/-- R257: a present reference ends past the buffer memory. -/
def OutOfBounds (i : Instr) (s : State) : Prop :=
  ∃ r ∈ i.refs, r.addr ≠ 0#64 ∧ s.mem.size < r.addr.toNat + r.len.toNat

/-- An address is one of a range's. -/
def Range.Holds (r : Range) (a : Nat) : Prop := r.addr ≤ a ∧ a < r.addr + r.len

/-- Two ranges share a byte. -/
def Range.Meets (r q : Range) : Prop := ∃ a, r.Holds a ∧ q.Holds a

/-- The overlaps R59 does not allow an encryption. -/
def EncOverlap (nonce pt aad ct tag : Range) : Prop :=
  (ct.Meets pt ∧ ct ≠ pt) ∨ ct.Meets nonce ∨ ct.Meets aad ∨ ct.Meets tag ∨
    tag.Meets nonce ∨ tag.Meets pt ∨ tag.Meets aad

/-- The overlaps R59 does not allow a decryption. -/
def DecOverlap (nonce ct tag aad pt : Range) : Prop :=
  (pt.Meets ct ∧ pt ≠ ct) ∨ pt.Meets nonce ∨ pt.Meets tag ∨ pt.Meets aad

/-- R59: the buffers overlap in neither of the two allowed shapes. -/
def OverlapForbidden : Instr → Prop
  | .aeEnc nonce pt aad ct tag => EncOverlap (refRange nonce) (refRange pt) (refRange aad) (refRange ct) (refRange tag)
  | .aeEncc nonce pt aad out =>
    EncOverlap (refRange nonce) (refRange pt) (refRange aad) (combinedData out) (combinedTag out)
  | .aeDec nonce ct tag aad pt => DecOverlap (refRange nonce) (refRange ct) (refRange tag) (refRange aad) (refRange pt)
  | .aeDecc nonce inp aad pt =>
    DecOverlap (refRange nonce) (combinedData inp) (combinedTag inp) (refRange aad) (refRange pt)
  | .keyLoad _ | .keyDispose | .ccInit _ _ _ | .ccXor _ | .ccClear | .pInit _ | .pUpdate _ | .pFinish _
  | .pVerify _ _ | .capForce _ | .capRd => False

/-- The command passes every check of R258 after decode. -/
structure Acceptable (i : Instr) (s : State) : Prop where
  inOrder : ¬ OutOfOrder i s
  present : ¬ RefAbsent i
  sized : ¬ WrongSize i
  related : ¬ LengthsDiffer i
  inBounds : ¬ OutOfBounds i s
  apart : ¬ OverlapForbidden i

/-- The commands that can end in `AuthenticationFailure` (R254). -/
def IsDecryption : Instr → Prop
  | .aeDec _ _ _ _ _ | .aeDecc _ _ _ _ => True
  | .keyLoad _ | .keyDispose | .ccInit _ _ _ | .ccXor _ | .ccClear | .pInit _ | .pUpdate _ | .pFinish _
  | .pVerify _ _ | .aeEnc _ _ _ _ _ | .aeEncc _ _ _ _ | .capForce _ | .capRd => False

/-! ### What a legal command word is (R71, R76, R78) -/

/-- R78 on `word0`, by the fields of R71 and the table of R76. -/
def LegalWord0 (w : Word) : Prop :=
  ∃ op : Opcode, fieldOpc w = op.row.opc ∧ fieldNref w = op.row.nref ∧ fieldHasImm w = op.row.hasImm ∧
    (fieldOpc w ≠ 0x40#8 → fieldF w = false) ∧ fieldZero w = 0#18

/-- The sixteen `word0` values of R76, `CAP.FORCE` having two. -/
def legalWord0s : List Word :=
  [0x00000101#32, 0x00000002#32, 0x00001210#32, 0x00000111#32, 0x00000012#32, 0x00000120#32, 0x00000121#32,
   0x00000122#32, 0x00000223#32, 0x00000530#32, 0x00000431#32, 0x00000532#32, 0x00000433#32, 0x00000040#32,
   0x00002040#32, 0x00000041#32]

/-! ### What memory holds -/

/-- The word at an address, little-endian (R53, R90). -/
def memWord (m : Memory) (a : Nat) : Word := m.read (a + 3) ++ m.read (a + 2) ++ m.read (a + 1) ++ m.read a

/-- Keystream byte number `j` of a state: block `j / 64` has counter `S[12] + j/64` mod 2^32 (R110, R111). -/
def streamByte (x : Words16) (j : Nat) : Byte :=
  (serialize (scalarBlock (x.set 12 (x.get 12 + BitVec.ofNat 32 (j / 64))))).getD (j % 64) 0#8

/-- Two memories agree on every address outside some ranges. -/
def AgreeOutside (m m' : Memory) (rs : List Range) : Prop :=
  ∀ a, (∀ r ∈ rs, ¬ r.Holds a) → m'.read a = m.read a

/-! ### What an accepted `AE.*` command leaves -/

/-- The machine after an accepted `AE.*` command: a memory and a status, the ephemeral registers of the context as
reset left them (R40, R213), and nothing else changed. -/
def aeadDone (m : Memory) (status : BitVec 8) (s : State) : State :=
  { s with
    mem := m
    ctx := { s.ctx with cc := .reset, poly := .reset, ae := .reset, status := status, value := 0#32 } }

/-- `m` is what an encryption leaves in memory: the ciphertext, the tag over it, and every other byte (R208). -/
structure Encrypted (nonce pt aad ct tag : Range) (s : State) (m : Memory) : Prop where
  sizeKept : m.size = s.mem.size
  dataWritten : m.readRange ct = aeadStream s.key.toList (s.mem.readRange nonce) (s.mem.readRange pt)
  tagWritten : m.readRange tag = aeadTag s.key.toList (s.mem.readRange nonce) (s.mem.readRange aad)
    (aeadStream s.key.toList (s.mem.readRange nonce) (s.mem.readRange pt))
  restKept : AgreeOutside s.mem m [ct, tag]

/-- The supplied tag is the tag of the received ciphertext and associated data (R210). -/
def Authentic (nonce ct tag aad : Range) (s : State) : Prop :=
  s.mem.readRange tag = aeadTag s.key.toList (s.mem.readRange nonce) (s.mem.readRange aad) (s.mem.readRange ct)

/-- `m` is what a successful decryption leaves in memory: the plaintext and every other byte (R210). -/
structure Decrypted (nonce ct pt : Range) (s : State) (m : Memory) : Prop where
  sizeKept : m.size = s.mem.size
  dataWritten : m.readRange pt = aeadStream s.key.toList (s.mem.readRange nonce) (s.mem.readRange ct)
  restKept : AgreeOutside s.mem m [pt]

/-- Two commands may not be in progress together: an output of one meets a buffer of the other (R65). -/
def BuffersRace (i j : Instr) : Prop :=
  (∃ a ∈ outputs i, ∃ b ∈ inputs j ++ outputs j, a.Meets b) ∨ ∃ a ∈ inputs i, ∃ b ∈ outputs j, a.Meets b

/-! ### Invariants of a machine between steps -/

/-- R40, first sentence: the scratch of every unit is zero and `PHASE = IDLE`. -/
structure ScratchZero (c : Context) : Prop where
  x : c.cc.x = .zero
  ks : c.cc.ks = zeroBytes 64
  d : c.poly.d = .zero
  g : c.poly.g = .zero
  carry : c.poly.c = 0#32
  f : c.poly.f = 0#64
  mask : c.poly.mask = 0#32
  b : c.poly.b = .zero
  t : c.poly.t = .zero
  w : c.poly.w = .zero
  otk : c.ae.otk = zeroBytes 32
  ctag : c.ae.ctag = zeroBytes 16
  lenblk : c.ae.lenblk = zeroBytes 16
  phase : c.ae.phase = .idle

/-- R20, R34: a unit that is not live holds nothing, and `final` is set only inside `P.FINISH`. -/
structure DeadUnitsZero (c : Context) : Prop where
  cc : c.cc.live = false → c.cc.s = .zero
  poly : c.poly.live = false → c.poly = .reset
  final : c.poly.final = false

/-- R21: no key, no key bytes. -/
def KeyWiped (s : State) : Prop := s.keyValid = false → s.key = zeroBytes 32

/-- R241: `CAP.SEL = CAP.HW_VEC128 & ~CAP.FORCE_SCALAR`. -/
def CapResolved (c : Cap) : Prop := selBit c.sel = (c.hwVec128 && !c.forceScalar)

/-- The accumulator's bounds between blocks (R160). -/
structure AccBounded (h : Limbs) : Prop where
  l0 : h.l0.toNat < 2 ^ 26
  l1 : h.l1.toNat < 2 ^ 26 + 64
  l2 : h.l2.toNat < 2 ^ 26
  l3 : h.l3.toNat < 2 ^ 26
  l4 : h.l4.toNat < 2 ^ 26

/-- Every limb below 2^26 (R151). -/
structure Canonical (h : Limbs) : Prop where
  l0 : h.l0.toNat < 2 ^ 26
  l1 : h.l1.toNat < 2 ^ 26
  l2 : h.l2.toNat < 2 ^ 26
  l3 : h.l3.toNat < 2 ^ 26
  l4 : h.l4.toNat < 2 ^ 26

/-- A multiplier as `CLAMP_LOAD_R` leaves it: `r[4] < 2^20`, every limb of 26 bits, `s[i] = 5·r[i]` (R152, R153). -/
structure MultiplierBounded (p : PolyUnit) : Prop where
  r : Canonical p.r
  top : p.r.l4.toNat < 2 ^ 20
  s1 : p.s.s1.toNat = 5 * p.r.l1.toNat
  s2 : p.s.s2.toNat = 5 * p.r.l2.toNat
  s3 : p.s.s3.toNat = 5 * p.r.l3.toNat
  s4 : p.s.s4.toNat = 5 * p.r.l4.toNat

/-- The Poly1305 unit between commands (R153, R160). -/
structure PolyBounded (p : PolyUnit) : Prop where
  acc : AccBounded p.h
  mul : MultiplierBounded p

/-- A response is one of R250's, and `VALUE` is 0 where it is an error (R82). -/
def ResponseLegal (c : Context) : Prop :=
  c.status.toNat ≤ 7 ∧ (c.status ≠ Status.ok.code → c.value = 0#32)

/-- Every context of the machine satisfies `p` (R42). -/
def EveryContext (p : Context → Prop) (s : State) : Prop := p s.ctx ∧ ∀ c ∈ s.others, p c

/-- R20, R21 and R40 as one invariant: no secret outlives its use. -/
def Zeroised (s : State) : Prop :=
  KeyWiped s ∧ EveryContext (fun c => ScratchZero c ∧ DeadUnitsZero c) s

/-- R160 in every context. -/
def LimbsBounded (s : State) : Prop := EveryContext (fun c => PolyBounded c.poly) s

/-- R27 in every context: fewer than 16 bytes wait between commands. -/
def LeftoverBounded (s : State) : Prop := EveryContext (fun c => c.poly.leftover.toNat < 16) s

/-- R241 and R82 as one invariant: the selection is resolved and every response is legal. -/
def Resolved (s : State) : Prop := CapResolved s.cap ∧ EveryContext ResponseLegal s

/-! ### Presenting a command -/

/-- The next step of `s` presents the next command of the active context of `u`: with no move listed, that of `s`
itself; by a `run` or a `start`, that of the context it names (log 8). -/
inductive Presents (s u : State) : Prop where
  | alone (hm : s.moves = []) (hu : u = s)
  | run (k : Nat) (ms : List HostMove) (hm : s.moves = .run k :: ms) (hu : (s.withMoves ms).select k = some u)
  | start (k : Nat) (ms : List HostMove) (hm : s.moves = .start k :: ms) (hu : (s.withMoves ms).select k = some u)

/-! ### Premises the host owes -/

/-- The nonce bytes of an encryption (R283). -/
def encryptionNonce (i : Instr) (m : Memory) : Option (List Byte) :=
  match i with
  | .aeEnc nonce _ _ _ _ => some (m.readRange (refRange nonce))
  | .aeEncc nonce _ _ _ => some (m.readRange (refRange nonce))
  | .keyLoad _ | .keyDispose | .ccInit _ _ _ | .ccXor _ | .ccClear | .pInit _ | .pUpdate _ | .pFinish _
  | .pVerify _ _ | .aeDec _ _ _ _ _ | .aeDecc _ _ _ _ | .capForce _ | .capRd => none

/-- `NonceFresh` over the accepted commands of one key's life, each with the machine it ran in: no two encryptions
carry equal nonce bytes (R283). -/
def NonceFresh (trace : List (Instr × State)) : Prop :=
  (trace.filterMap fun e => encryptionNonce e.1 e.2.mem).Nodup

/-- `NoCounterWrap` for data of `len` bytes from counter `c` (R111, R288). -/
def NoCounterWrap (c : Word) (len : Nat) : Prop := c.toNat + blockCount len ≤ 2 ^ 32

/-- `KeyStable` across a command: the key register does not change (R284). -/
def KeyStable (s t : State) : Prop := t.key = s.key ∧ t.keyValid = s.keyValid

end Sys2Proof.Machine
end

