-- ==== Sys2Proof/Certificates/Slice0/Obligations.lean ====
section
/-! DEFINITION. The statements for the provers. Each docstring names the rules of spec/ it formalises. -/

open Sys2Proof Sys2Proof.Machine

/-! ### Reset -/

/-- R41, R281: every register after reset, with any parameters and any buffer memory, which reset does not change;
`CAP` from the parameters, every context alike, `ci = 0`. -/
def Obligations.ResetValues : Prop :=
  ∀ (p : Params) (mem : Memory),
    (State.resetWith p mem).key = zeroBytes 32 ∧ (State.resetWith p mem).keyValid = false ∧
    (State.resetWith p mem).cap.hwVec128 = p.hwVec128 ∧
    (State.resetWith p mem).cap.forceScalar = p.forceScalarReset ∧
    selBit (State.resetWith p mem).cap.sel = (p.hwVec128 && !p.forceScalarReset) ∧
    (State.resetWith p mem).mem = mem ∧
    (State.resetWith p mem).others.length = p.nCtx - 1 ∧
    EveryContext (fun c =>
      c.cc.s = ⟨0, 0, 0, 0, 0, 0, 0, 0, 0, 0, 0, 0, 0, 0, 0, 0⟩ ∧
      c.cc.x = ⟨0, 0, 0, 0, 0, 0, 0, 0, 0, 0, 0, 0, 0, 0, 0, 0⟩ ∧
      c.cc.ks = Vector.replicate 64 0 ∧ c.cc.live = false ∧
      c.poly.r = ⟨0, 0, 0, 0, 0⟩ ∧ c.poly.s = ⟨0, 0, 0, 0⟩ ∧ c.poly.h = ⟨0, 0, 0, 0, 0⟩ ∧
      c.poly.pad = ⟨0, 0, 0, 0⟩ ∧ c.poly.buf = Vector.replicate 16 0 ∧ c.poly.leftover = 0 ∧
      c.poly.final = false ∧ c.poly.live = false ∧
      c.poly.d = ⟨0, 0, 0, 0, 0⟩ ∧ c.poly.g = ⟨0, 0, 0, 0, 0⟩ ∧ c.poly.c = 0 ∧ c.poly.f = 0 ∧ c.poly.mask = 0 ∧
      c.ae.otk = Vector.replicate 32 0 ∧ c.ae.ctag = Vector.replicate 16 0 ∧ c.ae.lenblk = Vector.replicate 16 0 ∧
      c.ae.phase = .idle ∧ c.status = 0 ∧ c.value = 0 ∧ c.port.ci = 0) (State.resetWith p mem)

/-- The invariants that every step keeps hold after reset, for all legal parameters and every canonical memory of
the parameter's size; in particular of `State.reset`. -/
def Obligations.ResetMeetsInvariants : Prop :=
  (∀ (p : Params) (mem : Memory), p.Legal → mem.wf = true → mem.size = p.memSize →
    Zeroised (State.resetWith p mem) ∧ LimbsBounded (State.resetWith p mem) ∧
      LeftoverBounded (State.resetWith p mem) ∧ Resolved (State.resetWith p mem) ∧
      (State.resetWith p mem).mem.wf = true) ∧
  Zeroised State.reset ∧ LimbsBounded State.reset ∧ LeftoverBounded State.reset ∧ Resolved State.reset ∧
    State.reset.mem.wf = true

/-! ### Encoding -/

/-- R70 to R77: words written out from the spec's encodings decode to the commands they stand for, one of each
family. -/
def Obligations.WordsDecodeAsWritten : Prop :=
  decode [0x00000101, 0x00001000, 0, 0x20, 0] = .ok (.keyLoad ⟨0x1000, 32⟩, []) ∧
  decode [0x00000002, 0x00000041] = .ok (.keyDispose, [0x00000041]) ∧
  decode [0x00001210, 1, 0x1000, 0, 0x20, 0, 0x1020, 0, 0xc, 0] = .ok (.ccInit 1 ⟨0x1000, 32⟩ ⟨0x1020, 12⟩, []) ∧
  decode [0x00000223, 0x3000, 0, 0x10, 0, 0x3010, 0, 0x10, 0] = .ok (.pVerify ⟨0x3000, 16⟩ ⟨0x3010, 16⟩, []) ∧
  decode [0x00000530, 0x1020, 0, 0xc, 0, 0x2000, 0, 0x72, 0, 0x1030, 0, 0xc, 0, 0x4000, 0, 0x72, 0, 0x4080, 0, 0x10, 0]
    = .ok (.aeEnc ⟨0x1020, 12⟩ ⟨0x2000, 114⟩ ⟨0x1030, 12⟩ ⟨0x4000, 114⟩ ⟨0x4080, 16⟩, []) ∧
  decode [0x00002040] = .ok (.capForce true, []) ∧
  decode [0x00000040] = .ok (.capForce false, []) ∧
  decode [0x00000111, 0x89abcdef, 0x01234567, 0x76543210, 0xfedcba98]
    = .ok (.ccXor ⟨0x0123456789abcdef, 0xfedcba9876543210⟩, [])

/-- R71, R76, R78, R79: a stream's first command is legal exactly when its `word0` is legal by its fields and the
stream holds all `1 + HASIMM + 4·NREF` words; the legal `word0` values are the sixteen of R76. -/
def Obligations.LegalCommandWords : Prop :=
  ∀ (w : Word) (ws : List Word),
    ((∃ r, decode (w :: ws) = .ok r) ↔ LegalWord0 w ∧ commandLength w ≤ (w :: ws).length) ∧
    (LegalWord0 w ↔ w ∈ legalWord0s)

/-- Decoding the words of a command, whatever follows them, gives the command back and leaves what follows: no
operand bit is dropped, at any value of any operand (R72, R73, R76, R77). -/
def Obligations.DecodeEncode : Prop :=
  ∀ (i : Instr) (rest : List Word), decode (encode i ++ rest) = .ok (i, rest)

/-- Every sequence of words that decodes is the encoding of what it decodes to: each command has one encoding, of
`1 + HASIMM + 4·NREF` words (R77, R79). -/
def Obligations.EncodeDecode : Prop :=
  ∀ (ws : List Word) (i : Instr) (rest : List Word), decode ws = .ok (i, rest) →
    ws = encode i ++ rest ∧ ∃ w ws', ws = w :: ws' ∧ ws.length = commandLength w + rest.length

/-! ### The step -/

/-- A step runs the decoded command: with the port idle, no other command in progress and no host move listed, the
step is `exec` of the command whose words stand at `ci`, after which `ci` has moved past them (R36, R77). -/
def Obligations.StepRunsDecodedCommand : Prop :=
  ∀ (s : State) (i : Instr) (rest : List Word),
    s.moves = [] → s.ctx.port.busy = none → s.ctx.port.ended = false → inProgress s.others = [] →
    decode (s.ctx.port.stream.drop s.ctx.port.ci) = .ok (i, rest) →
    s.ctx.port.stream.drop (s.ctx.port.ci + i.length) = rest ∧
    step s =
      match exec i s with
      | .next t =>
        .next { t with ctx := { t.ctx with port := { s.ctx.port with ci := s.ctx.port.ci + i.length } } }
      | .fault f => .fault f
      | .refused r => .refused r

/-- R78, R256: an illegal command at `ci` completes with `IllegalCommand` and `VALUE = 0`, changes nothing else, does
not advance `ci`, and ends the run: the next step finds no command. A run also ends where `ci` is at the stream's end
(R36). The fault `runEnded` as the end of a run, and the port's `ended`, are the model's choice (log 10). -/
def Obligations.IllegalCommandEndsRun : Prop :=
  ∀ s : State, s.moves = [] → s.ctx.port.busy = none →
    (∀ why, s.ctx.port.ended = false → s.ctx.port.ci < s.ctx.port.stream.length →
      decode (s.ctx.port.stream.drop s.ctx.port.ci) = .error why →
      ∃ t, step s = .next t ∧ step t = .fault .runEnded ∧
        t = { s with ctx := { s.ctx with
                status := 6#8, value := 0#32, port := { s.ctx.port with ended := true } } }) ∧
    (s.ctx.port.ci = s.ctx.port.stream.length → step s = .fault .runEnded)

/-! ### Acceptance -/

/-- R255: a command ends with `SequenceError` exactly when it is out of order, and then changes nothing but the
response. -/
def Obligations.OutOfOrderIsSequenceError : Prop :=
  ∀ (i : Instr) (s : State),
    (OutOfOrder i s → exec i s = .next { s with ctx := { s.ctx with status := 5#8, value := 0#32 } }) ∧
    ∀ t, exec i s = .next t → t.ctx.status = 5#8 → OutOfOrder i s

/-- R251: of a command in order, an absent reference is `InvalidArgument`, nothing but the response changes, and
nothing else ends so. -/
def Obligations.AbsentReferenceIsInvalidArgument : Prop :=
  ∀ (i : Instr) (s : State),
    (¬ OutOfOrder i s → RefAbsent i →
      exec i s = .next { s with ctx := { s.ctx with status := 1#8, value := 0#32 } }) ∧
    ∀ t, exec i s = .next t → t.ctx.status = 1#8 → ¬ OutOfOrder i s ∧ RefAbsent i

/-- R252: with every reference present, a wrong fixed size is `InvalidSize`, nothing but the response changes, and
nothing else ends so. -/
def Obligations.WrongSizeIsInvalidSize : Prop :=
  ∀ (i : Instr) (s : State),
    (¬ OutOfOrder i s → ¬ RefAbsent i → WrongSize i →
      exec i s = .next { s with ctx := { s.ctx with status := 2#8, value := 0#32 } }) ∧
    ∀ t, exec i s = .next t → t.ctx.status = 2#8 → ¬ OutOfOrder i s ∧ ¬ RefAbsent i ∧ WrongSize i

/-- R253: with R251 and R252 satisfied, data of unequal lengths is `LengthMismatch`, nothing but the response changes,
and nothing else ends so. -/
def Obligations.UnequalLengthsAreLengthMismatch : Prop :=
  ∀ (i : Instr) (s : State),
    (¬ OutOfOrder i s → ¬ RefAbsent i → ¬ WrongSize i → LengthsDiffer i →
      exec i s = .next { s with ctx := { s.ctx with status := 3#8, value := 0#32 } }) ∧
    ∀ t, exec i s = .next t → t.ctx.status = 3#8 →
      ¬ OutOfOrder i s ∧ ¬ RefAbsent i ∧ ¬ WrongSize i ∧ LengthsDiffer i

/-- R257: a present reference past the buffer memory, last of the error checks, is `AccessFault`, nothing but the
response changes, and nothing else ends so. -/
def Obligations.OutOfBoundsIsAccessFault : Prop :=
  ∀ (i : Instr) (s : State),
    (¬ OutOfOrder i s → ¬ RefAbsent i → ¬ WrongSize i → ¬ LengthsDiffer i → OutOfBounds i s →
      exec i s = .next { s with ctx := { s.ctx with status := 7#8, value := 0#32 } }) ∧
    ∀ t, exec i s = .next t → t.ctx.status = 7#8 →
      ¬ OutOfOrder i s ∧ ¬ RefAbsent i ∧ ¬ WrongSize i ∧ ¬ LengthsDiffer i ∧ OutOfBounds i s

/-- R10, R59, R258: a command is refused exactly when it passes every error check and its buffers overlap in neither
allowed shape; no command faults. For `AE.ENCC` and `AE.DECC` the data and the tag part of the combined buffer (R209,
R211) are judged as ranges of their own, which is the model's reading (log 15). -/
def Obligations.RefusedExactlyOnOverlap : Prop :=
  ∀ (i : Instr) (s : State),
    (∀ r, exec i s = .refused r ↔
      (r = .overlap ∧ ¬ OutOfOrder i s ∧ ¬ RefAbsent i ∧ ¬ WrongSize i ∧ ¬ LengthsDiffer i ∧
        ¬ OutOfBounds i s ∧ OverlapForbidden i)) ∧
    ∀ f, exec i s ≠ .fault f

/-- R258: every command that passes all the checks completes, and its only later error status is
`AuthenticationFailure`, of a decryption. -/
def Obligations.AcceptableCommandsComplete : Prop :=
  ∀ (i : Instr) (s : State), Acceptable i s →
    ∃ t, exec i s = .next t ∧ (t.ctx.status = 0#8 ∨ (t.ctx.status = 4#8 ∧ IsDecryption i))

/-! ### The key register -/

/-- R201: `KEY` takes the 32 bytes of the buffer, `KEY_VALID` is set, the response is `OK`, and nothing else changes. -/
def Obligations.KeyLoadResult : Prop :=
  ∀ (key : Ref) (s : State), Acceptable (.keyLoad key) s →
    ∃ k : Vector Byte 32,
      exec (.keyLoad key) s =
        .next { s with key := k, keyValid := true, ctx := { s.ctx with status := 0#8, value := 0#32 } } ∧
      ∀ j : Fin 32, k[j] = s.mem.read (key.addr.toNat + j.val)

/-- R202: in every state `KEY` is zero and `KEY_VALID` 0 after it, the response is `OK`, and nothing else changes. -/
def Obligations.KeyDisposeResult : Prop :=
  ∀ s : State,
    exec .keyDispose s =
      .next { s with key := Vector.replicate 32 0, keyValid := false,
                     ctx := { s.ctx with status := 0#8, value := 0#32 } }

/-! ### ChaCha20 -/

/-- R101: the sixteen words of `S` from the constants, the key bytes, the counter and the nonce bytes; `CC_LIVE` set;
nothing else changes. -/
def Obligations.CcInitResult : Prop :=
  ∀ (counter : Word) (key nonce : Ref) (s : State), Acceptable (.ccInit counter key nonce) s →
    ∃ x : Words16,
      exec (.ccInit counter key nonce) s =
        .next { s with ctx := { s.ctx with
                  cc := { s.ctx.cc with s := x, live := true }, status := 0#8, value := 0#32 } } ∧
      x.get 0 = Config.c0 ∧ x.get 1 = Config.c1 ∧ x.get 2 = Config.c2 ∧ x.get 3 = Config.c3 ∧
      (∀ j : Fin 8, x.get ⟨4 + j.val, by omega⟩ = memWord s.mem (key.addr.toNat + 4 * j.val)) ∧
      x.get 12 = counter ∧
      ∀ j : Fin 3, x.get ⟨13 + j.val, by omega⟩ = memWord s.mem (nonce.addr.toNat + 4 * j.val)

/-- R110 to R113, on either datapath: byte `j` of the buffer is XORed with keystream byte `j`, block `j/64` having
counter `S[12] + j/64` mod 2^32; no other byte changes, an empty buffer changes none; the ChaCha20 unit is zeroised;
nothing else changes. -/
def Obligations.CcXorResult : Prop :=
  ∀ (buf : Ref) (s : State), s.mem.wf = true → Acceptable (.ccXor buf) s →
    ∃ m : Memory,
      exec (.ccXor buf) s =
        .next { s with mem := m, ctx := { s.ctx with cc := .reset, status := 0#8, value := 0#32 } } ∧
      m.size = s.mem.size ∧
      (∀ j, j < buf.len.toNat →
        m.read (buf.addr.toNat + j) = s.mem.read (buf.addr.toNat + j) ^^^ streamByte s.ctx.cc.s j) ∧
      AgreeOutside s.mem m [refRange buf] ∧ (buf.len = 0#64 → m = s.mem)

/-- R114: in every state the ChaCha20 unit is as reset left it, the response is `OK`, and nothing else changes. -/
def Obligations.CcClearResult : Prop :=
  ∀ s : State,
    exec .ccClear s = .next { s with ctx := { s.ctx with cc := .reset, status := 0#8, value := 0#32 } }

/-- R102: `QR` on four distinct indices carries out the twelve steps in order and touches no other word. -/
def Obligations.QuarterRoundSteps : Prop :=
  ∀ (a b c d : Fin 16) (x : Words16), a ≠ b → a ≠ c → a ≠ d → b ≠ c → b ≠ d → c ≠ d →
    ∃ a1 b1 c1 d1 a2 b2 c2 d2 : Word,
      a1 = x.get a + x.get b ∧ d1 = (x.get d ^^^ a1).rotateLeft 16 ∧
      c1 = x.get c + d1 ∧ b1 = (x.get b ^^^ c1).rotateLeft 12 ∧
      a2 = a1 + b1 ∧ d2 = (d1 ^^^ a2).rotateLeft 8 ∧
      c2 = c1 + d2 ∧ b2 = (b1 ^^^ c2).rotateLeft 7 ∧
      (quarterRound a b c d x).get a = a2 ∧ (quarterRound a b c d x).get b = b2 ∧
      (quarterRound a b c d x).get c = c2 ∧ (quarterRound a b c d x).get d = d2 ∧
      ∀ k, k ≠ a → k ≠ b → k ≠ c → k ≠ d → (quarterRound a b c d x).get k = x.get k

/-- `PERMUTE` is a bijection on the sixteen words and fixes the all-zero file (the spec's own inference in R106). -/
def Obligations.PermuteBijective : Prop :=
  Function.Bijective permute ∧ permute .zero = .zero

/-- `VDROUND` on the rows equals `DROUND` on the words they alias (the spec's own inference in R137). -/
def Obligations.VectorDoubleRound : Prop :=
  ∀ x : Words16, wordsOf (vdoubleRound (rowsOf x)) = doubleRound x

/-- R140: for every `S`, `VBLOCK` and `BLOCK` leave the same `X`, the same 64 keystream bytes and the same `S`. -/
def Obligations.BlockEquivalence : Prop :=
  ∀ u : ChaChaUnit, block .vec128 u = block .scalar u

/-- XOR symmetry (the spec's own inference in R115): set-up and `CC.XOR` twice over with one key, counter and nonce,
whose buffers the stream does not meet, restores all of memory. -/
def Obligations.XorSymmetry : Prop :=
  ∀ (counter : Word) (key nonce buf : Ref) (s s1 s2 s3 s4 : State), s.mem.wf = true →
    Acceptable (.ccInit counter key nonce) s → Acceptable (.ccXor buf) s1 →
    ¬ (refRange buf).Meets (refRange key) → ¬ (refRange buf).Meets (refRange nonce) →
    exec (.ccInit counter key nonce) s = .next s1 → exec (.ccXor buf) s1 = .next s2 →
    exec (.ccInit counter key nonce) s2 = .next s3 → exec (.ccXor buf) s3 = .next s4 →
    s4.mem = s.mem

/-! ### Poly1305 -/

/-- R180: `r`, `s` and `pad` from the key bytes, `h`, `buf`, `leftover` and `final` cleared, `P_LIVE` set; nothing else
changes. -/
def Obligations.PInitResult : Prop :=
  ∀ (key : Ref) (s : State), Acceptable (.pInit key) s →
    exec (.pInit key) s =
      .next { s with ctx := { s.ctx with
                poly := { s.ctx.poly with
                  r := clampLoadR (s.mem.readBytes key.addr.toNat 32)
                  s := ⟨5#32 * (clampLoadR (s.mem.readBytes key.addr.toNat 32)).l1,
                        5#32 * (clampLoadR (s.mem.readBytes key.addr.toNat 32)).l2,
                        5#32 * (clampLoadR (s.mem.readBytes key.addr.toNat 32)).l3,
                        5#32 * (clampLoadR (s.mem.readBytes key.addr.toNat 32)).l4⟩
                  pad := ⟨memWord s.mem (key.addr.toNat + 16), memWord s.mem (key.addr.toNat + 20),
                          memWord s.mem (key.addr.toNat + 24), memWord s.mem (key.addr.toNat + 28)⟩
                  h := ⟨0, 0, 0, 0, 0⟩, buf := Vector.replicate 16 0, leftover := 0, final := false, live := true }
                status := 0#8, value := 0#32 } }

/-- R152: the limbs `CLAMP_LOAD_R` leaves are the 26-bit pieces of the number whose bytes are the key bytes with the
clamped bits cleared, and `r[4]` has 20 bits. -/
def Obligations.ClampedMultiplier : Prop :=
  ∀ k : List Byte, k.length = 32 →
    (clampLoadR k).l0.toNat = keyR k % 2 ^ 26 ∧
    (clampLoadR k).l1.toNat = keyR k / 2 ^ 26 % 2 ^ 26 ∧
    (clampLoadR k).l2.toNat = keyR k / 2 ^ 52 % 2 ^ 26 ∧
    (clampLoadR k).l3.toNat = keyR k / 2 ^ 78 % 2 ^ 26 ∧
    (clampLoadR k).l4.toNat = keyR k / 2 ^ 104 ∧
    (clampLoadR k).l4.toNat < 2 ^ 20

/-- R181: the data is absorbed after the buffered bytes in 16-byte blocks; `leftover` counts the rest and `buf` holds
it; a chunk that fills no block runs none, and an empty one changes nothing where fewer than 16 bytes wait, as in
every state a run reaches (`StepKeepsLeftoverBounded`); only the Poly1305 unit and the response
change, and in the unit not `r`, `s`, `pad`, `final` or `P_LIVE`. -/
def Obligations.PUpdateResult : Prop :=
  ∀ (data : Ref) (s : State), Acceptable (.pUpdate data) s →
    ∃ (p : PolyUnit) (bytes : List Byte),
      bytes = s.ctx.poly.buf.toList.take s.ctx.poly.leftover.toNat ++ s.mem.readBytes data.addr.toNat data.len.toNat ∧
      exec (.pUpdate data) s =
        .next { s with ctx := { s.ctx with poly := p, status := 0#8, value := 0#32 } } ∧
      p.h = (absorbBlocks (bytes.length / 16) bytes s.ctx.poly).h ∧
      p.leftover.toNat = bytes.length % 16 ∧
      p.buf.toList.take p.leftover.toNat = bytes.drop (16 * (bytes.length / 16)) ∧
      p.r = s.ctx.poly.r ∧ p.s = s.ctx.poly.s ∧ p.pad = s.ctx.poly.pad ∧
      p.final = s.ctx.poly.final ∧ p.live = true ∧
      (s.ctx.poly.leftover.toNat < 16 → data.len = 0#64 → p = s.ctx.poly)

/-- Chunking invariance (R182): `ABSORB(A); ABSORB(B)` leaves the same `h`, `leftover` and `buf[0..leftover−1]` as
`ABSORB(A || B)`, and hence the same tag. -/
def Obligations.ChunkingInvariance : Prop :=
  ∀ (a b : List Byte) (p : PolyUnit),
    (absorb b (absorb a p)).h = (absorb (a ++ b) p).h ∧
    (absorb b (absorb a p)).leftover = (absorb (a ++ b) p).leftover ∧
    (absorb b (absorb a p)).buf.toList.take (absorb (a ++ b) p).leftover.toNat =
      (absorb (a ++ b) p).buf.toList.take (absorb (a ++ b) p).leftover.toNat ∧
    tagBytesOf (absorb b (absorb a p)) = tagBytesOf (absorb (a ++ b) p)

/-- One `PBLOCK` (the spec's own inferences in R158 to R160, on the limb schedule of log 6): from a bounded unit the
bounds are kept, nothing wraps, and the accumulator's value becomes `(h + N)·r` modulo 2^130 − 5, `N` being the block's
number with its high bit; `r`, `s`, `pad`, the buffer and the flags are unchanged and the scratch is cleared. -/
def Obligations.PblockStep : Prop :=
  ∀ (m : List Byte) (p : PolyUnit), m.length = 16 → PolyBounded p →
    PolyBounded (pblock m p) ∧
    limbsVal (pblock m p).h % prime1305 =
      ((limbsVal p.h + leNat m + (if p.final then 0 else 2 ^ 128)) * limbsVal p.r) % prime1305 ∧
    pblock m p = { p with h := (pblock m p).h, d := ⟨0, 0, 0, 0, 0⟩, c := 0, t := ⟨0, 0, 0, 0, 0⟩,
                          b := ⟨0, 0, 0, 0, 0⟩ }

/-- `FULLCARRY; CSUB` (R161, R162, on the limb schedule of log 6): a bounded accumulator becomes the canonical
representative of its value modulo 2^130 − 5, in limbs below 2^26. -/
def Obligations.FullReduction : Prop :=
  ∀ p : PolyUnit, AccBounded p.h →
    Canonical (condSub (fullCarry p)).h ∧ limbsVal (condSub (fullCarry p)).h = limbsVal p.h % prime1305

/-- R165: from canonical limbs, `PACK128`, `ADDPAD` and `TAGOUT` give the 16 bytes, lowest first, of
`(val(h) + val(pad)) mod 2^128`. -/
def Obligations.TagBytesOfSum : Prop :=
  ∀ p : PolyUnit, Canonical p.h →
    (tagOut (addPad { p with w := pack128 p.h }).w).length = 16 ∧
    ∀ j : Fin 16,
      ((tagOut (addPad { p with w := pack128 p.h }).w).getD j.val 0#8).toNat =
        (limbsVal p.h + quadVal p.pad) % 2 ^ 128 / 2 ^ (8 * j.val) % 2 ^ 8

/-- The two layers agree (the spec's own inference in R166): a 32-byte key, any split of a message into chunks, and
the finisher give the tag of the integer-level R150. -/
def Obligations.LimbTagIsIntegerTag : Prop :=
  ∀ (k : List Byte) (chunks : List (List Byte)) (live : Bool) (p : PolyUnit), k.length = 32 →
    tagBytesOf (chunks.foldl (fun q m => absorb m q) (polyKey k live p)) = polyTag k chunks.flatten

/-- R183, R184: the tag of the unit is written to the tag buffer, no other byte changes, the Poly1305 unit is as reset
left it, and nothing else changes. -/
def Obligations.PFinishResult : Prop :=
  ∀ (tag : Ref) (s : State), s.mem.wf = true → Acceptable (.pFinish tag) s →
    ∃ m : Memory,
      exec (.pFinish tag) s =
        .next { s with mem := m, ctx := { s.ctx with poly := .reset, status := 0#8, value := 0#32 } } ∧
      m.size = s.mem.size ∧ m.readBytes tag.addr.toNat 16 = tagBytesOf s.ctx.poly ∧
      AgreeOutside s.mem m [refRange tag]

/-- R185: `VALUE` is 1 when the two 16-byte tags are equal and 0 when not, `STATUS` is `OK` in both cases, and nothing
else changes. -/
def Obligations.PVerifyResult : Prop :=
  ∀ (tagA tagB : Ref) (s : State), Acceptable (.pVerify tagA tagB) s →
    ∃ v : Word,
      exec (.pVerify tagA tagB) s = .next { s with ctx := { s.ctx with status := 0#8, value := v } } ∧
      ((∀ j, j < 16 → s.mem.read (tagA.addr.toNat + j) = s.mem.read (tagB.addr.toNat + j)) → v = 1#32) ∧
      ((∃ j, j < 16 ∧ s.mem.read (tagA.addr.toNat + j) ≠ s.mem.read (tagB.addr.toNat + j)) → v = 0#32)

/-- R95: on 16-byte strings the subtract-and-shift result is 1 for equal strings and 0 otherwise, from an accumulator
of at most 0xff. -/
def Obligations.CompareIsEquality : Prop :=
  ∀ a b : List Byte, a.length = 16 → b.length = 16 →
    (cteqAcc a b).toNat < 256 ∧ (a = b → cteq16 a b = 1#32) ∧ (a ≠ b → cteq16 a b = 0#32)

/-! ### AEAD -/

/-- R205: the bytes the tag is computed over are a whole number of 16-byte blocks, at least one, and absorbing the five
fields of R207 in turn absorbs just them. -/
def Obligations.FramingIsMacData : Prop :=
  ∀ (aad ct : List Byte) (p : PolyUnit), p.leftover = 0 →
    (macData aad ct).length % 16 = 0 ∧ 16 ≤ (macData aad ct).length ∧
    (absorbFraming aad ct (lenBlk aad.length ct.length) p).h = (absorb (macData aad ct) p).h ∧
    (absorbFraming aad ct (lenBlk aad.length ct.length) p).leftover = 0

/-- R208: an accepted `AE.ENC` completes with `OK`; the ciphertext is the plaintext XORed with the keystream from
counter 1, the tag is Poly1305 by R150 under the one-time key of counter 0 over the framing; no other byte of memory
changes; the ephemeral registers are wiped; `KEY`, `CAP` and everything else are unchanged. -/
def Obligations.AeEncResult : Prop :=
  ∀ (nonce pt aad ct tag : Ref) (s : State), s.mem.wf = true → Acceptable (.aeEnc nonce pt aad ct tag) s →
    ∃ m, exec (.aeEnc nonce pt aad ct tag) s = .next (aeadDone m 0#8 s) ∧
      Encrypted (refRange nonce) (refRange pt) (refRange aad) (refRange ct) (refRange tag) s m

/-- R209: `AE.ENCC` is `AE.ENC` with the ciphertext in all but the last 16 bytes of `out` and the tag in those. -/
def Obligations.AeEnccResult : Prop :=
  ∀ (nonce pt aad out : Ref) (s : State), s.mem.wf = true → Acceptable (.aeEncc nonce pt aad out) s →
    ∃ m, exec (.aeEncc nonce pt aad out) s = .next (aeadDone m 0#8 s) ∧
      Encrypted (refRange nonce) (refRange pt) (refRange aad)
        ⟨out.addr.toNat, pt.len.toNat⟩ ⟨out.addr.toNat + pt.len.toNat, 16⟩ s m

/-- R210: an accepted `AE.DEC` whose supplied tag is the tag of the received ciphertext completes with `OK` and the
plaintext; any other completes with `AuthenticationFailure` and memory as it was; the ephemeral registers are wiped on
both paths and nothing else changes. -/
def Obligations.AeDecResult : Prop :=
  ∀ (nonce ct tag aad pt : Ref) (s : State), s.mem.wf = true → Acceptable (.aeDec nonce ct tag aad pt) s →
    (Authentic (refRange nonce) (refRange ct) (refRange tag) (refRange aad) s →
      ∃ m, exec (.aeDec nonce ct tag aad pt) s = .next (aeadDone m 0#8 s) ∧
        Decrypted (refRange nonce) (refRange ct) (refRange pt) s m) ∧
    (¬ Authentic (refRange nonce) (refRange ct) (refRange tag) (refRange aad) s →
      exec (.aeDec nonce ct tag aad pt) s = .next (aeadDone s.mem 4#8 s))

/-- R211: `AE.DECC` is `AE.DEC` with the ciphertext in all but the last 16 bytes of `in` and the tag in those. -/
def Obligations.AeDeccResult : Prop :=
  ∀ (nonce inp aad pt : Ref) (s : State), s.mem.wf = true → Acceptable (.aeDecc nonce inp aad pt) s →
    (Authentic (refRange nonce) ⟨inp.addr.toNat, inp.len.toNat - 16⟩ ⟨inp.addr.toNat + inp.len.toNat - 16, 16⟩
        (refRange aad) s →
      ∃ m, exec (.aeDecc nonce inp aad pt) s = .next (aeadDone m 0#8 s) ∧
        Decrypted (refRange nonce) ⟨inp.addr.toNat, inp.len.toNat - 16⟩ (refRange pt) s m) ∧
    (¬ Authentic (refRange nonce) ⟨inp.addr.toNat, inp.len.toNat - 16⟩ ⟨inp.addr.toNat + inp.len.toNat - 16, 16⟩
        (refRange aad) s →
      exec (.aeDecc nonce inp aad pt) s = .next (aeadDone s.mem 4#8 s))

/-- R254, R212: a command that ends in `AuthenticationFailure` is an accepted decryption, has written no byte of
memory and wiped the ephemeral registers, and its whole result is the response `(4, 0)`. -/
def Obligations.AuthenticationFailureLeavesMemory : Prop :=
  ∀ (i : Instr) (s t : State), exec i s = .next t → t.ctx.status = 4#8 →
    IsDecryption i ∧ Acceptable i s ∧ t = aeadDone s.mem 4#8 s

/-- Round trip (the spec's own inference in R216): `AE.DEC` of what `AE.ENC` left, into any plaintext buffer it
accepts (the ciphertext buffer itself among them), answers `OK` and the plaintext; likewise `AE.DECC` after `AE.ENCC`. -/
def Obligations.RoundTrip : Prop :=
  (∀ (nonce pt aad ct tag pt' : Ref) (s t : State), s.mem.wf = true →
    Acceptable (.aeEnc nonce pt aad ct tag) s → exec (.aeEnc nonce pt aad ct tag) s = .next t →
    Acceptable (.aeDec nonce ct tag aad pt') t →
    ∃ u, exec (.aeDec nonce ct tag aad pt') t = .next u ∧ u.ctx.status = 0#8 ∧
      u.mem.readRange (refRange pt') = s.mem.readRange (refRange pt)) ∧
  (∀ (nonce pt aad out pt' : Ref) (s t : State), s.mem.wf = true →
    Acceptable (.aeEncc nonce pt aad out) s → exec (.aeEncc nonce pt aad out) s = .next t →
    Acceptable (.aeDecc nonce out aad pt') t →
    ∃ u, exec (.aeDecc nonce out aad pt') t = .next u ∧ u.ctx.status = 0#8 ∧
      u.mem.readRange (refRange pt') = s.mem.readRange (refRange pt))

/-! ### Capability dispatch -/

/-- R242: in every state the override is written and the selection resolved, the response is `OK`, and nothing else
changes. -/
def Obligations.CapForceResult : Prop :=
  ∀ (f : Bool) (s : State), ∃ sel : Datapath,
    selBit sel = (s.cap.hwVec128 && !f) ∧
    exec (.capForce f) s =
      .next { s with cap := { s.cap with forceScalar := f, sel := sel },
                     ctx := { s.ctx with status := 0#8, value := 0#32 } }

/-- R38, R243: in every state `VALUE` is the image of the six bits and nothing else changes. -/
def Obligations.CapRdResult : Prop :=
  ∀ s : State, ∃ v : Word,
    exec .capRd s = .next { s with ctx := { s.ctx with status := 0#8, value := v } } ∧
    v.getLsbD 0 = s.cap.hwVec128 ∧ v.getLsbD 1 = s.cap.forceScalar ∧ v.getLsbD 2 = selBit s.cap.sel ∧
    v.getLsbD 3 = s.keyValid ∧ v.getLsbD 4 = s.ctx.cc.live ∧ v.getLsbD 5 = s.ctx.poly.live ∧
    ∀ k, 6 ≤ k → v.getLsbD k = false

/-- R244: with the override set either way, every command but `CAP.RD` and `CAP.FORCE` has the same outcome, the same
memory and the same registers, `CAP` apart; and `CAP.RD` differs in bits 1 and 2 of `VALUE` alone. -/
def Obligations.DatapathInvisible : Prop :=
  ∀ (i : Instr) (f : Bool) (s : State),
    (i ≠ .capRd → (∀ g, i ≠ .capForce g) →
      exec i (s.withCap (forceScalar f s.cap)) =
        match exec i s with
        | .next t => .next (t.withCap (forceScalar f s.cap))
        | .fault e => .fault e
        | .refused r => .refused r) ∧
    ∀ k, k ≠ 1 → k ≠ 2 → (capstat (s.withCap (forceScalar f s.cap))).getLsbD k = (capstat s).getLsbD k

/-! ### Frames over all commands -/

/-- R57: a command writes no byte outside the ranges it names as outputs, and one without outputs writes none. -/
def Obligations.MemoryFrame : Prop :=
  ∀ (i : Instr) (s t : State), exec i s = .next t →
    t.mem.size = s.mem.size ∧ AgreeOutside s.mem t.mem (outputs i) ∧ (outputs i = [] → t.mem = s.mem)

/-- R21, R32, R34, R42: which registers a command can change at all: `KEY` by the `KEY.*` commands, `CAP` by
`CAP.FORCE`, the ChaCha20 unit by `CC.*` and `AE.*`, the Poly1305 unit by `P.INIT`, `P.UPDATE`, `P.FINISH` and `AE.*`,
the orchestrator's registers by `AE.*`, and no command the other contexts, the port or the host's moves. -/
def Obligations.RegisterFrame : Prop :=
  ∀ (i : Instr) (s t : State), exec i s = .next t →
    (writesKey i = false → KeyStable s t) ∧
    ((∀ f, i ≠ .capForce f) → t.cap = s.cap) ∧
    ((∀ c k n, i ≠ .ccInit c k n) → (∀ b, i ≠ .ccXor b) → i ≠ .ccClear → isAead i = false → t.ctx.cc = s.ctx.cc) ∧
    ((∀ k, i ≠ .pInit k) → (∀ d, i ≠ .pUpdate d) → (∀ g, i ≠ .pFinish g) → isAead i = false →
      t.ctx.poly = s.ctx.poly) ∧
    (isAead i = false → t.ctx.ae = s.ctx.ae) ∧
    t.others = s.others ∧ t.cur = s.cur ∧ t.ctx.port = s.ctx.port ∧ t.moves = s.moves

/-- R82: a completed command's status is one of R250's other than `IllegalCommand`; `VALUE` is 0 unless the status is
`OK` and the command `P.VERIFY` or `CAP.RD`. -/
def Obligations.ResponseRule : Prop :=
  ∀ (i : Instr) (s t : State), exec i s = .next t →
    t.ctx.status.toNat ≤ 7 ∧ t.ctx.status ≠ 6#8 ∧
    (t.ctx.value ≠ 0#32 → t.ctx.status = 0#8 ∧ ((∃ a b, i = .pVerify a b) ∨ i = .capRd))

/-! ### Invariants of every step -/

/-- R20, R40: the zeroisation invariant is kept by every step, whatever the host does and whatever the status. -/
def Obligations.StepKeepsZeroised : Prop :=
  ∀ s t : State, Zeroised s → step s = .next t → Zeroised t

/-- The limb bounds of R160 (the spec's own inference) are kept by every step. -/
def Obligations.StepKeepsLimbsBounded : Prop :=
  ∀ s t : State, LimbsBounded s → step s = .next t → LimbsBounded t

/-- Buffer memory keeps its canonical form (the model's choice, log 1) and its size through every step. -/
def Obligations.StepKeepsMemoryCanonical : Prop :=
  ∀ s t : State, s.mem.wf = true → step s = .next t → t.mem.wf = true ∧ t.mem.size = s.mem.size

/-- R241, R82: the selection stays resolved and every response stays legal through every step. -/
def Obligations.StepKeepsResolved : Prop :=
  ∀ s t : State, Resolved s → step s = .next t → Resolved t ∧ t.cap.hwVec128 = s.cap.hwVec128

/-! ### Contexts -/

/-- The races of U4, U5 and U6 are refused (R64, R65, R67, R284), however the command is presented (alone, by `run` or
by `start`): a command whose buffers race with a command in progress in another context, `KEY.LOAD` or `KEY.DISPOSE`
beside an `AE.*` in progress, and a host write into a buffer or a host read of an output of a command in progress. -/
def Obligations.RacesRefused : Prop :=
  (∀ (s u : State) (i : Instr) (rest : List Word), Presents s u → u.ctx.port.busy = none → u.ctx.port.ended = false →
    decode (u.ctx.port.stream.drop u.ctx.port.ci) = .ok (i, rest) →
    ((Acceptable i u ∧ ∃ j ∈ inProgress u.others, BuffersRace i j) → ∃ r, step s = .refused r) ∧
    ((writesKey i = true ∧ ∃ j ∈ inProgress u.others, isAead j = true) → step s = .refused .keyRace)) ∧
  (∀ (s : State) (ms : List HostMove) (a : Nat) (bs : List Byte), s.moves = .write a bs :: ms →
    a + bs.length ≤ s.mem.size →
    (∃ j ∈ inProgress s.contexts, ∃ r ∈ inputs j ++ outputs j, (⟨a, bs.length⟩ : Range).Meets r) →
    step s = .refused .hostRace) ∧
  (∀ (s : State) (ms : List HostMove) (a n : Nat), s.moves = .read a n :: ms → a + n ≤ s.mem.size →
    (∃ j ∈ inProgress s.contexts, ∃ r ∈ outputs j, (⟨a, n⟩ : Range).Meets r) →
    step s = .refused .hostRace)

/-- A command begun and then completed, with nothing between, does what it does when it runs alone (R9; the split is
the model's choice, log 11). -/
def Obligations.BeginThenFinish : Prop :=
  ∀ s u : State, presentCommand s = .next u → u.ctx.port.busy ≠ none → finishCommand u = serve s

/-- A command of one context changes no register, response or port of another (R42, R268): neither a command that a
move of the host serves, begins or completes, nor the active context's own with no move listed, whatever the other
contexts have in progress. -/
def Obligations.ContextIsolation : Prop :=
  (∀ (s t : State) (k : Nat) (ms : List HostMove),
    (s.moves = .run k :: ms ∨ s.moves = .start k :: ms ∨ s.moves = .finish k :: ms) → step s = .next t →
    t.cur = k ∧ t.contexts.length = s.contexts.length ∧ ∀ j, j ≠ k → t.contexts[j]? = s.contexts[j]?) ∧
  (∀ s t : State, s.moves = [] → step s = .next t → t.cur = s.cur ∧ t.others = s.others)

/-- R27: a step from a state in which fewer than 16 bytes wait in every context leaves it so; the 16 of R186 is only
inside a command. -/
def Obligations.StepKeepsLeftoverBounded : Prop :=
  ∀ s t : State, LeftoverBounded s → step s = .next t → LeftoverBounded t

/-- A command presented to run, alone or by the host's `run`, while other contexts have commands in progress that it
races with in no way, is `exec` of the command at the `ci` of its own port, after which `ci` has moved past it (R36, R65,
R77); `StepRunsDecodedCommand` is the case of nothing in progress. -/
def Obligations.PresentedCommandRuns : Prop :=
  ∀ (s u : State) (i : Instr) (rest : List Word),
    ((s.moves = [] ∧ u = s) ∨ ∃ k ms, s.moves = .run k :: ms ∧ (s.withMoves ms).select k = some u) →
    u.ctx.port.busy = none → u.ctx.port.ended = false →
    decode (u.ctx.port.stream.drop u.ctx.port.ci) = .ok (i, rest) →
    (∀ j ∈ inProgress u.others, ¬ BuffersRace i j ∧ keyRaces i j = false) →
    step s =
      match exec i u with
      | .next t =>
        .next { t with ctx := { t.ctx with port := { u.ctx.port with ci := u.ctx.port.ci + i.length } } }
      | .fault f => .fault f
      | .refused r => .refused r
end

