-- ==== Sys2Proof/Laws/State.lean ====
section
/-! SUPPORT. One lemma per register per update of the machine: what each named update of `State` leaves in each
register. Every one is true by `rfl`, so later proofs never unfold a record update. -/

namespace Sys2Proof.Machine

section withMem
variable (m : Memory) (s : State)
@[simp] theorem State.withMem_key : (s.withMem m).key = s.key := rfl
@[simp] theorem State.withMem_keyValid : (s.withMem m).keyValid = s.keyValid := rfl
@[simp] theorem State.withMem_cap : (s.withMem m).cap = s.cap := rfl
@[simp] theorem State.withMem_mem : (s.withMem m).mem = m := rfl
@[simp] theorem State.withMem_cc : (s.withMem m).ctx.cc = s.ctx.cc := rfl
@[simp] theorem State.withMem_poly : (s.withMem m).ctx.poly = s.ctx.poly := rfl
@[simp] theorem State.withMem_ae : (s.withMem m).ctx.ae = s.ctx.ae := rfl
@[simp] theorem State.withMem_status : (s.withMem m).ctx.status = s.ctx.status := rfl
@[simp] theorem State.withMem_value : (s.withMem m).ctx.value = s.ctx.value := rfl
@[simp] theorem State.withMem_port : (s.withMem m).ctx.port = s.ctx.port := rfl
@[simp] theorem State.withMem_cur : (s.withMem m).cur = s.cur := rfl
@[simp] theorem State.withMem_others : (s.withMem m).others = s.others := rfl
@[simp] theorem State.withMem_moves : (s.withMem m).moves = s.moves := rfl
@[simp] theorem State.withMem_ctx : (s.withMem m).ctx = s.ctx := rfl
end withMem

section withCc
variable (u : ChaChaUnit) (s : State)
@[simp] theorem State.withCc_key : (s.withCc u).key = s.key := rfl
@[simp] theorem State.withCc_keyValid : (s.withCc u).keyValid = s.keyValid := rfl
@[simp] theorem State.withCc_cap : (s.withCc u).cap = s.cap := rfl
@[simp] theorem State.withCc_mem : (s.withCc u).mem = s.mem := rfl
@[simp] theorem State.withCc_cc : (s.withCc u).ctx.cc = u := rfl
@[simp] theorem State.withCc_poly : (s.withCc u).ctx.poly = s.ctx.poly := rfl
@[simp] theorem State.withCc_ae : (s.withCc u).ctx.ae = s.ctx.ae := rfl
@[simp] theorem State.withCc_status : (s.withCc u).ctx.status = s.ctx.status := rfl
@[simp] theorem State.withCc_value : (s.withCc u).ctx.value = s.ctx.value := rfl
@[simp] theorem State.withCc_port : (s.withCc u).ctx.port = s.ctx.port := rfl
@[simp] theorem State.withCc_cur : (s.withCc u).cur = s.cur := rfl
@[simp] theorem State.withCc_others : (s.withCc u).others = s.others := rfl
@[simp] theorem State.withCc_moves : (s.withCc u).moves = s.moves := rfl
end withCc

section withPoly
variable (u : PolyUnit) (s : State)
@[simp] theorem State.withPoly_key : (s.withPoly u).key = s.key := rfl
@[simp] theorem State.withPoly_keyValid : (s.withPoly u).keyValid = s.keyValid := rfl
@[simp] theorem State.withPoly_cap : (s.withPoly u).cap = s.cap := rfl
@[simp] theorem State.withPoly_mem : (s.withPoly u).mem = s.mem := rfl
@[simp] theorem State.withPoly_cc : (s.withPoly u).ctx.cc = s.ctx.cc := rfl
@[simp] theorem State.withPoly_poly : (s.withPoly u).ctx.poly = u := rfl
@[simp] theorem State.withPoly_ae : (s.withPoly u).ctx.ae = s.ctx.ae := rfl
@[simp] theorem State.withPoly_status : (s.withPoly u).ctx.status = s.ctx.status := rfl
@[simp] theorem State.withPoly_value : (s.withPoly u).ctx.value = s.ctx.value := rfl
@[simp] theorem State.withPoly_port : (s.withPoly u).ctx.port = s.ctx.port := rfl
@[simp] theorem State.withPoly_cur : (s.withPoly u).cur = s.cur := rfl
@[simp] theorem State.withPoly_others : (s.withPoly u).others = s.others := rfl
@[simp] theorem State.withPoly_moves : (s.withPoly u).moves = s.moves := rfl
end withPoly

section withAe
variable (u : AeadUnit) (s : State)
@[simp] theorem State.withAe_key : (s.withAe u).key = s.key := rfl
@[simp] theorem State.withAe_keyValid : (s.withAe u).keyValid = s.keyValid := rfl
@[simp] theorem State.withAe_cap : (s.withAe u).cap = s.cap := rfl
@[simp] theorem State.withAe_mem : (s.withAe u).mem = s.mem := rfl
@[simp] theorem State.withAe_cc : (s.withAe u).ctx.cc = s.ctx.cc := rfl
@[simp] theorem State.withAe_poly : (s.withAe u).ctx.poly = s.ctx.poly := rfl
@[simp] theorem State.withAe_ae : (s.withAe u).ctx.ae = u := rfl
@[simp] theorem State.withAe_status : (s.withAe u).ctx.status = s.ctx.status := rfl
@[simp] theorem State.withAe_value : (s.withAe u).ctx.value = s.ctx.value := rfl
@[simp] theorem State.withAe_port : (s.withAe u).ctx.port = s.ctx.port := rfl
@[simp] theorem State.withAe_cur : (s.withAe u).cur = s.cur := rfl
@[simp] theorem State.withAe_others : (s.withAe u).others = s.others := rfl
@[simp] theorem State.withAe_moves : (s.withAe u).moves = s.moves := rfl
end withAe

section withPhase
variable (p : Phase) (s : State)
@[simp] theorem State.withPhase_key : (s.withPhase p).key = s.key := rfl
@[simp] theorem State.withPhase_keyValid : (s.withPhase p).keyValid = s.keyValid := rfl
@[simp] theorem State.withPhase_cap : (s.withPhase p).cap = s.cap := rfl
@[simp] theorem State.withPhase_ctag : (s.withPhase p).ctx.ae.ctag = s.ctx.ae.ctag := rfl
@[simp] theorem State.withPhase_mem : (s.withPhase p).mem = s.mem := rfl
@[simp] theorem State.withPhase_cc : (s.withPhase p).ctx.cc = s.ctx.cc := rfl
@[simp] theorem State.withPhase_poly : (s.withPhase p).ctx.poly = s.ctx.poly := rfl
@[simp] theorem State.withPhase_ae : (s.withPhase p).ctx.ae = { s.ctx.ae with phase := p } := rfl
@[simp] theorem State.withPhase_status : (s.withPhase p).ctx.status = s.ctx.status := rfl
@[simp] theorem State.withPhase_value : (s.withPhase p).ctx.value = s.ctx.value := rfl
@[simp] theorem State.withPhase_port : (s.withPhase p).ctx.port = s.ctx.port := rfl
@[simp] theorem State.withPhase_cur : (s.withPhase p).cur = s.cur := rfl
@[simp] theorem State.withPhase_others : (s.withPhase p).others = s.others := rfl
@[simp] theorem State.withPhase_moves : (s.withPhase p).moves = s.moves := rfl
end withPhase

section withKey
variable (k : Vector Byte 32) (v : Bool) (s : State)
@[simp] theorem State.withKey_key : (s.withKey k v).key = k := rfl
@[simp] theorem State.withKey_keyValid : (s.withKey k v).keyValid = v := rfl
@[simp] theorem State.withKey_cap : (s.withKey k v).cap = s.cap := rfl
@[simp] theorem State.withKey_mem : (s.withKey k v).mem = s.mem := rfl
@[simp] theorem State.withKey_cc : (s.withKey k v).ctx.cc = s.ctx.cc := rfl
@[simp] theorem State.withKey_poly : (s.withKey k v).ctx.poly = s.ctx.poly := rfl
@[simp] theorem State.withKey_ae : (s.withKey k v).ctx.ae = s.ctx.ae := rfl
@[simp] theorem State.withKey_status : (s.withKey k v).ctx.status = s.ctx.status := rfl
@[simp] theorem State.withKey_value : (s.withKey k v).ctx.value = s.ctx.value := rfl
@[simp] theorem State.withKey_port : (s.withKey k v).ctx.port = s.ctx.port := rfl
@[simp] theorem State.withKey_cur : (s.withKey k v).cur = s.cur := rfl
@[simp] theorem State.withKey_others : (s.withKey k v).others = s.others := rfl
@[simp] theorem State.withKey_moves : (s.withKey k v).moves = s.moves := rfl
@[simp] theorem State.withKey_ctx : (s.withKey k v).ctx = s.ctx := rfl
end withKey

section withCap
variable (c : Cap) (s : State)
@[simp] theorem State.withCap_key : (s.withCap c).key = s.key := rfl
@[simp] theorem State.withCap_keyValid : (s.withCap c).keyValid = s.keyValid := rfl
@[simp] theorem State.withCap_cap : (s.withCap c).cap = c := rfl
@[simp] theorem State.withCap_mem : (s.withCap c).mem = s.mem := rfl
@[simp] theorem State.withCap_cc : (s.withCap c).ctx.cc = s.ctx.cc := rfl
@[simp] theorem State.withCap_poly : (s.withCap c).ctx.poly = s.ctx.poly := rfl
@[simp] theorem State.withCap_ae : (s.withCap c).ctx.ae = s.ctx.ae := rfl
@[simp] theorem State.withCap_status : (s.withCap c).ctx.status = s.ctx.status := rfl
@[simp] theorem State.withCap_value : (s.withCap c).ctx.value = s.ctx.value := rfl
@[simp] theorem State.withCap_port : (s.withCap c).ctx.port = s.ctx.port := rfl
@[simp] theorem State.withCap_cur : (s.withCap c).cur = s.cur := rfl
@[simp] theorem State.withCap_others : (s.withCap c).others = s.others := rfl
@[simp] theorem State.withCap_moves : (s.withCap c).moves = s.moves := rfl
@[simp] theorem State.withCap_ctx : (s.withCap c).ctx = s.ctx := rfl
end withCap

section withPort
variable (p : Port) (s : State)
@[simp] theorem State.withPort_key : (s.withPort p).key = s.key := rfl
@[simp] theorem State.withPort_keyValid : (s.withPort p).keyValid = s.keyValid := rfl
@[simp] theorem State.withPort_cap : (s.withPort p).cap = s.cap := rfl
@[simp] theorem State.withPort_mem : (s.withPort p).mem = s.mem := rfl
@[simp] theorem State.withPort_cc : (s.withPort p).ctx.cc = s.ctx.cc := rfl
@[simp] theorem State.withPort_poly : (s.withPort p).ctx.poly = s.ctx.poly := rfl
@[simp] theorem State.withPort_ae : (s.withPort p).ctx.ae = s.ctx.ae := rfl
@[simp] theorem State.withPort_status : (s.withPort p).ctx.status = s.ctx.status := rfl
@[simp] theorem State.withPort_value : (s.withPort p).ctx.value = s.ctx.value := rfl
@[simp] theorem State.withPort_port : (s.withPort p).ctx.port = p := rfl
@[simp] theorem State.withPort_cur : (s.withPort p).cur = s.cur := rfl
@[simp] theorem State.withPort_others : (s.withPort p).others = s.others := rfl
@[simp] theorem State.withPort_moves : (s.withPort p).moves = s.moves := rfl
end withPort

section withMoves
variable (ms : List HostMove) (s : State)
@[simp] theorem State.withMoves_key : (s.withMoves ms).key = s.key := rfl
@[simp] theorem State.withMoves_keyValid : (s.withMoves ms).keyValid = s.keyValid := rfl
@[simp] theorem State.withMoves_cap : (s.withMoves ms).cap = s.cap := rfl
@[simp] theorem State.withMoves_mem : (s.withMoves ms).mem = s.mem := rfl
@[simp] theorem State.withMoves_cc : (s.withMoves ms).ctx.cc = s.ctx.cc := rfl
@[simp] theorem State.withMoves_poly : (s.withMoves ms).ctx.poly = s.ctx.poly := rfl
@[simp] theorem State.withMoves_ae : (s.withMoves ms).ctx.ae = s.ctx.ae := rfl
@[simp] theorem State.withMoves_status : (s.withMoves ms).ctx.status = s.ctx.status := rfl
@[simp] theorem State.withMoves_value : (s.withMoves ms).ctx.value = s.ctx.value := rfl
@[simp] theorem State.withMoves_port : (s.withMoves ms).ctx.port = s.ctx.port := rfl
@[simp] theorem State.withMoves_cur : (s.withMoves ms).cur = s.cur := rfl
@[simp] theorem State.withMoves_others : (s.withMoves ms).others = s.others := rfl
@[simp] theorem State.withMoves_moves : (s.withMoves ms).moves = ms := rfl
@[simp] theorem State.withMoves_ctx : (s.withMoves ms).ctx = s.ctx := rfl
end withMoves

section respond
variable (st : Status) (v : Word) (s : State)
@[simp] theorem State.respond_key : (s.respond st v).key = s.key := rfl
@[simp] theorem State.respond_keyValid : (s.respond st v).keyValid = s.keyValid := rfl
@[simp] theorem State.respond_cap : (s.respond st v).cap = s.cap := rfl
@[simp] theorem State.respond_mem : (s.respond st v).mem = s.mem := rfl
@[simp] theorem State.respond_cc : (s.respond st v).ctx.cc = s.ctx.cc := rfl
@[simp] theorem State.respond_poly : (s.respond st v).ctx.poly = s.ctx.poly := rfl
@[simp] theorem State.respond_ae : (s.respond st v).ctx.ae = s.ctx.ae := rfl
@[simp] theorem State.respond_status : (s.respond st v).ctx.status = st.code := rfl
@[simp] theorem State.respond_value : (s.respond st v).ctx.value = v := rfl
@[simp] theorem State.respond_port : (s.respond st v).ctx.port = s.ctx.port := rfl
@[simp] theorem State.respond_cur : (s.respond st v).cur = s.cur := rfl
@[simp] theorem State.respond_others : (s.respond st v).others = s.others := rfl
@[simp] theorem State.respond_moves : (s.respond st v).moves = s.moves := rfl
end respond

section raise
variable (st : Status) (s : State)
@[simp] theorem State.raise_key : (s.raise st).key = s.key := rfl
@[simp] theorem State.raise_keyValid : (s.raise st).keyValid = s.keyValid := rfl
@[simp] theorem State.raise_cap : (s.raise st).cap = s.cap := rfl
@[simp] theorem State.raise_mem : (s.raise st).mem = s.mem := rfl
@[simp] theorem State.raise_cc : (s.raise st).ctx.cc = s.ctx.cc := rfl
@[simp] theorem State.raise_poly : (s.raise st).ctx.poly = s.ctx.poly := rfl
@[simp] theorem State.raise_ae : (s.raise st).ctx.ae = s.ctx.ae := rfl
@[simp] theorem State.raise_status : (s.raise st).ctx.status = st.code := rfl
@[simp] theorem State.raise_value : (s.raise st).ctx.value = 0#32 := rfl
@[simp] theorem State.raise_port : (s.raise st).ctx.port = s.ctx.port := rfl
@[simp] theorem State.raise_cur : (s.raise st).cur = s.cur := rfl
@[simp] theorem State.raise_others : (s.raise st).others = s.others := rfl
@[simp] theorem State.raise_moves : (s.raise st).moves = s.moves := rfl
end raise

/-- A wiped ChaCha20 unit is the unit after reset (R114, R184). -/
@[simp] theorem wipeCc_eq (u : ChaChaUnit) : wipeCc u = .reset := rfl

/-- A wiped Poly1305 unit is the unit after reset (R184). -/
@[simp] theorem wipePoly_eq (p : PolyUnit) : wipePoly p = .reset := rfl

section wipeAe
variable (s : State)
@[simp] theorem wipeAe_key : (wipeAe s).key = s.key := rfl
@[simp] theorem wipeAe_keyValid : (wipeAe s).keyValid = s.keyValid := rfl
@[simp] theorem wipeAe_cap : (wipeAe s).cap = s.cap := rfl
@[simp] theorem wipeAe_mem : (wipeAe s).mem = s.mem := rfl
@[simp] theorem wipeAe_cc : (wipeAe s).ctx.cc = .reset := rfl
@[simp] theorem wipeAe_poly : (wipeAe s).ctx.poly = .reset := rfl
@[simp] theorem wipeAe_ae : (wipeAe s).ctx.ae = wipeAeRegs s.ctx.ae := rfl
@[simp] theorem wipeAe_status : (wipeAe s).ctx.status = s.ctx.status := rfl
@[simp] theorem wipeAe_value : (wipeAe s).ctx.value = s.ctx.value := rfl
@[simp] theorem wipeAe_port : (wipeAe s).ctx.port = s.ctx.port := rfl
@[simp] theorem wipeAe_cur : (wipeAe s).cur = s.cur := rfl
@[simp] theorem wipeAe_others : (wipeAe s).others = s.others := rfl
@[simp] theorem wipeAe_moves : (wipeAe s).moves = s.moves := rfl
end wipeAe

/-- `PHASE` back at `IDLE` after the wipe: the orchestrator's registers are those after reset (R213, R217). -/
@[simp] theorem wipeAeRegs_idle (u : AeadUnit) : { wipeAeRegs u with phase := .idle } = AeadUnit.reset := rfl

/-! ### Word files by index -/

/-- A word just written reads back (R15). -/
@[simp] theorem Words16.get_set_same (x : Words16) (i : Fin 16) (v : Word) : (x.set i v).get i = v := by
  revert i
  simp only [Fin.forall_fin_succ]
  simp [Words16.get, Words16.set]

/-- Writing one word leaves every other (R15). -/
theorem Words16.get_set_other (x : Words16) (v : Word) {i j : Fin 16} (h : i ≠ j) : (x.set i v).get j = x.get j := by
  revert h
  revert i j
  simp only [Fin.forall_fin_succ]
  simp [Words16.get, Words16.set]

/-- Two files equal at every index are equal. -/
theorem Words16.ext_get {x y : Words16} (h : ∀ i, x.get i = y.get i) : x = y := by
  cases x
  cases y
  simp only [Fin.forall_fin_succ] at h
  simp [Words16.get] at h
  simp [h]

end Sys2Proof.Machine
end

