-- ==== Sys2Proof/Laws/Acceptance.lean ====
section
/-! SUPPORT. What acceptance and `perform` can do, said once: the verdict by the first failing class, the three
ways a command ends, and that every command is `perform` on its own checks. -/

namespace Sys2Proof.Machine

/-! ### The verdict (R258) -/

theorem verdict_accept_iff (c : Checks) :
    verdict c = .accept ↔ c.live = true ∧ c.present = true ∧ c.sized = true ∧ c.related = true ∧
      c.bounded = true ∧ c.shapes = true := by
  rcases c with ⟨l, p, s, r, b, o⟩
  cases l <;> cases p <;> cases s <;> cases r <;> cases b <;> cases o <;> simp [verdict]

theorem verdict_refuse {c : Checks} {r : Refusal} (h : verdict c = .refuse r) : r = .overlap := by
  rcases c with ⟨l, p, s, r', b, o⟩
  revert h
  cases l <;> cases p <;> cases s <;> cases r' <;> cases b <;> cases o <;> simp [verdict]
  exact Eq.symm

/-- An acceptance failure is never `OK`, `AuthenticationFailure` or `IllegalCommand` (R250, column "detected"). -/
theorem verdict_error {c : Checks} {st : Status} (h : verdict c = .error st) :
    st = .sequenceError ∨ st = .invalidArgument ∨ st = .invalidSize ∨ st = .lengthMismatch ∨ st = .accessFault := by
  rcases c with ⟨l, p, s, r, b, o⟩
  revert h
  cases l <;> cases p <;> cases s <;> cases r <;> cases b <;> cases o <;> simp [verdict] <;> rintro rfl <;> simp

@[simp] theorem verdict_checksNone : verdict checksNone = .accept := rfl

/-! ### perform -/

theorem perform_accept {c : Checks} (h : verdict c = .accept) (work : State → State) (s : State) :
    perform c work s = .next (work s) := by
  simp [perform, h]

theorem perform_error {c : Checks} {st : Status} (h : verdict c = .error st) (work : State → State) (s : State) :
    perform c work s = .next (s.raise st) := by
  simp [perform, h]

theorem perform_refuse {c : Checks} {r : Refusal} (h : verdict c = .refuse r) (work : State → State) (s : State) :
    perform c work s = .refused r := by
  simp [perform, h]

/-- The two ways `perform` answers a next state. -/
theorem perform_next {c : Checks} {work : State → State} {s t : State} (h : perform c work s = .next t) :
    (verdict c = .accept ∧ t = work s) ∨ ∃ st, verdict c = .error st ∧ t = s.raise st := by
  unfold perform at h
  split at h
  · next hv => exact .inl ⟨hv, by simpa using h.symm⟩
  · next st hv => exact .inr ⟨st, hv, by simpa using h.symm⟩
  · cases h

/-- `perform` never faults. -/
theorem perform_no_fault (c : Checks) (work : State → State) (s : State) (f : Fault) :
    perform c work s ≠ .fault f := by
  unfold perform
  split <;> simp

/-! ### Every command is `perform` on its own checks -/

/-- The work of an accepted command. -/
def workOf (i : Instr) (s : State) : State :=
  match exec i s with
  | .next t => t
  | .fault _ => s
  | .refused _ => s

/-- Every command is `perform` on its own checks (R258). -/
theorem exec_eq_perform (i : Instr) (s : State) : ∃ work, exec i s = perform (checks i s) work s := by
  cases i
  case keyLoad key => exact ⟨_, by rw [exec, execKeyLoad]; rfl⟩
  case keyDispose => exact ⟨_, by rw [exec, execKeyDispose]; rfl⟩
  case ccInit counter key nonce => exact ⟨_, by rw [exec, execCcInit]; rfl⟩
  case ccXor buf => exact ⟨_, by rw [exec, execCcXor]; rfl⟩
  case ccClear => exact ⟨_, by rw [exec, execCcClear]; rfl⟩
  case pInit key => exact ⟨_, by rw [exec, execPInit]; rfl⟩
  case pUpdate data => exact ⟨_, by rw [exec, execPUpdate]; rfl⟩
  case pFinish tag => exact ⟨_, by rw [exec, execPFinish]; rfl⟩
  case pVerify tagA tagB => exact ⟨_, by rw [exec, execPVerify]; rfl⟩
  case aeEnc nonce pt aad ct tag => exact ⟨_, by rw [exec, execAeEnc]; rfl⟩
  case aeEncc nonce pt aad out => exact ⟨_, by rw [exec, execAeEncc]; rfl⟩
  case aeDec nonce ct tag aad pt => exact ⟨_, by rw [exec, execAeDec]; rfl⟩
  case aeDecc nonce inp aad pt => exact ⟨_, by rw [exec, execAeDecc]; rfl⟩
  case capForce f => exact ⟨_, by rw [exec, execCapForce]; rfl⟩
  case capRd => exact ⟨_, by rw [exec, execCapRd]; rfl⟩

/-- A command that fails acceptance with an error status changes the response only (R260 a). -/
theorem exec_error {i : Instr} {s : State} {st : Status} (h : verdict (checks i s) = .error st) :
    exec i s = .next (s.raise st) := by
  obtain ⟨work, hw⟩ := exec_eq_perform i s
  rw [hw, perform_error h]

/-- A command whose buffers overlap in no allowed shape is refused (R59, R258). -/
theorem exec_refuse {i : Instr} {s : State} {r : Refusal} (h : verdict (checks i s) = .refuse r) :
    exec i s = .refused r := by
  obtain ⟨work, hw⟩ := exec_eq_perform i s
  rw [hw, perform_refuse h]

/-- An accepted command completes (R258: "Only then does work begin"). -/
theorem exec_accept {i : Instr} {s : State} (h : verdict (checks i s) = .accept) :
    exec i s = .next (workOf i s) := by
  obtain ⟨work, hw⟩ := exec_eq_perform i s
  rw [perform_accept h] at hw
  rw [workOf, hw]

/-- What a command that answers a next state did. -/
theorem exec_next {i : Instr} {s t : State} (h : exec i s = .next t) :
    (verdict (checks i s) = .accept ∧ t = workOf i s) ∨
      ∃ st, verdict (checks i s) = .error st ∧ t = s.raise st := by
  cases hv : verdict (checks i s) with
  | accept =>
    rw [exec_accept hv] at h
    exact .inl ⟨rfl, by simpa using h.symm⟩
  | error st =>
    rw [exec_error hv] at h
    exact .inr ⟨st, rfl, by simpa using h.symm⟩
  | refuse r =>
    rw [exec_refuse hv] at h
    cases h

/-- No command faults: a command completes or is refused (R10). -/
theorem exec_no_fault (i : Instr) (s : State) (f : Fault) : exec i s ≠ .fault f := by
  obtain ⟨work, hw⟩ := exec_eq_perform i s
  rw [hw]
  exact perform_no_fault _ work s f

/-! ### The work of each command, as its equation -/

section work
variable {s : State}

theorem workOf_keyLoad {key : Ref} (h : accepted (.keyLoad key) s) :
    workOf (.keyLoad key) s =
      (s.withKey (byteVec 32 (s.mem.readRange (refRange key))) true).respond .ok 0#32 := by
  have h' : verdict (checksKeyLoad key s) = .accept := h
  simp only [workOf, exec, execKeyLoad, perform_accept h']

theorem workOf_keyDispose : workOf .keyDispose s = (s.withKey (zeroBytes 32) false).respond .ok 0#32 := rfl

theorem workOf_ccInit {counter : Word} {key nonce : Ref} (h : accepted (.ccInit counter key nonce) s) :
    workOf (.ccInit counter key nonce) s =
      (s.withCc { s.ctx.cc with
        s := chachaState (s.mem.readRange (refRange key)) counter (s.mem.readRange (refRange nonce)),
        live := true }).respond .ok 0#32 := by
  have h' : verdict (checksCcInit key nonce s) = .accept := h
  simp only [workOf, exec, execCcInit, perform_accept h']

theorem workOf_ccXor {buf : Ref} (h : accepted (.ccXor buf) s) :
    workOf (.ccXor buf) s = ((xorStreamOn (refRange buf) s).withCc .reset).respond .ok 0#32 := by
  have h' : verdict (checksCcXor buf s) = .accept := h
  simp only [workOf, exec, execCcXor, perform_accept h', wipeCc_eq]

theorem workOf_ccClear : workOf .ccClear s = (s.withCc .reset).respond .ok 0#32 := rfl

theorem workOf_pInit {key : Ref} (h : accepted (.pInit key) s) :
    workOf (.pInit key) s =
      (s.withPoly (polyKey (s.mem.readRange (refRange key)) true s.ctx.poly)).respond .ok 0#32 := by
  have h' : verdict (checksPInit key s) = .accept := h
  simp only [workOf, exec, execPInit, perform_accept h']

theorem workOf_pUpdate {data : Ref} (h : accepted (.pUpdate data) s) :
    workOf (.pUpdate data) s =
      (s.withPoly (absorb (s.mem.readRange (refRange data)) s.ctx.poly)).respond .ok 0#32 := by
  have h' : verdict (checksPUpdate data s) = .accept := h
  simp only [workOf, exec, execPUpdate, perform_accept h']

theorem workOf_pFinish {tag : Ref} (h : accepted (.pFinish tag) s) :
    workOf (.pFinish tag) s =
      ((s.withMem (s.mem.writeBytes tag.addr.toNat (tagBytesOf s.ctx.poly))).withPoly .reset).respond .ok 0#32 := by
  have h' : verdict (checksPFinish tag s) = .accept := h
  simp only [workOf, exec, execPFinish, perform_accept h', wipePoly_eq, tagBytesOf]

theorem workOf_pVerify {tagA tagB : Ref} (h : accepted (.pVerify tagA tagB) s) :
    workOf (.pVerify tagA tagB) s =
      s.respond .ok (cteq16 (s.mem.readRange (refRange tagA)) (s.mem.readRange (refRange tagB))) := by
  have h' : verdict (checksPVerify tagA tagB s) = .accept := h
  simp only [workOf, exec, execPVerify, perform_accept h']

theorem workOf_aeEnc {nonce pt aad ct tag : Ref} (h : accepted (.aeEnc nonce pt aad ct tag) s) :
    workOf (.aeEnc nonce pt aad ct tag) s =
      encrypt (refRange nonce) (refRange pt) (refRange aad) (refRange ct) (refRange tag) s := by
  have h' : verdict (checksAeEnc nonce pt aad ct tag s) = .accept := h
  simp only [workOf, exec, execAeEnc, perform_accept h']

theorem workOf_aeEncc {nonce pt aad out : Ref} (h : accepted (.aeEncc nonce pt aad out) s) :
    workOf (.aeEncc nonce pt aad out) s =
      encrypt (refRange nonce) (refRange pt) (refRange aad) (combinedData out) (combinedTag out) s := by
  have h' : verdict (checksAeEncc nonce pt aad out s) = .accept := h
  simp only [workOf, exec, execAeEncc, perform_accept h']

theorem workOf_aeDec {nonce ct tag aad pt : Ref} (h : accepted (.aeDec nonce ct tag aad pt) s) :
    workOf (.aeDec nonce ct tag aad pt) s =
      decrypt (refRange nonce) (refRange ct) (refRange tag) (refRange aad) (refRange pt) s := by
  have h' : verdict (checksAeDec nonce ct tag aad pt s) = .accept := h
  simp only [workOf, exec, execAeDec, perform_accept h']

theorem workOf_aeDecc {nonce inp aad pt : Ref} (h : accepted (.aeDecc nonce inp aad pt) s) :
    workOf (.aeDecc nonce inp aad pt) s =
      decrypt (refRange nonce) (combinedData inp) (combinedTag inp) (refRange aad) (refRange pt) s := by
  have h' : verdict (checksAeDecc nonce inp aad pt s) = .accept := h
  simp only [workOf, exec, execAeDecc, perform_accept h']

theorem workOf_capForce {f : Bool} :
    workOf (.capForce f) s = (s.withCap (forceScalar f s.cap)).respond .ok 0#32 := rfl

theorem workOf_capRd : workOf .capRd s = s.respond .ok (capstat s) := rfl

end work

/-! ### What the operand checks mean -/

@[simp] theorem present_iff (r : Ref) : present r = true ↔ r.addr ≠ 0#64 := by simp [present]

@[simp] theorem aadPresent_iff (r : Ref) : aadPresent r = true ↔ r.addr ≠ 0#64 ∨ r.len = 0#64 := by
  simp [aadPresent]

@[simp] theorem sized_iff (r : Ref) (n : Nat) : sized r n = true ↔ r.len.toNat = n := by simp [sized]

@[simp] theorem bounded_iff (size : Nat) (r : Ref) :
    bounded size r = true ↔ (r.addr ≠ 0#64 → r.addr.toNat + r.len.toNat ≤ size) := by
  by_cases h : r.addr = 0#64 <;> simp [bounded, present, h]

@[simp] theorem disjoint_iff (a b : Range) :
    disjoint a b = true ↔ a.len = 0 ∨ b.len = 0 ∨ a.addr + a.len ≤ b.addr ∨ b.addr + b.len ≤ a.addr := by
  simp [disjoint, or_assoc]

theorem disjointOrSame_iff (a b : Range) : disjointOrSame a b = true ↔ disjoint a b = true ∨ a = b := by
  simp [disjointOrSame]

/-- An in-bounds read of a present reference stays in memory; of an absent one of length 0 it is empty. -/
theorem range_inBounds {size : Nat} {r : Ref} (hp : r.addr ≠ 0#64 ∨ r.len = 0#64) (hb : bounded size r = true) :
    (refRange r).len = 0 ∨ (refRange r).addr + (refRange r).len ≤ size := by
  rcases hp with hp | hp
  · exact .inr ((bounded_iff size r).mp hb hp)
  · left
    simp [refRange, hp]

end Sys2Proof.Machine
end

