-- ==== Sys2Proof/Laws/Memory.lean ====
section
/-! SUPPORT. The laws of buffer memory: a read after a write to the same place gives what was written, a write leaves
every other place alone, byte strings likewise, and every write keeps the canonical form. -/

namespace Sys2Proof.Machine

/-! ### One byte -/

theorem cellsRead_write_same (a : Nat) (b : Byte) (lo hi : Nat) (cs : List Host.Cell)
    (h : cellsWf lo hi cs = true) : cellsRead a (cellsWrite a b cs) = b := by
  induction cs generalizing lo with
  | nil =>
    by_cases hb : b = Config.unlistedByte <;> simp [cellsWrite, cellsRead, hb]
  | cons c cs ih =>
    obtain ⟨a', b'⟩ := c
    simp only [cellsWf, Bool.and_eq_true, decide_eq_true_eq] at h
    obtain ⟨⟨⟨_, _⟩, _⟩, hcs⟩ := h
    have below : ∀ (lo' : Nat) (ds : List Host.Cell), cellsWf lo' hi ds = true → a < lo' →
        cellsRead a ds = Config.unlistedByte := by
      intro lo' ds
      induction ds generalizing lo' with
      | nil => intros; rfl
      | cons d ds ihd =>
        obtain ⟨ad, bd⟩ := d
        intro hd hlt
        simp only [cellsWf, Bool.and_eq_true, decide_eq_true_eq] at hd
        obtain ⟨⟨⟨h1, _⟩, _⟩, h4⟩ := hd
        have : a ≠ ad := by omega
        simp only [cellsRead, this, if_false]
        exact ihd (ad + 1) h4 (by omega)
    unfold cellsWrite
    split
    · split
      · next hb =>
        have : a ≠ a' := by omega
        simp only [cellsRead, this, if_false]
        rw [hb]
        exact below _ _ hcs (by omega)
      · simp [cellsRead]
    · split
      · next heq =>
        split
        · next hb =>
          rw [hb]
          exact below _ _ hcs (by omega)
        · simp [cellsRead]
      · next hne =>
        simp only [cellsRead, hne, if_false]
        exact ih _ hcs

theorem cellsRead_write_other {a a' : Nat} (hne : a' ≠ a) (b : Byte) (cs : List Host.Cell) :
    cellsRead a' (cellsWrite a b cs) = cellsRead a' cs := by
  induction cs with
  | nil => by_cases hb : b = Config.unlistedByte <;> simp [cellsWrite, cellsRead, hb, hne]
  | cons c cs ih =>
    obtain ⟨x, y⟩ := c
    unfold cellsWrite
    split
    · split <;> simp [cellsRead, hne]
    · split
      · next h =>
        subst h
        split <;> simp [cellsRead, hne]
      · simp only [cellsRead, ih]

/-- A listing that starts later is a listing that may start earlier. -/
theorem cellsWf_mono {lo lo' hi : Nat} (h : lo' ≤ lo) (cs : List Host.Cell) (hw : cellsWf lo hi cs = true) :
    cellsWf lo' hi cs = true := by
  cases cs with
  | nil => rfl
  | cons c cs =>
    obtain ⟨a, b⟩ := c
    simp only [cellsWf, Bool.and_eq_true, decide_eq_true_eq] at hw ⊢
    exact ⟨⟨⟨by omega, hw.1.1.2⟩, hw.1.2⟩, hw.2⟩

/-- A write at an existing address keeps the canonical form. -/
theorem cellsWf_write {lo hi a : Nat} (hlo : lo ≤ a) (hhi : a < hi) (b : Byte) (cs : List Host.Cell)
    (hw : cellsWf lo hi cs = true) : cellsWf lo hi (cellsWrite a b cs) = true := by
  induction cs generalizing lo with
  | nil =>
    by_cases hb : b = Config.unlistedByte
    · simp [cellsWrite, hb, cellsWf]
    · simp [cellsWrite, hb, cellsWf, hlo, hhi]
  | cons c cs ih =>
    obtain ⟨x, y⟩ := c
    have hw' := hw
    simp only [cellsWf, Bool.and_eq_true, decide_eq_true_eq] at hw
    obtain ⟨⟨⟨h1, h2⟩, h3⟩, h4⟩ := hw
    unfold cellsWrite
    split
    · split
      · exact hw'
      · next hb => simp [cellsWf, hlo, hhi, hb, h2, h3, h4]; omega
    · split
      · next heq =>
        subst heq
        split
        · exact cellsWf_mono (by omega) _ h4
        · next hb => simp [cellsWf, hlo, hhi, hb, h4]
      · next hne =>
        simp only [cellsWf, Bool.and_eq_true, decide_eq_true_eq]
        exact ⟨⟨⟨h1, h2⟩, h3⟩, ih (by omega) h4⟩

/-! ### Memory -/

/-- The parts of the canonical form. -/
theorem Memory.wf_iff (m : Memory) :
    m.wf = true ↔ cellsWf 0 m.size m.cells = true ∧ 1 ≤ m.size ∧ m.size ≤ 2 ^ 64 := by
  simp [Memory.wf, and_assoc]

/-- Buffer memory that nothing has written is canonical. -/
theorem Memory.wf_empty {n : Nat} (h1 : 1 ≤ n) (h2 : n ≤ 2 ^ 64) : (Memory.empty n).wf = true :=
  (Memory.wf_iff _).mpr ⟨rfl, h1, h2⟩

@[simp] theorem Memory.size_write (m : Memory) (a : Nat) (b : Byte) : (m.write a b).size = m.size := rfl

/-- Read after write, the same address. -/
theorem Memory.read_write_same {m : Memory} (h : m.wf = true) (a : Nat) (b : Byte) : (m.write a b).read a = b :=
  cellsRead_write_same a b 0 m.size m.cells (m.wf_iff.mp h).1

/-- Read after write, another address. -/
theorem Memory.read_write_other (m : Memory) {a a' : Nat} (h : a' ≠ a) (b : Byte) :
    (m.write a b).read a' = m.read a' :=
  cellsRead_write_other h b m.cells

/-- A write at an existing address keeps the canonical form. -/
theorem Memory.wf_write {m : Memory} (h : m.wf = true) {a : Nat} (ha : a < m.size) (b : Byte) :
    (m.write a b).wf = true := by
  rw [Memory.wf_iff] at h ⊢
  exact ⟨cellsWf_write (Nat.zero_le a) ha b m.cells h.1, h.2⟩

/-! ### Byte strings (R52) -/

@[simp] theorem Memory.readBytes_length (m : Memory) (a n : Nat) : (m.readBytes a n).length = n := by
  induction n generalizing a with
  | zero => rfl
  | succ n ih => simp [Memory.readBytes, ih]

/-- `MemRead(addr, n)[i] = MEM[addr+i]`. -/
theorem Memory.readBytes_getElem (m : Memory) (a n i : Nat) (h : i < (m.readBytes a n).length) :
    (m.readBytes a n)[i] = m.read (a + i) := by
  induction n generalizing a i with
  | zero => simp [Memory.readBytes] at h
  | succ n ih =>
    cases i with
    | zero => rfl
    | succ i =>
      simp only [Memory.readBytes, List.getElem_cons_succ]
      rw [ih (a + 1) i (by simpa [Memory.readBytes] using h)]
      congr 1
      omega

/-- Two memories that agree on a range give the same byte string. -/
theorem Memory.readBytes_congr {m m' : Memory} {a n : Nat} (h : ∀ i, a ≤ i → i < a + n → m.read i = m'.read i) :
    m.readBytes a n = m'.readBytes a n := by
  induction n generalizing a with
  | zero => rfl
  | succ n ih =>
    simp only [Memory.readBytes]
    rw [h a (Nat.le_refl a) (by omega), ih (fun i h1 h2 => h i (by omega) (by omega))]

/-- A read of two adjoining ranges. -/
theorem Memory.readBytes_add (m : Memory) (a n k : Nat) :
    m.readBytes a (n + k) = m.readBytes a n ++ m.readBytes (a + n) k := by
  induction n generalizing a with
  | zero => simp [Memory.readBytes]
  | succ n ih =>
    have : n + 1 + k = (n + k) + 1 := by omega
    rw [this]
    simp only [Memory.readBytes, List.cons_append, ih]
    congr 3
    omega

@[simp] theorem Memory.size_writeBytes (m : Memory) (a : Nat) (bs : List Byte) : (m.writeBytes a bs).size = m.size := by
  induction bs generalizing m a with
  | nil => rfl
  | cons b bs ih => simp [Memory.writeBytes, ih]

/-- A string write leaves every address outside its bytes alone. -/
theorem Memory.read_writeBytes_outside (m : Memory) (a : Nat) (bs : List Byte) {i : Nat}
    (h : i < a ∨ a + bs.length ≤ i) : (m.writeBytes a bs).read i = m.read i := by
  induction bs generalizing m a with
  | nil => rfl
  | cons b bs ih =>
    simp only [List.length_cons] at h
    simp only [Memory.writeBytes]
    rw [ih _ _ (by omega), Memory.read_write_other m (by omega)]

/-- A string write inside memory keeps the canonical form. -/
theorem Memory.wf_writeBytes {m : Memory} (h : m.wf = true) {a : Nat} {bs : List Byte}
    (hb : a + bs.length ≤ m.size) : (m.writeBytes a bs).wf = true := by
  induction bs generalizing m a with
  | nil => exact h
  | cons b bs ih =>
    simp only [List.length_cons] at hb
    exact ih (Memory.wf_write h (by omega) b) (by simp only [Memory.size_write]; omega)

/-- `MEM[addr+i] <- v[i]` (R52). -/
theorem Memory.read_writeBytes_inside {m : Memory} (h : m.wf = true) {a : Nat} {bs : List Byte}
    (hb : a + bs.length ≤ m.size) (i : Nat) (hi : i < bs.length) : (m.writeBytes a bs).read (a + i) = bs[i] := by
  induction bs generalizing m a i with
  | nil => simp at hi
  | cons b bs ih =>
    simp only [List.length_cons] at hb hi
    have hw := Memory.wf_write h (a := a) (by omega) b
    simp only [Memory.writeBytes]
    cases i with
    | zero =>
      rw [Memory.read_writeBytes_outside _ _ _ (by omega)]
      exact Memory.read_write_same h a b
    | succ i =>
      have := ih hw (a := a + 1) (by simp only [Memory.size_write]; omega) i (by omega)
      simp only [List.getElem_cons_succ]
      rw [← this]
      congr 1
      omega

/-- Reading back the string just written. -/
theorem Memory.readBytes_writeBytes_same {m : Memory} (h : m.wf = true) {a : Nat} {bs : List Byte}
    (hb : a + bs.length ≤ m.size) : (m.writeBytes a bs).readBytes a bs.length = bs := by
  apply List.ext_getElem (by simp)
  intro i h1 h2
  rw [Memory.readBytes_getElem]
  exact Memory.read_writeBytes_inside h hb i h2

/-- Reading a range disjoint from the bytes written. -/
theorem Memory.readBytes_writeBytes_disjoint (m : Memory) (a : Nat) (bs : List Byte) (a' n : Nat)
    (h : n = 0 ∨ bs.length = 0 ∨ a' + n ≤ a ∨ a + bs.length ≤ a') :
    (m.writeBytes a bs).readBytes a' n = m.readBytes a' n := by
  apply Memory.readBytes_congr
  intro i h1 h2
  by_cases h0 : bs.length = 0
  · cases bs with
    | nil => rfl
    | cons b bs => simp at h0
  · exact Memory.read_writeBytes_outside m a bs (by omega)

@[simp] theorem Memory.readRange_length (m : Memory) (r : Range) : (m.readRange r).length = r.len :=
  Memory.readBytes_length m r.addr r.len

/-- Equal canonical memories have equal listings: a listing is determined by what it reads. -/
theorem cellsWf_ext {lo hi : Nat} (cs ds : List Host.Cell) (hc : cellsWf lo hi cs = true)
    (hd : cellsWf lo hi ds = true) (h : ∀ a, cellsRead a cs = cellsRead a ds) : cs = ds := by
  have low : ∀ (es : List Host.Cell) (l a : Nat), cellsWf l hi es = true → a < l →
      cellsRead a es = Config.unlistedByte := by
    intro es
    induction es with
    | nil => intros; rfl
    | cons e es ih =>
      obtain ⟨x, y⟩ := e
      intro l a he ha
      simp only [cellsWf, Bool.and_eq_true, decide_eq_true_eq] at he
      have hx : a ≠ x := by omega
      simp only [cellsRead, hx, if_false]
      exact ih _ _ he.2 (by omega)
  induction cs generalizing lo ds with
  | nil =>
    cases ds with
    | nil => rfl
    | cons d ds =>
      obtain ⟨x, y⟩ := d
      simp only [cellsWf, Bool.and_eq_true, decide_eq_true_eq] at hd
      have := h x
      simp only [cellsRead, if_true] at this
      exact absurd this.symm hd.1.2
  | cons c cs ih =>
    obtain ⟨x, y⟩ := c
    have hc' := hc
    simp only [cellsWf, Bool.and_eq_true, decide_eq_true_eq] at hc
    cases ds with
    | nil =>
      have := h x
      simp only [cellsRead, if_true] at this
      exact absurd this hc.1.2
    | cons d ds =>
      obtain ⟨z, w⟩ := d
      have hd' := hd
      simp only [cellsWf, Bool.and_eq_true, decide_eq_true_eq] at hd
      have hxz : x = z := by
        rcases Nat.lt_trichotomy x z with hlt | heq | hgt
        · have := h x
          have hz : x ≠ z := by omega
          simp only [cellsRead, if_true, hz, if_false] at this
          rw [low ds _ x hd.2 (by omega)] at this
          exact absurd this hc.1.2
        · exact heq
        · have := h z
          have hx : z ≠ x := by omega
          simp only [cellsRead, if_true, hx, if_false] at this
          rw [low cs _ z hc.2 (by omega)] at this
          exact absurd this.symm hd.1.2
      subst hxz
      have hyw : y = w := by simpa [cellsRead] using h x
      subst hyw
      congr 1
      apply ih ds hc.2 hd.2
      intro a
      by_cases hax : a = x
      · subst hax
        rw [low cs _ a hc.2 (by omega), low ds _ a hd.2 (by omega)]
      · have := h a
        simpa only [cellsRead, hax, if_false] using this

/-- Two canonical memories of one size that read alike are equal. -/
theorem Memory.ext_read {m m' : Memory} (h : m.wf = true) (h' : m'.wf = true) (hs : m.size = m'.size)
    (hr : ∀ a, m.read a = m'.read a) : m = m' := by
  cases m with | mk size cells =>
  cases m' with | mk size' cells' =>
  simp only at hs
  subst hs
  have := cellsWf_ext cells cells' ((Memory.wf_iff _).mp h).1 ((Memory.wf_iff _).mp h').1 hr
  rw [this]

end Sys2Proof.Machine
end

