-- ==== Sys2Proof/Laws/ChaCha.lean ====
section
/-! SUPPORT. What the ChaCha20 unit's shared operations can do: a block leaves `S` and the flag, the stream leaves every
byte outside its range, keeps memory canonical and its size, and on the machine touches the ChaCha20 unit and memory
only. -/

namespace Sys2Proof.Machine

@[simp] theorem block_s (dp : Datapath) (u : ChaChaUnit) : (block dp u).s = u.s := by cases dp <;> rfl
@[simp] theorem block_live (dp : Datapath) (u : ChaChaUnit) : (block dp u).live = u.live := by cases dp <;> rfl

@[simp] theorem bumpCounter_x (u : ChaChaUnit) : (bumpCounter u).x = u.x := rfl
@[simp] theorem bumpCounter_ks (u : ChaChaUnit) : (bumpCounter u).ks = u.ks := rfl
@[simp] theorem bumpCounter_live (u : ChaChaUnit) : (bumpCounter u).live = u.live := rfl

/-- The increment moves word 12 alone (R111). -/
theorem bumpCounter_s (u : ChaChaUnit) : (bumpCounter u).s = u.s.set 12 (u.s.get 12 + 1#32) := rfl

/-- The counter reached by two runs of increments (R111). -/
theorem Words16.set_set (x : Words16) (i : Fin 16) (v w : Word) : (x.set i v).set i w = x.set i w := by
  apply Words16.ext_get
  intro j
  by_cases h : i = j
  · subst h
    simp
  · simp [Words16.get_set_other, h]

@[simp] theorem Words16.set_get_self (x : Words16) (i : Fin 16) : x.set i (x.get i) = x := by
  apply Words16.ext_get
  intro j
  by_cases h : i = j
  · subst h
    simp
  · simp [Words16.get_set_other, h]

@[simp] theorem xorBytes_length (a b : List Byte) : (xorBytes a b).length = min a.length b.length := by
  simp [xorBytes]

@[simp] theorem store32le_length (v : Word) : (store32le v).length = 4 := rfl

/-- A keystream block has 64 bytes (R108). -/
@[simp] theorem serialize_length (x : Words16) : (serialize x).length = 64 := rfl

@[simp] theorem storeRows_length (v : Rows) : (storeRows v).length = 64 := rfl

/-! ### One stretch -/

/-- A stretch of at most 64 bytes writes exactly its own bytes. -/
theorem xorStretch_written (dp : Datapath) (addr n : Nat) (um : ChaChaUnit × Memory) (h : n ≤ 64) :
    (xorBytes (um.2.readBytes addr n) (block dp um.1).ks.toList).length = n := by
  simp
  omega

@[simp] theorem xorStretch_live (dp : Datapath) (addr n : Nat) (um : ChaChaUnit × Memory) :
    (xorStretch dp addr n um).1.live = um.1.live := by simp [xorStretch]

@[simp] theorem xorStretch_size (dp : Datapath) (addr n : Nat) (um : ChaChaUnit × Memory) :
    (xorStretch dp addr n um).2.size = um.2.size := by simp [xorStretch]

theorem xorStretch_outside (dp : Datapath) (addr n : Nat) (um : ChaChaUnit × Memory) {a : Nat}
    (h : a < addr ∨ addr + n ≤ a) : (xorStretch dp addr n um).2.read a = um.2.read a := by
  apply Memory.read_writeBytes_outside
  rw [xorBytes_length, Memory.readBytes_length]
  have := Nat.min_le_left n (block dp um.1).ks.toList.length
  omega

theorem xorStretch_wf (dp : Datapath) {addr n : Nat} {um : ChaChaUnit × Memory} (hw : um.2.wf = true)
    (hb : addr + n ≤ um.2.size) : (xorStretch dp addr n um).2.wf = true := by
  apply Memory.wf_writeBytes hw
  rw [xorBytes_length, Memory.readBytes_length]
  have := Nat.min_le_left n (block dp um.1).ks.toList.length
  omega

/-! ### The stream -/

@[simp] theorem xorStretches_live (dp : Datapath) (k addr len : Nat) (um : ChaChaUnit × Memory) :
    (xorStretches dp k addr len um).1.live = um.1.live := by
  induction k generalizing addr len um with
  | zero => rfl
  | succ k ih => simp [xorStretches, ih]

@[simp] theorem xorStretches_size (dp : Datapath) (k addr len : Nat) (um : ChaChaUnit × Memory) :
    (xorStretches dp k addr len um).2.size = um.2.size := by
  induction k generalizing addr len um with
  | zero => rfl
  | succ k ih => simp [xorStretches, ih]

theorem xorStretches_outside (dp : Datapath) (k addr len : Nat) (um : ChaChaUnit × Memory) {a : Nat}
    (h : a < addr ∨ addr + len ≤ a) : (xorStretches dp k addr len um).2.read a = um.2.read a := by
  induction k generalizing addr len um with
  | zero => rfl
  | succ k ih =>
    rw [xorStretches, ih _ _ _ (by omega), xorStretch_outside]
    omega

theorem xorStretches_wf (dp : Datapath) (k : Nat) {addr len : Nat} {um : ChaChaUnit × Memory} (hw : um.2.wf = true)
    (hb : addr + len ≤ um.2.size) : (xorStretches dp k addr len um).2.wf = true := by
  induction k generalizing addr len um with
  | zero => exact hw
  | succ k ih =>
    rw [xorStretches]
    exact ih (xorStretch_wf dp hw (by omega)) (by rw [xorStretch_size]; omega)

@[simp] theorem xorStream_live (dp : Datapath) (r : Range) (um : ChaChaUnit × Memory) :
    (xorStream dp r um).1.live = um.1.live := xorStretches_live _ _ _ _ _

@[simp] theorem xorStream_size (dp : Datapath) (r : Range) (um : ChaChaUnit × Memory) :
    (xorStream dp r um).2.size = um.2.size := xorStretches_size _ _ _ _ _

/-- The stream leaves every byte outside its range alone (R57, R112). -/
theorem xorStream_outside (dp : Datapath) (r : Range) (um : ChaChaUnit × Memory) {a : Nat} (h : ¬ r.Holds a) :
    (xorStream dp r um).2.read a = um.2.read a := by
  apply xorStretches_outside
  unfold Range.Holds at h
  omega

theorem xorStream_wf (dp : Datapath) {r : Range} {um : ChaChaUnit × Memory} (hw : um.2.wf = true)
    (hb : r.len = 0 ∨ r.addr + r.len ≤ um.2.size) : (xorStream dp r um).2.wf = true := by
  rcases hb with hb | hb
  · simpa [xorStream, hb, blockCount, xorStretches] using hw
  · exact xorStretches_wf dp _ hw hb

/-- No block is generated for an empty range (R113). -/
theorem xorStream_empty (dp : Datapath) {r : Range} (um : ChaChaUnit × Memory) (h : r.len = 0) :
    xorStream dp r um = um := by
  simp [xorStream, h, blockCount, xorStretches]

/-! ### The stream on the machine -/

section xorStreamOn
variable (r : Range) (s : State)
/-- The stream touches memory and the ChaCha20 unit and nothing else. -/
theorem xorStreamOn_eq :
    xorStreamOn r s =
      (s.withCc (xorStream s.datapath r (s.ctx.cc, s.mem)).1).withMem
        (xorStream s.datapath r (s.ctx.cc, s.mem)).2 := rfl
@[simp] theorem xorStreamOn_key : (xorStreamOn r s).key = s.key := rfl
@[simp] theorem xorStreamOn_keyValid : (xorStreamOn r s).keyValid = s.keyValid := rfl
@[simp] theorem xorStreamOn_cap : (xorStreamOn r s).cap = s.cap := rfl
@[simp] theorem xorStreamOn_mem : (xorStreamOn r s).mem = (xorStream s.datapath r (s.ctx.cc, s.mem)).2 := rfl
@[simp] theorem xorStreamOn_cc : (xorStreamOn r s).ctx.cc = (xorStream s.datapath r (s.ctx.cc, s.mem)).1 := rfl
@[simp] theorem xorStreamOn_poly : (xorStreamOn r s).ctx.poly = s.ctx.poly := rfl
@[simp] theorem xorStreamOn_ae : (xorStreamOn r s).ctx.ae = s.ctx.ae := rfl
@[simp] theorem xorStreamOn_status : (xorStreamOn r s).ctx.status = s.ctx.status := rfl
@[simp] theorem xorStreamOn_value : (xorStreamOn r s).ctx.value = s.ctx.value := rfl
@[simp] theorem xorStreamOn_port : (xorStreamOn r s).ctx.port = s.ctx.port := rfl
@[simp] theorem xorStreamOn_cur : (xorStreamOn r s).cur = s.cur := rfl
@[simp] theorem xorStreamOn_others : (xorStreamOn r s).others = s.others := rfl
@[simp] theorem xorStreamOn_moves : (xorStreamOn r s).moves = s.moves := rfl
end xorStreamOn

end Sys2Proof.Machine
end

