-- ==== Sys2Proof/Laws/Poly.lean ====
section
/-! SUPPORT. What the Poly1305 unit's shared operations can do: which registers each of them writes, and how the
absorber's buffer moves. -/

namespace Sys2Proof.Machine

/-! ### Registers -/

section polyKey
variable (k : List Byte) (live : Bool) (p : PolyUnit)
@[simp] theorem polyKey_r : (polyKey k live p).r = clampLoadR k := rfl
@[simp] theorem polyKey_s : (polyKey k live p).s = multiples (clampLoadR k) := rfl
@[simp] theorem polyKey_pad : (polyKey k live p).pad = loadPad k := rfl
@[simp] theorem polyKey_h : (polyKey k live p).h = .zero := rfl
@[simp] theorem polyKey_buf : (polyKey k live p).buf = zeroBytes 16 := rfl
@[simp] theorem polyKey_leftover : (polyKey k live p).leftover = 0 := rfl
@[simp] theorem polyKey_final : (polyKey k live p).final = false := rfl
@[simp] theorem polyKey_live : (polyKey k live p).live = live := rfl
end polyKey

/-- `PBLOCK` writes the accumulator and clears `d`, `c`, `t` and `b`; everything else stays (R159). -/
theorem pblock_eq (m : List Byte) (p : PolyUnit) :
    pblock m p =
      { p with h := limbCarry (limbMul (limbAdd p.h (unpack m (!p.final))) p.r p.s),
               d := .zero, c := 0, t := .zero, b := .zero } := rfl

section pblock
variable (m : List Byte) (p : PolyUnit)
@[simp] theorem pblock_h :
    (pblock m p).h = limbCarry (limbMul (limbAdd p.h (unpack m (!p.final))) p.r p.s) := rfl
@[simp] theorem pblock_r : (pblock m p).r = p.r := rfl
@[simp] theorem pblock_s : (pblock m p).s = p.s := rfl
@[simp] theorem pblock_pad : (pblock m p).pad = p.pad := rfl
@[simp] theorem pblock_buf : (pblock m p).buf = p.buf := rfl
@[simp] theorem pblock_leftover : (pblock m p).leftover = p.leftover := rfl
@[simp] theorem pblock_final : (pblock m p).final = p.final := rfl
@[simp] theorem pblock_live : (pblock m p).live = p.live := rfl
@[simp] theorem pblock_d : (pblock m p).d = .zero := rfl
@[simp] theorem pblock_c : (pblock m p).c = 0#32 := rfl
@[simp] theorem pblock_g : (pblock m p).g = p.g := rfl
@[simp] theorem pblock_mask : (pblock m p).mask = p.mask := rfl
@[simp] theorem pblock_f : (pblock m p).f = p.f := rfl
@[simp] theorem pblock_b : (pblock m p).b = .zero := rfl
@[simp] theorem pblock_t : (pblock m p).t = .zero := rfl
@[simp] theorem pblock_w : (pblock m p).w = p.w := rfl
end pblock

/-- The registers no absorber step writes: `r`, `s`, `pad`, the flags and the finisher's scratch. -/
structure SameKeying (p q : PolyUnit) : Prop where
  r : q.r = p.r
  s : q.s = p.s
  pad : q.pad = p.pad
  final : q.final = p.final
  live : q.live = p.live
  g : q.g = p.g
  mask : q.mask = p.mask
  f : q.f = p.f
  w : q.w = p.w

theorem SameKeying.refl (p : PolyUnit) : SameKeying p p := ⟨rfl, rfl, rfl, rfl, rfl, rfl, rfl, rfl, rfl⟩

theorem SameKeying.trans {p q o : PolyUnit} (h : SameKeying p q) (k : SameKeying q o) : SameKeying p o :=
  ⟨k.r.trans h.r, k.s.trans h.s, k.pad.trans h.pad, k.final.trans h.final, k.live.trans h.live, k.g.trans h.g,
    k.mask.trans h.mask, k.f.trans h.f, k.w.trans h.w⟩

theorem pblock_sameKeying (m : List Byte) (p : PolyUnit) : SameKeying p (pblock m p) :=
  ⟨rfl, rfl, rfl, rfl, rfl, rfl, rfl, rfl, rfl⟩

theorem absorbBlocks_sameKeying (k : Nat) (m : List Byte) (p : PolyUnit) : SameKeying p (absorbBlocks k m p) := by
  induction k generalizing m p with
  | zero => exact .refl p
  | succ k ih => exact (pblock_sameKeying _ p).trans (ih _ _)

@[simp] theorem absorbBlocks_buf (k : Nat) (m : List Byte) (p : PolyUnit) : (absorbBlocks k m p).buf = p.buf := by
  induction k generalizing m p with
  | zero => rfl
  | succ k ih => simp [absorbBlocks, ih]

@[simp] theorem absorbBlocks_leftover (k : Nat) (m : List Byte) (p : PolyUnit) :
    (absorbBlocks k m p).leftover = p.leftover := by
  induction k generalizing m p with
  | zero => rfl
  | succ k ih => simp [absorbBlocks, ih]

/-- The accumulator after some blocks depends on `h`, `r`, `s` and `final` alone. -/
theorem absorbBlocks_h_congr (k : Nat) (m : List Byte) {p q : PolyUnit} (hh : q.h = p.h) (hr : q.r = p.r)
    (hs : q.s = p.s) (hf : q.final = p.final) : (absorbBlocks k m q).h = (absorbBlocks k m p).h := by
  induction k generalizing m p q with
  | zero => exact hh
  | succ k ih =>
    apply ih
    · simp [hh, hr, hs, hf]
    · simpa using hr
    · simpa using hs
    · simpa using hf

/-- Blocks are absorbed one after another. -/
theorem absorbBlocks_succ (k : Nat) (m : List Byte) (p : PolyUnit) :
    absorbBlocks (k + 1) m p = absorbBlocks k (m.drop 16) (pblock (m.take 16) p) := rfl

/-- A whole number of blocks followed by more. -/
theorem absorbBlocks_add (j k : Nat) (m : List Byte) (p : PolyUnit) :
    absorbBlocks (j + k) m p = absorbBlocks k (m.drop (16 * j)) (absorbBlocks j m p) := by
  induction j generalizing m p with
  | zero => simp [absorbBlocks]
  | succ j ih =>
    rw [show j + 1 + k = (j + k) + 1 by omega, absorbBlocks_succ, ih, absorbBlocks_succ, List.drop_drop]
    congr 2
    omega

/-- Only the bytes of the absorbed blocks matter. -/
theorem absorbBlocks_append (k : Nat) (m n : List Byte) (p : PolyUnit) (h : 16 * k ≤ m.length) :
    absorbBlocks k (m ++ n) p = absorbBlocks k m p := by
  induction k generalizing m p with
  | zero => rfl
  | succ k ih =>
    rw [absorbBlocks_succ, absorbBlocks_succ, List.take_append_of_le_length (by omega),
      List.drop_append_of_le_length (by omega)]
    exact ih _ _ (by simp; omega)

/-! ### The buffer -/

theorem bufWrite_getElem (buf : Vector Byte 16) (pos : Nat) (bs : List Byte) (i : Nat) (h : i < 16) :
    (bufWrite buf pos bs)[i] = if pos ≤ i ∧ i < pos + bs.length then bs.getD (i - pos) 0#8 else buf[i] := by
  simp [bufWrite]

/-- Writing nothing changes nothing. -/
@[simp] theorem bufWrite_nil (buf : Vector Byte 16) (pos : Nat) : bufWrite buf pos [] = buf := by
  apply Vector.ext
  intro i h
  rw [bufWrite_getElem]
  simp

/-- The buffered bytes, then those just written after them. -/
theorem bufWrite_take (buf : Vector Byte 16) (pos : Nat) (bs : List Byte) (h : pos + bs.length ≤ 16) :
    (bufWrite buf pos bs).toList.take (pos + bs.length) = buf.toList.take pos ++ bs := by
  apply List.ext_getElem
  · simp
    omega
  · intro i h1 h2
    have hi : i < pos + bs.length := by simp at h1; omega
    rw [List.getElem_take, Vector.getElem_toList, bufWrite_getElem _ _ _ _ (by omega)]
    by_cases hp : i < pos
    · rw [List.getElem_append_left (by simp; omega)]
      simp [Nat.not_le.mpr hp]
    · have hlen : (buf.toList.take pos).length = pos := by simp; omega
      rw [List.getElem_append_right (by omega)]
      have : i - pos < bs.length := by omega
      simp only [hlen, List.getD_eq_getElem?_getD]
      rw [if_pos ⟨by omega, hi⟩, List.getElem?_eq_getElem this]
      rfl

/-- A count below 32 fits the five bits of `leftover` (R27). -/
theorem leftover_toNat {n : Nat} (h : n < 32) : (BitVec.ofNat 5 n).toNat = n := by
  rw [BitVec.toNat_ofNat]
  exact Nat.mod_eq_of_lt h

/-- R186's sum `leftover + want` never passes 16 from a count of at most 16, nor wraps from any. -/
theorem leftover_add_want (l : BitVec 5) (n : Nat) :
    (l + BitVec.ofNat 5 (min (16 - l.toNat) n)).toNat = l.toNat + min (16 - l.toNat) n := by
  have hl := l.isLt
  rw [BitVec.toNat_add, leftover_toNat (by omega)]
  exact Nat.mod_eq_of_lt (by omega)

/-! ### The absorber, by its cases -/

/-- The bytes of `m` past its whole blocks. -/
def blockTail (m : List Byte) : List Byte := m.drop (16 * (m.length / 16))

theorem blockTail_length (m : List Byte) : (blockTail m).length = m.length % 16 := by
  simp only [blockTail, List.length_drop]
  omega

theorem absorbAligned_whole {m : List Byte} (h : (blockTail m).length = 0) (p : PolyUnit) :
    absorbAligned m p = absorbBlocks (m.length / 16) m p := by
  simp only [absorbAligned]
  exact if_pos h

theorem absorbAligned_tail {m : List Byte} (h : (blockTail m).length ≠ 0) (p : PolyUnit) :
    absorbAligned m p =
      { absorbBlocks (m.length / 16) m p with
        buf := bufWrite p.buf 0 (blockTail m), leftover := BitVec.ofNat 5 (blockTail m).length } := by
  simp only [absorbAligned, absorbBlocks_buf]
  exact if_neg h

theorem absorb_aligned {p : PolyUnit} (h : p.leftover.toNat = 0) (m : List Byte) : absorb m p = absorbAligned m p := by
  simp only [absorb]
  exact if_pos h

theorem absorb_short {p : PolyUnit} {m : List Byte} (h0 : p.leftover.toNat ≠ 0) (h : p.leftover.toNat + m.length < 16) :
    absorb m p =
      { p with buf := bufWrite p.buf p.leftover.toNat m,
               leftover := p.leftover + BitVec.ofNat 5 m.length } := by
  have hs := leftover_add_want p.leftover m.length
  have hw : min (16 - p.leftover.toNat) m.length = m.length := by omega
  rw [hw] at hs
  simp only [absorb, hw, List.take_length]
  rw [if_neg h0, if_pos (by omega)]

/-- The unit after the buffer has been filled from `m` and absorbed. -/
def fillBlock (m : List Byte) (p : PolyUnit) : PolyUnit :=
  { pblock (bufWrite p.buf p.leftover.toNat (m.take (16 - p.leftover.toNat))).toList
      { p with buf := bufWrite p.buf p.leftover.toNat (m.take (16 - p.leftover.toNat)) } with leftover := 0 }

theorem absorb_fill {p : PolyUnit} {m : List Byte} (h0 : p.leftover.toNat ≠ 0) (h : 16 ≤ p.leftover.toNat + m.length) :
    absorb m p = absorbAligned (m.drop (16 - p.leftover.toNat)) (fillBlock m p) := by
  have hs := leftover_add_want p.leftover m.length
  have hw : min (16 - p.leftover.toNat) m.length = 16 - p.leftover.toNat := by omega
  rw [hw] at hs
  simp only [absorb, hw]
  rw [if_neg h0, if_neg (by omega)]
  rfl

theorem absorbAligned_sameKeying (m : List Byte) (p : PolyUnit) : SameKeying p (absorbAligned m p) := by
  have h := absorbBlocks_sameKeying (m.length / 16) m p
  by_cases hl : (blockTail m).length = 0
  · rw [absorbAligned_whole hl]
    exact h
  · rw [absorbAligned_tail hl]
    exact ⟨h.r, h.s, h.pad, h.final, h.live, h.g, h.mask, h.f, h.w⟩

/-- `ABSORB` writes neither the key's registers nor the flags (R181, R186). -/
theorem absorb_sameKeying (m : List Byte) (p : PolyUnit) : SameKeying p (absorb m p) := by
  by_cases h0 : p.leftover.toNat = 0
  · rw [absorb_aligned h0]
    exact absorbAligned_sameKeying m p
  · by_cases hs : p.leftover.toNat + m.length < 16
    · rw [absorb_short h0 hs]
      exact ⟨rfl, rfl, rfl, rfl, rfl, rfl, rfl, rfl, rfl⟩
    · rw [absorb_fill h0 (by omega)]
      exact SameKeying.trans (q := fillBlock m p) ⟨rfl, rfl, rfl, rfl, rfl, rfl, rfl, rfl, rfl⟩
        (absorbAligned_sameKeying _ _)

/-- The bytes waiting for a block. -/
def pending (p : PolyUnit) : List Byte := p.buf.toList.take p.leftover.toNat

@[simp] theorem pending_length (p : PolyUnit) : (pending p).length = min p.leftover.toNat 16 := by
  simp only [pending, List.length_take, Vector.length_toList]

theorem absorbAligned_spec (m : List Byte) (p : PolyUnit) (h : p.leftover.toNat = 0) :
    (absorbAligned m p).h = (absorbBlocks (m.length / 16) m p).h ∧
    (absorbAligned m p).leftover.toNat = m.length % 16 ∧
    pending (absorbAligned m p) = blockTail m := by
  by_cases hl : (blockTail m).length = 0
  · rw [absorbAligned_whole hl]
    refine ⟨rfl, ?_, ?_⟩
    · rw [absorbBlocks_leftover, h, ← blockTail_length, hl]
    · rw [List.length_eq_zero_iff.mp hl]
      exact List.length_eq_zero_iff.mp (by rw [pending_length, absorbBlocks_leftover, h, Nat.zero_min])
  · rw [absorbAligned_tail hl]
    have hlen := blockTail_length m
    have hlt : (blockTail m).length < 16 := by omega
    refine ⟨rfl, ?_, ?_⟩
    · rw [leftover_toNat (by omega), hlen]
    · have := bufWrite_take p.buf 0 (blockTail m) (by omega)
      simp only [pending, leftover_toNat (show (blockTail m).length < 32 by omega)]
      simpa using this

/-- What `ABSORB` does, said once: with `B` the waiting bytes and then the data, the accumulator has absorbed the
whole blocks of `B`, and the rest of `B` waits in the buffer (R181, R186). -/
theorem absorb_spec (m : List Byte) (p : PolyUnit) :
    (absorb m p).h = (absorbBlocks ((pending p ++ m).length / 16) (pending p ++ m) p).h ∧
    (absorb m p).leftover.toNat = (pending p ++ m).length % 16 ∧
    pending (absorb m p) = blockTail (pending p ++ m) := by
  have hpl := pending_length p
  by_cases h0 : p.leftover.toNat = 0
  · have hp : pending p = [] := List.length_eq_zero_iff.mp (by omega)
    rw [absorb_aligned h0, hp, List.nil_append]
    exact absorbAligned_spec m p h0
  · have hB : (pending p ++ m).length = min p.leftover.toNat 16 + m.length := by simp
    by_cases hs : p.leftover.toNat + m.length < 16
    · rw [absorb_short h0 hs]
      have hd : (pending p ++ m).length / 16 = 0 := by omega
      have hl := leftover_add_want p.leftover m.length
      rw [Nat.min_eq_right (by omega)] at hl
      refine ⟨by rw [hd]; rfl, ?_, ?_⟩
      · simp only [hl, hB]
        omega
      · have hb := bufWrite_take p.buf p.leftover.toNat m (by omega)
        rw [blockTail, hd]
        simp only [pending, hl, hb]
        rfl
    · rw [absorb_fill h0 (by omega)]
      have hm : 16 - p.leftover.toNat ≤ m.length := by omega
      have hfull : (bufWrite p.buf p.leftover.toNat (m.take (16 - p.leftover.toNat))).toList =
          pending p ++ m.take (16 - p.leftover.toNat) := by
        by_cases hl : p.leftover.toNat ≤ 16
        · have := bufWrite_take p.buf p.leftover.toNat (m.take (16 - p.leftover.toNat)) (by simp; omega)
          rw [List.length_take, Nat.min_eq_left hm,
            show p.leftover.toNat + (16 - p.leftover.toNat) = 16 by omega] at this
          rw [← List.take_of_length_le (l := (bufWrite p.buf p.leftover.toNat _).toList) (i := 16) (by simp)]
          exact this
        · rw [show 16 - p.leftover.toNat = 0 by omega, List.take_zero, bufWrite_nil, List.append_nil, pending,
            List.take_of_length_le (by simp; omega)]
      have hsplit : pending p ++ m =
          (pending p ++ m.take (16 - p.leftover.toNat)) ++ m.drop (16 - p.leftover.toNat) := by
        rw [List.append_assoc, List.take_append_drop]
      have hlen16 : (pending p ++ m.take (16 - p.leftover.toNat)).length = 16 := by
        rw [← hfull]
        simp
      have hdrop : (pending p ++ m).drop 16 = m.drop (16 - p.leftover.toNat) := by
        rw [hsplit, List.drop_append_of_le_length (by omega), List.drop_of_length_le (by omega), List.nil_append]
      have htake : (pending p ++ m).take 16 = pending p ++ m.take (16 - p.leftover.toNat) := by
        rw [hsplit, List.take_append_of_le_length (by omega), List.take_of_length_le (by omega)]
      have hdl : (m.drop (16 - p.leftover.toNat)).length = m.length - (16 - p.leftover.toNat) := by simp
      have hq : (pending p ++ m).length / 16 = (m.drop (16 - p.leftover.toNat)).length / 16 + 1 := by omega
      obtain ⟨hh, hlo, hpe⟩ := absorbAligned_spec (m.drop (16 - p.leftover.toNat)) (fillBlock m p) rfl
      refine ⟨?_, ?_, ?_⟩
      · rw [hh, hq, absorbBlocks_succ, hdrop, htake, ← hfull]
        exact absorbBlocks_h_congr _ _ rfl rfl rfl rfl
      · rw [hlo]
        omega
      · rw [hpe]
        simp only [blockTail]
        rw [hq, Nat.mul_add, Nat.mul_one, Nat.add_comm, ← List.drop_drop, hdrop]

/-- An empty chunk changes nothing (R181). -/
theorem absorb_nil {p : PolyUnit} (hlt : p.leftover.toNat < 16) : absorb [] p = p := by
  by_cases h0 : p.leftover.toNat = 0
  · rw [absorb_aligned h0, absorbAligned_whole rfl]
    rfl
  · rw [absorb_short h0 (by simpa using hlt)]
    rw [bufWrite_nil, List.length_nil, BitVec.add_zero]

/-- Whatever it finds, `ABSORB` leaves fewer than 16 bytes waiting (R181). -/
theorem absorb_leftover_lt (m : List Byte) (p : PolyUnit) : (absorb m p).leftover.toNat < 16 := by
  rw [(absorb_spec m p).2.1]
  exact Nat.mod_lt _ (by norm_num)

/-! ### The finisher -/

/-- The finisher reads `r`, `s`, `h`, `pad`, `final`, `leftover` and the waiting bytes of `buf`, and no other byte of
the buffer (R182, R187). -/
theorem padLast_h (p : PolyUnit) (h : p.leftover.toNat ≠ 0) (hlt : p.leftover.toNat < 16) :
    (padLast p).h =
      (pblock (pending p ++ 0x01#8 :: List.replicate (15 - p.leftover.toNat) 0x00#8) { p with final := true }).h := by
  unfold padLast
  rw [if_neg h]
  have := bufWrite_take p.buf p.leftover.toNat (0x01#8 :: List.replicate (15 - p.leftover.toNat) 0x00#8) (by simp; omega)
  rw [show p.leftover.toNat + (0x01#8 :: List.replicate (15 - p.leftover.toNat) 0x00#8).length = 16 by simp; omega,
    List.take_of_length_le (by simp)] at this
  simp only [pblock_h, this]
  rfl

@[simp] theorem padLast_pad (p : PolyUnit) : (padLast p).pad = p.pad := by
  unfold padLast
  split <;> rfl

@[simp] theorem fullCarry_pad (p : PolyUnit) : (fullCarry p).pad = p.pad := rfl
@[simp] theorem condSub_pad (p : PolyUnit) : (condSub p).pad = p.pad := rfl

/-- `FULLCARRY; CSUB` on the accumulator alone. -/
theorem condSub_fullCarry_h_congr {p q : PolyUnit} (h : q.h = p.h) :
    (condSub (fullCarry q)).h = (condSub (fullCarry p)).h := by
  simp only [condSub, fullCarry, h]

/-- `ADDPAD` on the packed words and the pad alone. -/
theorem addPad_w_congr {p q : PolyUnit} (hw : q.w = p.w) (hp : q.pad = p.pad) : (addPad q).w = (addPad p).w := by
  simp only [addPad, hw, hp]

/-- The tag depends on the accumulator after the last block and on the pad. -/
theorem tagBytesOf_congr {p q : PolyUnit} (h : (padLast q).h = (padLast p).h) (hp : q.pad = p.pad) :
    tagBytesOf q = tagBytesOf p := by
  have hr := condSub_fullCarry_h_congr h
  unfold tagBytesOf tagFin
  rw [addPad_w_congr (p := { condSub (fullCarry (padLast p)) with w := pack128 (condSub (fullCarry (padLast p))).h })]
  · simp only [hr]
  · simp [hp]

@[simp] theorem tagOut_length (w : Quad) : (tagOut w).length = 16 := rfl

/-- A tag has 16 bytes (R11, R165). -/
@[simp] theorem tagBytesOf_length (p : PolyUnit) : (tagBytesOf p).length = 16 := rfl

end Sys2Proof.Machine
end

