-- ==== Sys2Proof/Laws/Aead.lean ====
section
/-! SUPPORT. What the orchestrator's shared operations can do: deriving the one-time key and the tag write registers of
the context only, the stream writes its range only, and an encryption or a decryption ends in `aeadDone`. -/

namespace Sys2Proof.Machine

/-- Two machines that differ at most in memory, the units of the active context and its response. -/
structure SameOutside (s t : State) : Prop where
  key : t.key = s.key
  keyValid : t.keyValid = s.keyValid
  cap : t.cap = s.cap
  cur : t.cur = s.cur
  others : t.others = s.others
  moves : t.moves = s.moves
  port : t.ctx.port = s.ctx.port

theorem SameOutside.refl (s : State) : SameOutside s s := ⟨rfl, rfl, rfl, rfl, rfl, rfl, rfl⟩

theorem SameOutside.trans {s t u : State} (h : SameOutside s t) (k : SameOutside t u) : SameOutside s u :=
  ⟨k.key.trans h.key, k.keyValid.trans h.keyValid, k.cap.trans h.cap, k.cur.trans h.cur, k.others.trans h.others,
    k.moves.trans h.moves, k.port.trans h.port⟩

/-- The selection a command uses does not depend on what the orchestrator writes (R241). -/
theorem SameOutside.datapath {s t : State} (h : SameOutside s t) : t.datapath = s.datapath := by
  unfold State.datapath
  rw [h.port, h.cap]

theorem sameOutside_withPhase (p : Phase) (s : State) : SameOutside s (s.withPhase p) :=
  ⟨rfl, rfl, rfl, rfl, rfl, rfl, rfl⟩
theorem sameOutside_withMem (m : Memory) (s : State) : SameOutside s (s.withMem m) :=
  ⟨rfl, rfl, rfl, rfl, rfl, rfl, rfl⟩
theorem sameOutside_withCc (u : ChaChaUnit) (s : State) : SameOutside s (s.withCc u) :=
  ⟨rfl, rfl, rfl, rfl, rfl, rfl, rfl⟩
theorem sameOutside_withPoly (u : PolyUnit) (s : State) : SameOutside s (s.withPoly u) :=
  ⟨rfl, rfl, rfl, rfl, rfl, rfl, rfl⟩
theorem sameOutside_withAe (u : AeadUnit) (s : State) : SameOutside s (s.withAe u) :=
  ⟨rfl, rfl, rfl, rfl, rfl, rfl, rfl⟩

theorem sameOutside_otkGen (nonce : List Byte) (s : State) : SameOutside s (otkGen nonce s) := by
  unfold otkGen
  exact (sameOutside_withAe _ s).trans (sameOutside_withCc _ _)

theorem sameOutside_tagGen (aad ct : Range) (s : State) : SameOutside s (tagGen aad ct s) := by
  unfold tagGen
  exact ((sameOutside_withAe _ s).trans (sameOutside_withPoly _ _)).trans (sameOutside_withAe _ _)

theorem sameOutside_copyAndStream (src dst : Range) (s : State) : SameOutside s (copyAndStream src dst s) := by
  unfold copyAndStream
  rw [xorStreamOn_eq]
  exact ((sameOutside_withMem _ s).trans (sameOutside_withCc _ _)).trans (sameOutside_withMem _ _)

/-! ### One-time key and tag -/

@[simp] theorem otkGen_mem (nonce : List Byte) (s : State) : (otkGen nonce s).mem = s.mem := by
  simp only [otkGen, State.withCc_mem, State.withAe_mem]

/-- The ChaCha20 state left for the data, with counter 1 (R203). -/
theorem otkGen_s (nonce : List Byte) (s : State) :
    (otkGen nonce s).ctx.cc.s = chachaState s.key.toList 1#32 nonce := by
  simp only [otkGen, State.withCc_cc, block_s]
  rfl

@[simp] theorem otkGen_poly (nonce : List Byte) (s : State) : (otkGen nonce s).ctx.poly = s.ctx.poly := by
  simp only [otkGen, State.withCc_poly, State.withAe_poly]

@[simp] theorem tagGen_mem (aad ct : Range) (s : State) : (tagGen aad ct s).mem = s.mem := by
  simp only [tagGen, State.withAe_mem, State.withPoly_mem]

@[simp] theorem tagGen_cc (aad ct : Range) (s : State) : (tagGen aad ct s).ctx.cc = s.ctx.cc := by
  simp only [tagGen, State.withAe_cc, State.withPoly_cc]

/-- A wiped context whose `PHASE` is back at `IDLE`: the machine after an `AE.*` command (R213, R217). -/
theorem wiped_eq_aeadDone {s t : State} (h : SameOutside s t) (st : Status) :
    ((((t.withPhase .wipe) |> wipeAe).withPhase .idle).respond st 0#32) = aeadDone t.mem st.code s := by
  obtain ⟨h1, h2, h3, h4, h5, h6, h7⟩ := h
  cases s with | mk key keyValid cap mem ctx cur others moves =>
  cases t with | mk key' keyValid' cap' mem' ctx' cur' others' moves' =>
  cases ctx
  cases ctx'
  simp only at h1 h2 h3 h4 h5 h6 h7
  subst h1 h2 h3 h4 h5 h6 h7
  rfl

/-! ### Copy and stream -/

@[simp] theorem copyAndStream_poly (src dst : Range) (s : State) :
    (copyAndStream src dst s).ctx.poly = s.ctx.poly := by simp only [copyAndStream, xorStreamOn_poly, State.withMem_poly]
@[simp] theorem copyAndStream_ae (src dst : Range) (s : State) : (copyAndStream src dst s).ctx.ae = s.ctx.ae := by
  simp only [copyAndStream, xorStreamOn_ae, State.withMem_ae]

/-- Only the destination is written. -/
theorem copyAndStream_mem (src dst : Range) (s : State) :
    (copyAndStream src dst s).mem =
      (xorStream s.datapath dst (s.ctx.cc, s.mem.writeBytes dst.addr (s.mem.readRange src))).2 := by
  have h := (sameOutside_withMem (s.mem.writeBytes dst.addr (s.mem.readRange src)) s).datapath
  simp only [copyAndStream, xorStreamOn_mem, State.withMem_mem, State.withMem_cc, h]

@[simp] theorem copyAndStream_size (src dst : Range) (s : State) :
    (copyAndStream src dst s).mem.size = s.mem.size := by simp [copyAndStream_mem]

theorem copyAndStream_outside {src dst : Range} (hl : src.len = dst.len) (s : State) :
    AgreeOutside s.mem (copyAndStream src dst s).mem [dst] := by
  intro a ha
  have hd : ¬ dst.Holds a := ha dst (by simp)
  rw [copyAndStream_mem, xorStream_outside _ _ _ hd]
  apply Memory.read_writeBytes_outside
  rw [Memory.readRange_length]
  unfold Range.Holds at hd
  omega

theorem copyAndStream_wf {src dst : Range} (hl : src.len = dst.len) {s : State} (hw : s.mem.wf = true)
    (hb : dst.len = 0 ∨ dst.addr + dst.len ≤ s.mem.size) : (copyAndStream src dst s).mem.wf = true := by
  rw [copyAndStream_mem]
  rcases hb with hb | hb
  · rw [xorStream_empty _ _ hb]
    have : s.mem.readRange src = [] := List.length_eq_zero_iff.mp (by rw [Memory.readRange_length, hl, hb])
    rw [this]
    exact hw
  · refine xorStream_wf _ ?_ (.inr ?_)
    · apply Memory.wf_writeBytes hw
      rw [Memory.readRange_length]
      omega
    · simpa using hb

/-! ### Encryption and decryption -/

/-- The machine of an encryption when the data is about to be streamed: `DERIVE` done. -/
def derived (nonce : Range) (s : State) : State :=
  (otkGen (s.mem.readRange nonce) (s.withPhase .derive)).withPhase .encrypt

@[simp] theorem derived_mem (nonce : Range) (s : State) : (derived nonce s).mem = s.mem := by
  simp only [derived, State.withPhase_mem, otkGen_mem]

theorem sameOutside_derived (nonce : Range) (s : State) : SameOutside s (derived nonce s) :=
  ((sameOutside_withPhase .derive s).trans (sameOutside_otkGen _ _)).trans (sameOutside_withPhase .encrypt _)

/-- The machine of an encryption after the data has been streamed: `ENCRYPT` done. -/
def encrypted (nonce pt ct : Range) (s : State) : State := copyAndStream pt ct (derived nonce s)

/-- The machine of an encryption after its tag has been computed. -/
def tagged (nonce pt aad ct : Range) (s : State) : State :=
  tagGen aad ct ((encrypted nonce pt ct s).withPhase .mac)

theorem sameOutside_encrypted (nonce pt ct : Range) (s : State) : SameOutside s (encrypted nonce pt ct s) :=
  (sameOutside_derived nonce s).trans (sameOutside_copyAndStream _ _ _)

theorem sameOutside_tagged (nonce pt aad ct : Range) (s : State) : SameOutside s (tagged nonce pt aad ct s) :=
  ((sameOutside_encrypted nonce pt ct s).trans (sameOutside_withPhase .mac _)).trans (sameOutside_tagGen _ _ _)

@[simp] theorem tagged_mem (nonce pt aad ct : Range) (s : State) :
    (tagged nonce pt aad ct s).mem = (encrypted nonce pt ct s).mem := by
  simp only [tagged, tagGen_mem, State.withPhase_mem]

/-- Memory after an encryption: the stream's, with the tag written over it (R208, D31). -/
def encryptMem (nonce pt aad ct tag : Range) (s : State) : Memory :=
  (encrypted nonce pt ct s).mem.writeBytes tag.addr (tagged nonce pt aad ct s).ctx.ae.ctag.toList

/-- What an encryption does, said once (R208, R213). -/
theorem encrypt_eq (nonce pt aad ct tag : Range) (s : State) :
    encrypt nonce pt aad ct tag s = aeadDone (encryptMem nonce pt aad ct tag s) Status.ok.code s := by
  have hw := wiped_eq_aeadDone (t := (tagged nonce pt aad ct s).withMem (encryptMem nonce pt aad ct tag s))
    ((sameOutside_tagged nonce pt aad ct s).trans (sameOutside_withMem _ _)) .ok
  rw [State.withMem_mem] at hw
  rw [← hw, encryptMem, ← tagged_mem nonce pt aad ct s]
  simp only [encrypt, tagged, encrypted, derived, State.withPhase_mem]

@[simp] theorem encrypted_size (nonce pt ct : Range) (s : State) : (encrypted nonce pt ct s).mem.size = s.mem.size := by
  simp [encrypted]

@[simp] theorem encryptMem_size (nonce pt aad ct tag : Range) (s : State) :
    (encryptMem nonce pt aad ct tag s).size = s.mem.size := by simp [encryptMem]

theorem encrypted_outside {nonce pt ct : Range} (hl : pt.len = ct.len) (s : State) :
    AgreeOutside s.mem (encrypted nonce pt ct s).mem [ct] :=
  by simpa only [derived_mem, encrypted] using copyAndStream_outside hl (derived nonce s)

theorem encrypted_wf {nonce pt ct : Range} (hl : pt.len = ct.len) {s : State} (hw : s.mem.wf = true)
    (hb : ct.len = 0 ∨ ct.addr + ct.len ≤ s.mem.size) : (encrypted nonce pt ct s).mem.wf = true :=
  copyAndStream_wf (s := derived nonce s) hl (by rwa [derived_mem]) (by rwa [derived_mem])

/-- An encryption writes its ciphertext and tag ranges only (R57). -/
theorem encryptMem_outside {nonce pt aad ct tag : Range} (hl : pt.len = ct.len) (ht : tag.len = 16) (s : State) :
    AgreeOutside s.mem (encryptMem nonce pt aad ct tag s) [ct, tag] := by
  intro a ha
  have ht' : ¬ tag.Holds a := ha tag (by simp)
  rw [encryptMem, Memory.read_writeBytes_outside]
  · exact encrypted_outside hl s a (fun r hr => ha r (by simp at hr; simp [hr]))
  · simp only [Vector.length_toList]
    unfold Range.Holds at ht'
    omega

theorem encryptMem_wf {nonce pt aad ct tag : Range} (hl : pt.len = ct.len) {s : State} (hw : s.mem.wf = true)
    (hb : ct.len = 0 ∨ ct.addr + ct.len ≤ s.mem.size) (ht : tag.addr + 16 ≤ s.mem.size) :
    (encryptMem nonce pt aad ct tag s).wf = true := by
  apply Memory.wf_writeBytes (encrypted_wf hl hw hb)
  simpa using ht

theorem sameOutside_expectTag (nonce ct aad : Range) (s : State) : SameOutside s (expectTag nonce ct aad s) := by
  unfold expectTag
  exact (((sameOutside_withPhase .derive s).trans (sameOutside_otkGen _ _)).trans
    (sameOutside_withPhase .mac _)).trans (sameOutside_tagGen _ _ _)

@[simp] theorem expectTag_mem (nonce ct aad : Range) (s : State) : (expectTag nonce ct aad s).mem = s.mem := by
  simp only [expectTag, tagGen_mem, State.withPhase_mem, otkGen_mem]

/-- Whether the supplied tag is the expected one, as the comparator answers (R210 step 3). -/
def tagMatches (nonce ct tag aad : Range) (s : State) : Prop :=
  cteq16 (expectTag nonce ct aad s).ctx.ae.ctag.toList (s.mem.readRange tag) = 1#32

/-- The machine of a decryption whose tag matched, when the data is about to be streamed. -/
def matched (nonce ct aad : Range) (s : State) : State :=
  ((expectTag nonce ct aad s).withPhase .compare).withPhase .decrypt

@[simp] theorem matched_mem (nonce ct aad : Range) (s : State) : (matched nonce ct aad s).mem = s.mem := by
  simp only [matched, State.withPhase_mem, expectTag_mem]

theorem sameOutside_matched (nonce ct aad : Range) (s : State) : SameOutside s (matched nonce ct aad s) :=
  ((sameOutside_expectTag nonce ct aad s).trans (sameOutside_withPhase .compare _)).trans
    (sameOutside_withPhase .decrypt _)

/-- Memory after a successful decryption. -/
def decryptMem (nonce ct aad pt : Range) (s : State) : Memory := (copyAndStream ct pt (matched nonce ct aad s)).mem

/-- What a decryption whose tag matches does (R210). -/
theorem decrypt_eq_of_match {nonce ct tag aad pt : Range} {s : State} (h : tagMatches nonce ct tag aad s) :
    decrypt nonce ct tag aad pt s = aeadDone (decryptMem nonce ct aad pt s) Status.ok.code s := by
  unfold tagMatches at h
  rw [decryptMem, ← wiped_eq_aeadDone ((sameOutside_matched nonce ct aad s).trans
    (sameOutside_copyAndStream ct pt _)) .ok]
  simp only [decrypt, State.withPhase_mem, expectTag_mem, State.withPhase_ctag, h, if_true, matched]

/-- What a decryption whose tag does not match does: memory is as it was (R210, R212). -/
theorem decrypt_eq_of_mismatch {nonce ct tag aad pt : Range} {s : State} (h : ¬ tagMatches nonce ct tag aad s) :
    decrypt nonce ct tag aad pt s = aeadDone s.mem Status.authenticationFailure.code s := by
  unfold tagMatches at h
  have hw := wiped_eq_aeadDone ((sameOutside_expectTag nonce ct aad s).trans (sameOutside_withPhase .compare _))
    .authenticationFailure
  rw [State.withPhase_mem, expectTag_mem] at hw
  rw [← hw]
  simp only [decrypt, State.withPhase_mem, expectTag_mem, State.withPhase_ctag, h, if_false]

@[simp] theorem decryptMem_size (nonce ct aad pt : Range) (s : State) :
    (decryptMem nonce ct aad pt s).size = s.mem.size := by
  rw [decryptMem, copyAndStream_size, matched_mem]

/-- A decryption writes its plaintext range only (R57). -/
theorem decryptMem_outside {nonce ct aad pt : Range} (hl : ct.len = pt.len) (s : State) :
    AgreeOutside s.mem (decryptMem nonce ct aad pt s) [pt] := by
  simpa only [matched_mem, decryptMem] using copyAndStream_outside hl (matched nonce ct aad s)

theorem decryptMem_wf {nonce ct aad pt : Range} (hl : ct.len = pt.len) {s : State} (hw : s.mem.wf = true)
    (hb : pt.len = 0 ∨ pt.addr + pt.len ≤ s.mem.size) : (decryptMem nonce ct aad pt s).wf = true :=
  copyAndStream_wf (s := matched nonce ct aad s) hl (by rwa [matched_mem]) (by rwa [matched_mem])

end Sys2Proof.Machine
end

