-- ==== Sys2Proof/Laws/Decode.lean ====
section
/-! SUPPORT. The encoding's pieces: a reference's four words read back as the reference, the opcode map is one to one,
and each command's `word0` passes every check of R78. -/

namespace Sys2Proof

/-- A 64-bit number is its two words (R73). -/
theorem dword_halves (v : DWord) : v.extractLsb' 32 32 ++ v.extractLsb' 0 32 = v := by
  apply BitVec.eq_of_getLsbD_eq
  intro i hi
  rw [BitVec.getLsbD_append]
  by_cases h : i < 32
  · simp [h]
  · simp only [BitVec.getLsbD_extractLsb', h, if_false]
    rw [show 32 + (i - 32) = i by omega]
    simp only [Bool.and_eq_right_iff_imp, decide_eq_true_eq]
    omega

/-- The words of a reference read back as the reference (R73). -/
@[simp] theorem takeRef_words (r : Ref) (ws : List Word) : takeRef (r.words ++ ws) = some (r, ws) := by
  cases r
  simp [Ref.words, takeRef, dword_halves]

/-- A reference read from a stream is its first four words. -/
theorem takeRef_some {ws rest : List Word} {r : Ref} (h : takeRef ws = some (r, rest)) : ws = r.words ++ rest := by
  match ws, h with
  | a0 :: a1 :: l0 :: l1 :: ws, h =>
    have lo : ∀ x y : Word, (x ++ y : DWord).extractLsb' 0 32 = y := fun x y => by
      apply BitVec.eq_of_getLsbD_eq
      intro i hi
      rw [BitVec.getLsbD_extractLsb', BitVec.getLsbD_append]
      simp [hi]
    have hi : ∀ x y : Word, (x ++ y : DWord).extractLsb' 32 32 = x := fun x y => by
      apply BitVec.eq_of_getLsbD_eq
      intro i hi
      rw [BitVec.getLsbD_extractLsb', BitVec.getLsbD_append]
      simp [hi]
    simp only [takeRef, Option.some.injEq, Prod.mk.injEq] at h
    obtain ⟨rfl, rfl⟩ := h
    simp [Ref.words, lo, hi]
  | [], h => simp [takeRef] at h
  | [_], h => simp [takeRef] at h
  | [_, _], h => simp [takeRef] at h
  | [_, _, _], h => simp [takeRef] at h

@[simp] theorem Ref.words_length (r : Ref) : r.words.length = 4 := rfl

/-- The opcode map gives each opcode its own byte (R76). -/
@[simp] theorem Opcode.ofByte_row (op : Opcode) : Opcode.ofByte op.row.opc = some op := by cases op <;> rfl

/-- No byte has another opcode's meaning (R76, R79). -/
theorem Opcode.row_of_ofByte {b : BitVec 8} {op : Opcode} (h : Opcode.ofByte b = some op) : op.row.opc = b := by
  have key : ∀ b : BitVec 8, ∀ op, Opcode.ofByte b = some op → op.row.opc = b := by
    intro b op
    cases op <;> revert b <;> decide
  exact key _ _ h

/-- The opcode of a command. -/
def Instr.opcode : Instr → Opcode
  | .keyLoad _ => .keyLoad
  | .keyDispose => .keyDispose
  | .ccInit _ _ _ => .ccInit
  | .ccXor _ => .ccXor
  | .ccClear => .ccClear
  | .pInit _ => .pInit
  | .pUpdate _ => .pUpdate
  | .pFinish _ => .pFinish
  | .pVerify _ _ => .pVerify
  | .aeEnc _ _ _ _ _ => .aeEnc
  | .aeEncc _ _ _ _ => .aeEncc
  | .aeDec _ _ _ _ _ => .aeDec
  | .aeDecc _ _ _ _ => .aeDecc
  | .capForce _ => .capForce
  | .capRd => .capRd

/-- A command's `word0` is legal and names its opcode (R76, R78). -/
@[simp] theorem checkWord0_word0 (i : Instr) : checkWord0 i.word0 = .ok i.opcode := by
  cases i
  case capForce f => cases f <;> decide
  all_goals
    simp only [Instr.word0, Instr.opcode]
    decide

/-- The flag field of a command's `word0` is 0 but for `CAP.FORCE 1` (R71, R75). -/
theorem fieldF_word0 (i : Instr) : fieldF i.word0 = decide (i = .capForce true) := by
  cases i
  case capForce f => cases f <;> decide
  all_goals simp [Instr.word0, fieldF]

/-- The length a command's `word0` announces is that of its operands and itself (R72, R77). -/
theorem commandLength_word0 (i : Instr) : commandLength i.word0 = 1 + i.immediate.length + 4 * i.refs.length := by
  cases i
  case capForce f => cases f <;> decide
  all_goals
    simp only [Instr.word0, Instr.immediate, Instr.refs, List.length_cons, List.length_nil]
    decide

/-- The words of some references are four each (R73). -/
@[simp] theorem flatMap_words_length (rs : List Ref) : (rs.flatMap Ref.words).length = 4 * rs.length := by
  induction rs with
  | nil => rfl
  | cons r rs ih =>
    simp only [List.flatMap_cons, List.length_append, ih, Ref.words_length, List.length_cons]
    omega

/-- Every command is as many words as its `word0` announces (R77). -/
theorem encode_length (i : Instr) : (encode i).length = commandLength i.word0 := by
  simp only [encode, List.length_cons, List.length_append, flatMap_words_length, commandLength_word0]
  omega

end Sys2Proof
end

