-- ==== Sys2Proof/Laws/PerInstr.lean ====
section
/-! SUPPORT. Family `Length`: the words of every command are as many as its `word0` says (R77), one lemma per
command. -/

namespace Sys2Proof.Laws.Length

/-- R72, R77: a command is `1 + HASIMM + 4·NREF` words long. -/
def Statement (i : Instr) : Prop := (encode i).length = commandLength i.word0

theorem keyLoad (key : Ref) : Statement (.keyLoad key) := encode_length _
theorem keyDispose : Statement .keyDispose := encode_length _
theorem ccInit (counter : Word) (key nonce : Ref) : Statement (.ccInit counter key nonce) := encode_length _
theorem ccXor (buf : Ref) : Statement (.ccXor buf) := encode_length _
theorem ccClear : Statement .ccClear := encode_length _
theorem pInit (key : Ref) : Statement (.pInit key) := encode_length _
theorem pUpdate (data : Ref) : Statement (.pUpdate data) := encode_length _
theorem pFinish (tag : Ref) : Statement (.pFinish tag) := encode_length _
theorem pVerify (tagA tagB : Ref) : Statement (.pVerify tagA tagB) := encode_length _
theorem aeEnc (nonce pt aad ct tag : Ref) : Statement (.aeEnc nonce pt aad ct tag) := encode_length _
theorem aeEncc (nonce pt aad out : Ref) : Statement (.aeEncc nonce pt aad out) := encode_length _
theorem aeDec (nonce ct tag aad pt : Ref) : Statement (.aeDec nonce ct tag aad pt) := encode_length _
theorem aeDecc (nonce inp aad pt : Ref) : Statement (.aeDecc nonce inp aad pt) := encode_length _
theorem capForce (f : Bool) : Statement (.capForce f) := encode_length _
theorem capRd : Statement .capRd := encode_length _

end Sys2Proof.Laws.Length
end

