-- ==== Sys2Proof/Laws/Rules.lean ====
section
/-! SUPPORT. The machine's checks and the rules: each class of `checks` says what the rule of that class says, so a
command is accepted exactly when it is `Acceptable`. -/

namespace Sys2Proof.Machine

theorem live_false_iff (i : Instr) (s : State) : (checks i s).live = false ↔ OutOfOrder i s := by
  cases i <;> simp [checks, checksKeyLoad, checksCcInit, checksCcXor, checksPInit, checksPUpdate, checksPFinish,
    checksPVerify, checksAeEnc, checksAeEncc, checksAeDec, checksAeDecc, checksNone, OutOfOrder, aeadReady,
    -not_or, Classical.or_iff_not_imp_left]

theorem present_false_iff (r : Ref) : present r = false ↔ r.addr = 0#64 := by simp [present]

theorem checks_present_false_iff (i : Instr) (s : State) : (checks i s).present = false ↔ RefAbsent i := by
  cases i <;> simp [checks, checksKeyLoad, checksCcInit, checksCcXor, checksPInit, checksPUpdate, checksPFinish,
    checksPVerify, checksAeEnc, checksAeEncc, checksAeDec, checksAeDecc, checksNone, RefAbsent, requiredRefs, aadRefs,
    present, aadPresent] <;> tauto

theorem len_toNat_eq_iff (v : DWord) (n : Nat) (h : n < 2 ^ 64) : v.toNat = n ↔ v = BitVec.ofNat 64 n := by
  rw [← BitVec.toNat_inj, BitVec.toNat_ofNat, Nat.mod_eq_of_lt h]

theorem checks_sized_false_iff (i : Instr) (s : State) : (checks i s).sized = false ↔ WrongSize i := by
  have h32 := fun v => len_toNat_eq_iff v 32 (by norm_num)
  have h12 := fun v => len_toNat_eq_iff v 12 (by norm_num)
  have h16 := fun v => len_toNat_eq_iff v 16 (by norm_num)
  cases i <;> simp only [checks, checksKeyLoad, checksCcInit, checksCcXor, checksPInit, checksPUpdate, checksPFinish,
    checksPVerify, checksAeEnc, checksAeEncc, checksAeDec, checksAeDecc, checksNone, WrongSize, sized,
    Bool.and_eq_false_iff, decide_eq_false_iff_not, ne_eq, not_le, reduceCtorEq] <;>
    simp only [Config.keyBytes, Config.nonceBytes, Config.tagBytes, h32, h12, h16]

theorem checks_related_false_iff (i : Instr) (s : State) : (checks i s).related = false ↔ LengthsDiffer i := by
  cases i <;> simp only [checks, checksKeyLoad, checksCcInit, checksCcXor, checksPInit, checksPUpdate, checksPFinish,
    checksPVerify, checksAeEnc, checksAeEncc, checksAeDec, checksAeDecc, checksNone, LengthsDiffer,
    decide_eq_false_iff_not, ne_eq, reduceCtorEq] <;> rfl

theorem bounded_false_iff (size : Nat) (r : Ref) :
    bounded size r = false ↔ r.addr ≠ 0#64 ∧ size < r.addr.toNat + r.len.toNat := by
  by_cases h : r.addr = 0#64 <;> simp [bounded, present, h]

theorem checks_bounded_false_iff (i : Instr) (s : State) : (checks i s).bounded = false ↔ OutOfBounds i s := by
  cases i <;> simp only [checks, checksKeyLoad, checksCcInit, checksCcXor, checksPInit, checksPUpdate, checksPFinish,
    checksPVerify, checksAeEnc, checksAeEncc, checksAeDec, checksAeDecc, checksNone, OutOfBounds, Instr.refs,
    Bool.and_eq_false_iff, bounded_false_iff, List.mem_cons, List.not_mem_nil, or_false, exists_eq_or_imp,
    exists_eq_left, or_assoc, false_and, exists_false] <;> simp

/-- `disjoint` is the absence of a common byte (R59). -/
theorem disjoint_iff_not_meets (a b : Range) : disjoint a b = true ↔ ¬ a.Meets b := by
  rw [disjoint_iff]
  constructor
  · rintro h ⟨x, ⟨h1, h2⟩, h3, h4⟩
    omega
  · intro h
    by_contra hc
    apply h
    refine ⟨max a.addr b.addr, ⟨?_, ?_⟩, ?_, ?_⟩ <;> omega

theorem disjoint_false_iff_meets (a b : Range) : disjoint a b = false ↔ a.Meets b := by
  have := disjoint_iff_not_meets a b
  cases h : disjoint a b <;> simp_all

theorem Range.meets_comm (a b : Range) : a.Meets b ↔ b.Meets a := by
  constructor <;> rintro ⟨x, h1, h2⟩ <;> exact ⟨x, h2, h1⟩

theorem encShapes_false_iff (nonce pt aad ct tag : Range) :
    encShapes nonce pt aad ct tag = false ↔ EncOverlap nonce pt aad ct tag := by
  simp only [encShapes, disjointOrSame, Bool.and_eq_false_iff, Bool.or_eq_false_iff, disjoint_false_iff_meets,
    decide_eq_false_iff_not, EncOverlap, or_assoc]
  rw [Range.meets_comm pt ct, eq_comm (a := pt)]

theorem decShapes_false_iff (nonce ct tag aad pt : Range) :
    decShapes nonce ct tag aad pt = false ↔ DecOverlap nonce ct tag aad pt := by
  simp only [decShapes, disjointOrSame, Bool.and_eq_false_iff, Bool.or_eq_false_iff, disjoint_false_iff_meets,
    decide_eq_false_iff_not, DecOverlap, or_assoc]
  rw [Range.meets_comm ct pt, eq_comm (a := ct)]

theorem checks_shapes_false_iff (i : Instr) (s : State) : (checks i s).shapes = false ↔ OverlapForbidden i := by
  cases i <;> simp [checks, checksKeyLoad, checksCcInit, checksCcXor, checksPInit, checksPUpdate, checksPFinish,
    checksPVerify, checksAeEnc, checksAeEncc, checksAeDec, checksAeDecc, checksNone, OverlapForbidden,
    encShapes_false_iff, decShapes_false_iff]

/-- A command is accepted exactly when the rules accept it (R258). -/
theorem accepted_iff_acceptable (i : Instr) (s : State) : accepted i s ↔ Acceptable i s := by
  rw [accepted, verdict_accept_iff]
  simp only [← Bool.not_eq_false, live_false_iff, checks_present_false_iff, checks_sized_false_iff,
    checks_related_false_iff, checks_bounded_false_iff, checks_shapes_false_iff]
  exact ⟨fun ⟨a, b, c, d, e, f⟩ => ⟨a, b, c, d, e, f⟩, fun ⟨a, b, c, d, e, f⟩ => ⟨a, b, c, d, e, f⟩⟩

/-- An acceptable command completes with its work done. -/
theorem exec_acceptable {i : Instr} {s : State} (h : Acceptable i s) : exec i s = .next (workOf i s) :=
  exec_accept ((accepted_iff_acceptable i s).mpr h)

/-- A reference of an acceptable command is inside buffer memory, or empty (R58). -/
theorem Acceptable.ref_inBounds {i : Instr} {s : State} (h : Acceptable i s) {r : Ref} (hr : r ∈ i.refs)
    (hp : r.addr ≠ 0#64) : r.addr.toNat + r.len.toNat ≤ s.mem.size := by
  by_contra hc
  exact h.inBounds ⟨r, hr, hp, by omega⟩

end Sys2Proof.Machine
end

