-- ==== Sys2Proof/Laws/Run.lean ====
section
/-! SUPPORT. What a step can do, said once: each move of the host taken apart into the few ways it answers a next
state, and the choice of the active context. -/

namespace Sys2Proof.Machine

/-! ### The port -/

section advance
variable (i : Instr) (s : State)
@[simp] theorem advance_key : (advance i s).key = s.key := rfl
@[simp] theorem advance_keyValid : (advance i s).keyValid = s.keyValid := rfl
@[simp] theorem advance_cap : (advance i s).cap = s.cap := rfl
@[simp] theorem advance_mem : (advance i s).mem = s.mem := rfl
@[simp] theorem advance_cc : (advance i s).ctx.cc = s.ctx.cc := rfl
@[simp] theorem advance_poly : (advance i s).ctx.poly = s.ctx.poly := rfl
@[simp] theorem advance_ae : (advance i s).ctx.ae = s.ctx.ae := rfl
@[simp] theorem advance_status : (advance i s).ctx.status = s.ctx.status := rfl
@[simp] theorem advance_value : (advance i s).ctx.value = s.ctx.value := rfl
@[simp] theorem advance_cur : (advance i s).cur = s.cur := rfl
@[simp] theorem advance_others : (advance i s).others = s.others := rfl
@[simp] theorem advance_moves : (advance i s).moves = s.moves := rfl
@[simp] theorem advance_ci : (advance i s).ctx.port.ci = s.ctx.port.ci + i.length := rfl
@[simp] theorem advance_stream : (advance i s).ctx.port.stream = s.ctx.port.stream := rfl
@[simp] theorem advance_ended : (advance i s).ctx.port.ended = s.ctx.port.ended := rfl
@[simp] theorem advance_busy : (advance i s).ctx.port.busy = none := rfl
end advance

/-- The command in progress, with the selection it sampled (R68, R241). -/
def begun (i : Instr) (s : State) : State :=
  s.withPort { s.ctx.port with busy := some { instr := i, sel := s.cap.sel } }

/-- How a command completes: `exec`, then `ci` past it. -/
theorem complete_next {i : Instr} {s t : State} (h : complete i s = .next t) :
    ∃ u, exec i s = .next u ∧ t = advance i u := by
  unfold complete at h
  split at h
  · next u hu => exact ⟨u, hu, by simpa using h.symm⟩
  · cases h
  · cases h

/-- The ways a presented command answers a next state: illegal; rejected at acceptance; or passed on to `go`. -/
theorem presentThen_next {go : Instr → State → Host.Outcome State Fault Refusal} {s t : State}
    (h : presentThen go s = .next t) :
    t = illegalCommand s ∨ (∃ i, complete i s = .next t) ∨ ∃ i, accepted i s ∧ go i s = .next t := by
  unfold presentThen at h
  split at h
  · cases h
  · split at h
    · cases h
    · exact .inl (by simpa using h.symm)
    · next i hi =>
      split at h
      · cases h
      · split at h
        · next hv =>
          split at h
          · cases h
          · exact .inr (.inr ⟨i, hv, h⟩)
        · exact .inr (.inl ⟨i, h⟩)
        · exact .inr (.inl ⟨i, h⟩)

/-- What one host move does in the context it concerns. -/
inductive Served (s t : State) : Prop where
  /-- An illegal command. -/
  | illegal (h : t = illegalCommand s)
  /-- A command completed. -/
  | completed (i : Instr) (u : State) (hx : exec i s = .next u) (h : t = advance i u)
  /-- A command in progress completed under the selection it had sampled. -/
  | resumed (i : Instr) (sel : Datapath) (u : State) (hd : usesDatapath i = true)
      (hx : exec i (s.withCap { s.cap with sel := sel }) = .next u) (h : t = (advance i u).withCap s.cap)
  /-- A command was accepted and is in progress. -/
  | begun (i : Instr) (ha : accepted i s) (h : t = Machine.begun i s)

theorem serve_next {s t : State} (h : serve s = .next t) : Served s t := by
  rcases presentThen_next h with h | ⟨i, h⟩ | ⟨i, _, h⟩
  · exact .illegal h
  · obtain ⟨u, hu, rfl⟩ := complete_next h
    exact .completed i u hu rfl
  · obtain ⟨u, hu, rfl⟩ := complete_next h
    exact .completed i u hu rfl

theorem presentCommand_next {s t : State} (h : presentCommand s = .next t) : Served s t := by
  rcases presentThen_next h with h | ⟨i, h⟩ | ⟨i, ha, h⟩
  · exact .illegal h
  · obtain ⟨u, hu, rfl⟩ := complete_next h
    exact .completed i u hu rfl
  · exact .begun i ha (by simpa [beginCommand, Machine.begun] using h.symm)

theorem finishCommand_next {s t : State} (h : finishCommand s = .next t) : Served s t := by
  unfold finishCommand at h
  split at h
  · cases h
  · next b _ =>
    split at h
    · next hd =>
      unfold underSelection at h
      split at h
      · next v hv =>
        obtain ⟨u, hu, rfl⟩ := complete_next hv
        exact .resumed _ b.sel u hd hu (by simpa using h.symm)
      · cases h
      · cases h
    · obtain ⟨u, hu, rfl⟩ := complete_next h
      exact .completed _ u hu rfl

/-! ### Contexts -/

/-- The parts of a machine with another context active. -/
theorem select_some {k : Nat} {s t : State} (h : s.select k = some t) :
    ∃ c, s.contexts[k]? = some c ∧ t = { s with ctx := c, cur := k, others := s.contexts.eraseIdx k } := by
  unfold State.select at h
  split at h
  · cases h
  · next c hc => exact ⟨c, hc, by simpa using h.symm⟩

/-- The contexts are the active one and the others. -/
theorem mem_contexts {s : State} {c : Context} : c ∈ s.contexts ↔ c = s.ctx ∨ c ∈ s.others := by
  have h : c ∈ s.others ↔ c ∈ s.others.take s.cur ∨ c ∈ s.others.drop s.cur := by
    conv_lhs => rw [← List.take_append_drop s.cur s.others]
    exact List.mem_append
  rw [h]
  simp only [State.contexts, List.mem_append, List.mem_cons]
  tauto

@[simp] theorem contexts_length (s : State) : s.contexts.length = s.others.length + 1 := by
  simp only [State.contexts, List.length_append, List.length_cons, List.length_take, List.length_drop]
  omega

/-- Choosing the active context changes no context (R42). -/
theorem select_contexts {k : Nat} {s t : State} (h : s.select k = some t) : t.contexts = s.contexts := by
  obtain ⟨c, hc, rfl⟩ := select_some h
  obtain ⟨hk, rfl⟩ := List.getElem?_eq_some_iff.mp hc
  simp only [State.contexts]
  have key : ∀ l : List Context, ∀ hk : k < l.length,
      (l.eraseIdx k).take k ++ l[k] :: (l.eraseIdx k).drop k = l := by
    intro l hk
    rw [List.eraseIdx_eq_take_drop_succ, List.take_append_of_le_length (by simp; omega),
      List.drop_append_of_le_length (by simp; omega)]
    simp [List.take_take]
  exact key _ hk

/-- What holds of every context holds after another has been made active. -/
theorem everyContext_select {p : Context → Prop} {k : Nat} {s t : State} (h : s.select k = some t)
    (hp : EveryContext p s) : EveryContext p t := by
  have hm : ∀ c, c ∈ t.contexts → p c := by
    intro c hc
    rw [select_contexts h, mem_contexts] at hc
    rcases hc with rfl | hc
    · exact hp.1
    · exact hp.2 c hc
  exact ⟨hm _ (mem_contexts.mpr (.inl rfl)), fun c hc => hm c (mem_contexts.mpr (.inr hc))⟩

/-! ### A step -/

/-- The ways a step answers a next state: a command served in some context, or an access of the host's own. -/
inductive Stepped (s t : State) : Prop where
  /-- With no move listed, the active context. -/
  | alone (h : Served s t)
  /-- A move that names a context. -/
  | inContext (k : Nat) (ms : List HostMove) (u : State) (hs : (s.withMoves ms).select k = some u) (h : Served u t)
  /-- The host's write. -/
  | hostWrite (ms : List HostMove) (a : Nat) (bs : List Byte) (hb : a + bs.length ≤ s.mem.size)
      (h : t = (s.withMoves ms).withMem (s.mem.writeBytes a bs))
  /-- The host's read. -/
  | hostRead (ms : List HostMove) (h : t = s.withMoves ms)

theorem inContext_next {k : Nat} {go : State → Host.Outcome State Fault Refusal} {s t : State}
    (h : inContext k go s = .next t) : ∃ u, s.select k = some u ∧ go u = .next t := by
  unfold inContext at h
  split at h
  · cases h
  · next u hu => exact ⟨u, hu, h⟩

/-- A step taken apart. -/
theorem step_next {s t : State} (h : step s = .next t) : Stepped s t := by
  unfold step nextMove at h
  split at h
  · exact .alone (serve_next h)
  · next m ms _ =>
    cases m with
    | run k =>
      obtain ⟨u, hu, h⟩ := inContext_next h
      exact .inContext k ms u hu (serve_next h)
    | start k =>
      obtain ⟨u, hu, h⟩ := inContext_next h
      exact .inContext k ms u hu (presentCommand_next h)
    | finish k =>
      obtain ⟨u, hu, h⟩ := inContext_next h
      exact .inContext k ms u hu (finishCommand_next h)
    | write a bs =>
      simp only [hostMove, Machine.hostWrite] at h
      split at h
      · cases h
      · next hb =>
        split at h
        · cases h
        · refine .hostWrite ms a bs ?_ (by simpa using h.symm)
          simp only [State.withMoves] at hb
          omega
    | read a n =>
      simp only [hostMove, Machine.hostRead] at h
      split at h
      · cases h
      · split at h
        · cases h
        · exact .hostRead ms (by simpa using h.symm)

end Sys2Proof.Machine
end

