-- ==== Sys2Proof/Tests/Slice0.lean ====
section
/-! SUPPORT. The model's own tests: well-formedness, decoding of words written out from the spec's encodings, the
spec's vectors (95_test_vectors.md, named V-…), and a witness for the hypotheses of each obligation. Every expected
value is the spec's. -/

namespace Sys2Proof.Tests

-- Each closed evaluation below runs after the last, so that the file's use of threads and memory stays small.
set_option Elab.async false

open Sys2Proof.Machine

/-! ### Well-formedness: an ill-formed line for each check -/

theorem test_wellFormed_command : Instr.wellFormed (.ccXor ⟨0, 0⟩) = true := by decide
theorem test_wellFormed_line :
    Asm.wellFormed (.ccInit (.buffer 0x1000 32) 0xffffffff (.buffer 0x1020 12)) = true := by decide
theorem test_illFormed_address : Asm.wellFormed (.ccXor (.buffer (2 ^ 64) 1)) = false := by decide
theorem test_illFormed_length : Asm.wellFormed (.keyLoad (.buffer 1 (2 ^ 64))) = false := by decide
theorem test_illFormed_counter :
    Asm.wellFormed (.ccInit (.buffer 0x1000 32) (2 ^ 32) (.buffer 0x1020 12)) = false := by decide
theorem test_illFormed_flag : Asm.wellFormed (.capForce 2) = false := by decide
theorem test_illFormed_pseudo_counter :
    Asm.wellFormed (.ccCrypt (.buffer 1 32) (2 ^ 32) (.buffer 1 12) (.buffer 1 1)) = false := by decide
theorem test_illFormed_program_refused : assemble [.capRd, .capForce 2] = none := by decide

/-! ### Decoding (V-E) -/

theorem test_decode_keyLoad :
    decode [0x00000101, 0x00001000, 0, 0x00000020, 0] = .ok (.keyLoad ⟨0x1000, 32⟩, []) := by decide
theorem test_decode_keyDispose : decode [0x00000002] = .ok (.keyDispose, []) := by decide
theorem test_decode_ccInit :
    decode [0x00001210, 1, 0x00001000, 0, 0x00000020, 0, 0x00001020, 0, 0x0000000c, 0]
      = .ok (.ccInit 1 ⟨0x1000, 32⟩ ⟨0x1020, 12⟩, []) := by decide
theorem test_decode_ccXor :
    decode [0x00000111, 0x00002000, 0, 0x00000072, 0] = .ok (.ccXor ⟨0x2000, 114⟩, []) := by decide
theorem test_decode_ccClear : decode [0x00000012] = .ok (.ccClear, []) := by decide
theorem test_decode_pInit :
    decode [0x00000120, 0x00001100, 0, 0x00000020, 0] = .ok (.pInit ⟨0x1100, 32⟩, []) := by decide
theorem test_decode_pUpdate_above_4GiB :
    decode [0x00000121, 0x00002000, 1, 0x00000005, 1] = .ok (.pUpdate ⟨0x100002000, 0x100000005⟩, []) := by decide
theorem test_decode_pFinish :
    decode [0x00000122, 0x00003000, 0, 0x00000010, 0] = .ok (.pFinish ⟨0x3000, 16⟩, []) := by decide
theorem test_decode_pVerify :
    decode [0x00000223, 0x00003000, 0, 0x00000010, 0, 0x00003010, 0, 0x00000010, 0]
      = .ok (.pVerify ⟨0x3000, 16⟩ ⟨0x3010, 16⟩, []) := by decide
theorem test_decode_aeEnc :
    decode [0x00000530, 0x1020, 0, 0xc, 0, 0x2000, 0, 0x72, 0, 0x1030, 0, 0xc, 0, 0x4000, 0, 0x72, 0, 0x4080, 0, 0x10, 0]
      = .ok (.aeEnc ⟨0x1020, 12⟩ ⟨0x2000, 114⟩ ⟨0x1030, 12⟩ ⟨0x4000, 114⟩ ⟨0x4080, 16⟩, []) := by decide
theorem test_decode_aeEncc :
    decode [0x00000431, 0x1020, 0, 0xc, 0, 0x2000, 0, 0x72, 0, 0x1030, 0, 0xc, 0, 0x4000, 0, 0x82, 0]
      = .ok (.aeEncc ⟨0x1020, 12⟩ ⟨0x2000, 114⟩ ⟨0x1030, 12⟩ ⟨0x4000, 130⟩, []) := by decide
theorem test_decode_aeDec :
    decode [0x00000532, 0x1020, 0, 0xc, 0, 0x4000, 0, 0x72, 0, 0x4080, 0, 0x10, 0, 0x1030, 0, 0xc, 0, 0x5000, 0, 0x72, 0]
      = .ok (.aeDec ⟨0x1020, 12⟩ ⟨0x4000, 114⟩ ⟨0x4080, 16⟩ ⟨0x1030, 12⟩ ⟨0x5000, 114⟩, []) := by decide
theorem test_decode_aeDecc :
    decode [0x00000433, 0x1020, 0, 0xc, 0, 0x4000, 0, 0x82, 0, 0x1030, 0, 0xc, 0, 0x5000, 0, 0x72, 0]
      = .ok (.aeDecc ⟨0x1020, 12⟩ ⟨0x4000, 130⟩ ⟨0x1030, 12⟩ ⟨0x5000, 114⟩, []) := by decide
theorem test_decode_capForce :
    decode [0x00002040, 0x00000040] = .ok (.capForce true, [0x00000040]) ∧
      decode [0x00000040] = .ok (.capForce false, []) := by decide
theorem test_decode_capRd : decode [0x00000041] = .ok (.capRd, []) := by decide

/-- The condition of R78 that a run of words fails, or nothing. -/
def illegal (ws : List Word) : Option Illegal :=
  match decode ws with
  | .ok _ => none
  | .error e => some e

/-- The illegal words of V-E, each by the condition of R78 it fails. -/
theorem test_decode_illegal :
    [[0x00000000], [0x00000003], [0x00000001], [0x00000201], [0x00000210], [0x00001101], [0x00002041], [0x00004101],
        [0x80000041], [0x00000111, 1, 0, 1], []].map illegal
      = [some .reservedOpcode, some .reservedOpcode, some .nrefMismatch, some .nrefMismatch, some .hasImmMismatch,
        some .hasImmMismatch, some .flagSet, some .zeroFieldSet, some .zeroFieldSet, some .truncated,
        some .truncated] := by decide

/-- The reserved opcode ranges of R79 are all illegal, with the right other fields or not. -/
theorem test_reserved_opcodes :
    ∀ b : BitVec 8, Opcode.ofByte b = none ↔
      (b = 0x00 ∨ (0x03 ≤ b ∧ b ≤ 0x0f) ∨ (0x13 ≤ b ∧ b ≤ 0x1f) ∨ (0x24 ≤ b ∧ b ≤ 0x2f) ∨ (0x34 ≤ b ∧ b ≤ 0x3f) ∨
        0x42 ≤ b) := by decide

/-- The assembler line of R80's example assembles to the words given there. -/
theorem test_assemble :
    assemble [.aeEnc (.buffer 0x1020 12) (.buffer 0x2000 114) (.buffer 0x1030 12) (.buffer 0x4000 114)
        (.buffer 0x4080 16)]
      = some [0x00000530, 0x00001020, 0x00000000, 0x0000000c, 0x00000000, 0x00002000, 0x00000000, 0x00000072,
          0x00000000, 0x00001030, 0x00000000, 0x0000000c, 0x00000000, 0x00004000, 0x00000000, 0x00000072, 0x00000000,
          0x00004080, 0x00000000, 0x00000010, 0x00000000] := by decide

/-- Words stored as bytes are little-endian (R70). -/
theorem test_stream_bytes :
    decodeBytes [0x40, 0x20, 0x00, 0x00, 0x41, 0x00, 0x00, 0x00] = .ok (.capForce true, [0x00000041]) := by decide

theorem test_decodeTableWord :
    decodeTableWord 32 0x00000041 = some .capRd ∧
      decodeTableWord 160 0x000000000000007200000000000020000000_0111 = some (.ccXor ⟨0x2000, 0x72⟩) ∧
      decodeTableWord 32 0x00000111 = some (.ccXor ⟨0, 0⟩) ∧ decodeTableWord 32 0x00002041 = none := by decide

/-! ### Utilities (V-U) -/

theorem test_pack32 :
    load32le [0x01, 0x02, 0x03, 0x04] 0 = 0x04030201#32 ∧
      store32le 0x0a0b0c0d#32 = [0x0d, 0x0c, 0x0b, 0x0a] := by decide
theorem test_pack64 :
    load64le [1, 2, 3, 4, 5, 6, 7, 8] 0 = 0x0807060504030201#64 ∧
      store64le 114#64 = [0x72, 0, 0, 0, 0, 0, 0, 0] := by decide
theorem test_rotl32 :
    rotl32 0x80000000#32 16 = 0x00008000#32 ∧ rotl32 0x12345678#32 12 = 0x45678123#32 ∧
      rotl32 0x12345678#32 8 = 0x34567812#32 ∧ rotl32 0x7998bfda#32 7 = 0xcc5fed3c#32 := by decide
theorem test_cteq16 :
    cteq16 ((List.range 16).map (BitVec.ofNat 8)) ((List.range 16).map (BitVec.ofNat 8)) = 1#32 ∧
      cteq16 ((List.range 16).map (BitVec.ofNat 8)) (1#8 :: (List.range 15).map fun i => BitVec.ofNat 8 (i + 1)) = 0#32 ∧
      cteqAcc (List.replicate 16 0x00) (List.replicate 15 0x00 ++ [0x80]) = 0x80#32 ∧
      cteq16 (List.replicate 16 0x00) (List.replicate 15 0x00 ++ [0x80]) = 0#32 ∧
      cteq16 (List.replicate 16 0x00) (List.replicate 16 0xff) = 0#32 := by decide
theorem test_pad16 :
    [0, 1, 12, 15, 16, 17, 114, 128].map pad16 = [0, 15, 4, 1, 0, 15, 14, 0] := by decide
theorem test_lenBlk :
    lenBlk 12 114 = [0x0c, 0, 0, 0, 0, 0, 0, 0, 0x72, 0, 0, 0, 0, 0, 0, 0] := by decide

/-! ### The ChaCha20 datapaths (V-C1 to V-C3, V-S1) -/

/-- V-C1, with its corner cases. -/
theorem test_quarter :
    quarter ⟨0x11111111, 0x01020304, 0x9b8d6f43, 0x01234567⟩ = ⟨0xea2a92f4, 0xcb1cf8ce, 0x4581472e, 0x5881c4bb⟩ ∧
      quarter ⟨0, 0, 0, 0⟩ = ⟨0, 0, 0, 0⟩ ∧
      quarter ⟨0xffffffff, 0xffffffff, 0xffffffff, 0xffffffff⟩ = ⟨0xf0000ffd, 0x88790878, 0x0110fdef, 0x010ffdf0⟩ ∧
      quarter ⟨1, 0, 0, 0⟩ = ⟨0x10000001, 0x80808808, 0x01010110, 0x01000110⟩ := by decide

/-- V-C2. -/
theorem test_quarterRound :
    quarterRound 2 7 8 13 ⟨0x879531e0, 0xc5ecf37d, 0x516461b1, 0xc9a62f8a, 0x44c20ef3, 0x3390af7f, 0xd9fc690b,
        0x2a5f714c, 0x53372767, 0xb00a5631, 0x974c541a, 0x359e9963, 0x5c971061, 0x3d631689, 0x2098d9d6, 0x91dbd320⟩
      = ⟨0x879531e0, 0xc5ecf37d, 0xbdb886dc, 0xc9a62f8a, 0x44c20ef3, 0x3390af7f, 0xd9fc690b, 0xcfacafd2, 0xe46bea80,
        0xb00a5631, 0x974c541a, 0x359e9963, 0x5c971061, 0xccc07c79, 0x2098d9d6, 0x91dbd320⟩ := by decide

/-- The state of V-C3. -/
def stateC3 : Words16 :=
  chachaState ((List.range 32).map (BitVec.ofNat 8)) 1#32 [0, 0, 0, 0x09, 0, 0, 0, 0x4a, 0, 0, 0, 0]

theorem test_state_setup :
    stateC3 = ⟨0x61707865, 0x3320646e, 0x79622d32, 0x6b206574, 0x03020100, 0x07060504, 0x0b0a0908, 0x0f0e0d0c,
      0x13121110, 0x17161514, 0x1b1a1918, 0x1f1e1d1c, 0x00000001, 0x09000000, 0x4a000000, 0x00000000⟩ := by
  decide +kernel

/-- V-C3, one double round. -/
def doubledC3 : Words16 :=
  ⟨0xcd52e917, 0x85ab03b4, 0xb3457395, 0xf96de7dd, 0xc4b7cd22, 0x5c2e187a, 0xc95eb461, 0x316c801a,
    0x7bf7d740, 0x7eddd644, 0xf1a1bdf5, 0x761246ca, 0x6b0d58a3, 0x6798471a, 0xd737f167, 0xf173888d⟩

theorem test_doubleRound : doubleRound stateC3 = doubledC3 := by decide +kernel
theorem test_vdoubleRound : wordsOf (vdoubleRound (rowsOf stateC3)) = doubledC3 := by decide +kernel

/-- V-C3, after the feed-forward, on each datapath. -/
def blockC3 : Words16 :=
  ⟨0xe4e7f110, 0x15593bd1, 0x1fdd0f50, 0xc47120a3, 0xc7f4d1c7, 0x0368c033, 0x9aaa2204, 0x4e6cd4c3,
    0x466482d2, 0x09aa9f07, 0x05d7c214, 0xa2028bd9, 0xd19c12b5, 0xb94e16de, 0xe883d0cb, 0x4e3c50a2⟩

theorem test_scalarBlock : scalarBlock stateC3 = blockC3 := by decide +kernel
theorem test_vectorBlock : wordsOf (vectorBlock stateC3) = blockC3 := by decide +kernel
theorem test_serialize : (serialize blockC3).take 8 = [0x10, 0xf1, 0xe7, 0xe4, 0xd1, 0x3b, 0x59, 0x15] := by decide

/-- V-S1. -/
theorem test_vshuf :
    vshuf ⟨10, 11, 12, 13⟩ 1 = ⟨11, 12, 13, 10⟩ ∧ vshuf ⟨10, 11, 12, 13⟩ 2 = ⟨12, 13, 10, 11⟩ ∧
      vshuf ⟨10, 11, 12, 13⟩ 3 = ⟨13, 10, 11, 12⟩ := by decide
theorem test_vadd : vadd ⟨0xffffffff, 1, 2, 3⟩ ⟨1, 1, 1, 1⟩ = ⟨0, 2, 3, 4⟩ := by decide
theorem test_lanes128 : lanes128 ⟨1, 2, 3, 4⟩ = 0x00000004000000030000000200000001#128 := by decide

/-! ### The Poly1305 unit (V-P1, V-P4) -/

/-- The key of V-P1. -/
def keyP1 : List Byte :=
  [0x85, 0xd6, 0xbe, 0x78, 0x57, 0x55, 0x6d, 0x33, 0x7f, 0x44, 0x52, 0xfe, 0x42, 0xd5, 0x06, 0xa8,
    0x01, 0x03, 0x80, 0x8a, 0xfb, 0x0d, 0xb2, 0xfd, 0x4a, 0xbf, 0xf6, 0xaf, 0x41, 0x49, 0xf5, 0x1b]

/-- The message of V-P1. -/
def msgP1 : List Byte :=
  [0x43, 0x72, 0x79, 0x70, 0x74, 0x6f, 0x67, 0x72, 0x61, 0x70, 0x68, 0x69, 0x63, 0x20, 0x46, 0x6f, 0x72,
    0x75, 0x6d, 0x20, 0x52, 0x65, 0x73, 0x65, 0x61, 0x72, 0x63, 0x68, 0x20, 0x47, 0x72, 0x6f, 0x75, 0x70]

/-- The tag of V-P1. -/
def tagP1 : List Byte :=
  [0xa8, 0x06, 0x1d, 0xc1, 0x30, 0x51, 0x36, 0xc6, 0xc2, 0x2b, 0x8b, 0xaf, 0x0c, 0x01, 0x27, 0xa9]

theorem test_polyKey :
    clampLoadR keyP1 = ⟨0x00bed685, 0x03555502, 0x0047c036, 0x01003949, 0x000806d5⟩ ∧
      multiples (clampLoadR keyP1) = ⟨0x10aaa90a, 0x0166c10e, 0x05011e6d, 0x00282229⟩ ∧
      loadPad keyP1 = ⟨0x8a800301, 0xfdb20dfb, 0xaff6bf4a, 0x1bf54941⟩ ∧
      clampLoadR (List.replicate 32 0xff) = ⟨0x3ffffff, 0x3ffff03, 0x3ffc0ff, 0x3f03fff, 0x00fffff⟩ := by
  decide +kernel
theorem test_unpack :
    unpack (msgP1.take 16) true = ⟨0x00797243, 0x01dbdd1c, 0x03061726, 0x018da5a1, 0x016f4620⟩ := by decide +kernel

/-- The unit of V-P1 after 34 bytes. -/
def unitP1 : PolyUnit := absorb msgP1 (polyKey keyP1 true .reset)

theorem test_absorb :
    unitP1.h = ⟨0x004b30de, 0x03ed3a8d, 0x03fa7ccc, 0x008ec0cd, 0x02d8adaf⟩ ∧ unitP1.leftover = 2 ∧
      unitP1.buf.toList.take 2 = [0x75, 0x70] := by decide +kernel
/-- V-P2: 5 bytes and then 11 complete the buffer: `leftover` passes through 16 (R27, R186) and is 0 again. -/
theorem test_absorb_completes_buffer :
    (absorb ((msgP1.drop 5).take 11) (absorb (msgP1.take 5) (polyKey keyP1 true .reset))).h
        = ⟨0x029c83fc, 0x037ae239, 0x02e9147d, 0x02127592, 0x02c88c77⟩ ∧
      (absorb ((msgP1.drop 5).take 11) (absorb (msgP1.take 5) (polyKey keyP1 true .reset))).leftover = 0 := by
  decide +kernel
theorem test_fullCarry :
    (fullCarry (padLast unitP1)).h = ⟨0x029d03a7, 0x0110cd4d, 0x02c77c88, 0x032bfe51, 0x028d31b7⟩ ∧
      (condSub (fullCarry (padLast unitP1))).g = ⟨0x029d03ac, 0x0110cd4d, 0x02c77c88, 0x032bfe51, 0xfe8d31b7⟩ ∧
      (condSub (fullCarry (padLast unitP1))).mask = 0#32 := by decide +kernel
theorem test_tag : tagBytesOf unitP1 = tagP1 ∧ polyTag keyP1 msgP1 = tagP1 := by decide +kernel

/-- V-P4: `val(h)` = P − 1, P and P + 1. -/
theorem test_condSub :
    (condSub { PolyUnit.reset with h := ⟨0x3fffffa, 0x3ffffff, 0x3ffffff, 0x3ffffff, 0x3ffffff⟩ }).h
        = ⟨0x3fffffa, 0x3ffffff, 0x3ffffff, 0x3ffffff, 0x3ffffff⟩ ∧
      (condSub { PolyUnit.reset with h := ⟨0x3fffffb, 0x3ffffff, 0x3ffffff, 0x3ffffff, 0x3ffffff⟩ }).h
        = ⟨0, 0, 0, 0, 0⟩ ∧
      (condSub { PolyUnit.reset with h := ⟨0x3fffffc, 0x3ffffff, 0x3ffffff, 0x3ffffff, 0x3ffffff⟩ }).h
        = ⟨1, 0, 0, 0, 0⟩ := by decide +kernel

/-- R164: the carry ripples through all four words and is dropped. -/
theorem test_addPad :
    (addPad { PolyUnit.reset with w := ⟨0xffffffff, 0xffffffff, 0xffffffff, 0xffffffff⟩, pad := ⟨1, 0, 0, 0⟩ }).w
      = ⟨0, 0, 0, 0⟩ := by decide

/-- V-P4: clamped all-ones key, three blocks of all ones. -/
theorem test_tag_allOnes :
    tagBytesOf (absorb (List.replicate 48 0xff) (polyKey (List.replicate 32 0xff) true .reset))
      = [0x5e, 0xfc, 0x6a, 0x6b, 0x51, 0xfc, 0xec, 0x4c, 0x78, 0x7c, 0x50, 0x75, 0x99, 0x7c, 0x95, 0xe4] := by
  decide +kernel

/-! ### Small machines -/

/-- Memory of `size` bytes holding some strings. -/
def memOf (size : Nat) (rows : List (Nat × List Byte)) : Memory :=
  rows.foldl (fun m r => m.writeBytes r.1 r.2) (.empty size)

/-- The key of V-L1. -/
def keyL1 : List Byte := (List.range 32).map fun i => BitVec.ofNat 8 (0x80 + i)
/-- The nonce of V-L1. -/
def nonceL1 : List Byte := [0x07, 0, 0, 0, 0x40, 0x41, 0x42, 0x43, 0x44, 0x45, 0x46, 0x47]

/-- Two contexts, 0x2000 bytes of memory: key and nonce of V-L1, `sun[0..4]` at 0x300, the AAD byte 50, the tag of
V-A4's empty case at 0x400, and V-P1's key, message and tag. -/
def machine : State :=
  .resetWith { Config.params with memSize := 0x2000, nCtx := 2 }
    (memOf 0x2000 [(0x100, keyL1), (0x200, nonceL1), (0x300, [0x4c, 0x61, 0x64, 0x69, 0x65]), (0x310, [0x50]),
      (0x400, [0xa0, 0x78, 0x4d, 0x7a, 0x47, 0x16, 0xf3, 0xfe, 0xb4, 0xf6, 0x4e, 0x7f, 0x4b, 0x39, 0xbf, 0x04]),
      (0x500, keyP1), (0x600, msgP1), (0x700, tagP1)])

/-- The same with the key loaded. -/
def keyed : State := { machine with key := byteVec 32 keyL1, keyValid := true }
/-- The same with a live ChaCha20 unit holding the state of V-C3. -/
def streaming : State := { machine with ctx := { machine.ctx with cc := { ChaChaUnit.reset with s := stateC3, live := true } } }
/-- The same with a live Poly1305 unit keyed as V-P1. -/
def hashing : State := { machine with ctx := { machine.ctx with poly := polyKey keyP1 true .reset } }

/-- The response of an outcome, or nothing. -/
def response (o : Host.Outcome State Fault Refusal) : Option (BitVec 8 × Word) :=
  match o with
  | .next t => some (t.ctx.status, t.ctx.value)
  | .fault _ => none
  | .refused _ => none

/-- Something of the next state of an outcome, or nothing. -/
def seen {α : Type} (f : State → α) (o : Host.Outcome State Fault Refusal) : Option α :=
  match o with
  | .next t => some (f t)
  | .fault _ => none
  | .refused _ => none

/-- Why an outcome stops, or nothing. -/
def stopped (o : Host.Outcome State Fault Refusal) : Option (Fault ⊕ Refusal) :=
  match o with
  | .next _ => none
  | .fault f => some (.inl f)
  | .refused r => some (.inr r)

/-! ### One command each -/

theorem test_keyLoad :
    seen (fun t => (t.key.toList, t.keyValid)) (exec (.keyLoad ⟨0x100, 32⟩) machine) = some (keyL1, true) := by
  decide +kernel
theorem test_keyDispose :
    seen (fun t => (t.key.toList, t.keyValid)) (exec .keyDispose keyed) = some (List.replicate 32 0, false) := by
  decide +kernel
theorem test_ccInit :
    seen (fun t => (t.ctx.cc.s.w4, t.ctx.cc.s.w12, t.ctx.cc.s.w15, t.ctx.cc.live))
        (exec (.ccInit 0xffffffff ⟨0x100, 32⟩ ⟨0x200, 12⟩) streaming)
      = some (0x83828180, 0xffffffff, 0x47464544, true) := by decide +kernel
/-- Zero bytes become the keystream of V-C3; the unit is zeroised. -/
theorem test_ccXor_scalar :
    seen (fun t => (t.mem.readBytes 0x1000 4, t.ctx.cc))
        (exec (.ccXor ⟨0x1000, 4⟩) (streaming.withCap (forceScalar true streaming.cap)))
      = some ([0x10, 0xf1, 0xe7, 0xe4], .reset) := by decide +kernel
theorem test_ccXor_vector :
    seen (fun t => (t.mem.readBytes 0x1000 4, t.ctx.cc)) (exec (.ccXor ⟨0x1000, 4⟩) streaming)
      = some ([0x10, 0xf1, 0xe7, 0xe4], .reset) := by decide +kernel
/-- R113. -/
theorem test_ccXor_empty :
    seen (fun t => (decide (t.mem = machine.mem), t.ctx.cc)) (exec (.ccXor ⟨0x1000, 0⟩) streaming)
      = some (true, .reset) := by decide +kernel
theorem test_ccClear : seen id (exec .ccClear streaming) = some machine := by decide +kernel
theorem test_pInit :
    seen (fun t => t.ctx.poly.r) (exec (.pInit ⟨0x500, 32⟩) machine)
      = some ⟨0x00bed685, 0x03555502, 0x0047c036, 0x01003949, 0x000806d5⟩ := by decide +kernel
/-- V-P2's first chunk. -/
theorem test_pUpdate_short :
    seen (fun t => (t.ctx.poly.h, t.ctx.poly.leftover, t.ctx.poly.buf.toList.take 5))
        (exec (.pUpdate ⟨0x600, 5⟩) hashing)
      = some (.zero, 5, [0x43, 0x72, 0x79, 0x70, 0x74]) := by decide +kernel
theorem test_pUpdate_block :
    seen (fun t => (t.ctx.poly.h, t.ctx.poly.leftover)) (exec (.pUpdate ⟨0x600, 16⟩) hashing)
      = some (⟨0x029c83fc, 0x037ae239, 0x02e9147d, 0x02127592, 0x02c88c77⟩, 0) := by decide +kernel
/-- The tag of V-P1 and the wiped unit. -/
theorem test_pFinish :
    seen (fun t => (t.mem.readBytes 0x1000 16, t.ctx.poly))
        (exec (.pFinish ⟨0x1000, 16⟩) { hashing with ctx := { hashing.ctx with poly := unitP1 } })
      = some (tagP1, .reset) := by decide +kernel
/-- No message: the tag is the pad (R183). -/
theorem test_pFinish_empty :
    seen (fun t => t.mem.readBytes 0x1000 16) (exec (.pFinish ⟨0x1000, 16⟩) hashing) = some (keyP1.drop 16) := by
  decide +kernel
theorem test_pVerify_equal : response (exec (.pVerify ⟨0x700, 16⟩ ⟨0x700, 16⟩) machine) = some (0, 1) := by
  decide +kernel
theorem test_pVerify_unequal : response (exec (.pVerify ⟨0x700, 16⟩ ⟨0x701, 16⟩) machine) = some (0, 0) := by
  decide +kernel
/-- V-A4: five bytes under one byte of associated data. -/
theorem test_aeEnc :
    seen (fun t => (t.mem.readBytes 0x1000 6, t.mem.readBytes 0x1100 16))
        (exec (.aeEnc ⟨0x200, 12⟩ ⟨0x300, 5⟩ ⟨0x310, 1⟩ ⟨0x1000, 5⟩ ⟨0x1100, 16⟩) keyed)
      = some ([0xd3, 0x1a, 0x8d, 0x34, 0x64, 0x00],
          [0x61, 0x74, 0xb5, 0xf7, 0x9e, 0x78, 0x28, 0x88, 0xbf, 0x11, 0xe7, 0xab, 0x6a, 0x2e, 0x2f, 0xe5]) := by
  decide +kernel
/-- V-A4: no plaintext, a null AAD. -/
theorem test_aeEnc_empty :
    seen (fun t => t.mem.readBytes 0x1100 16)
        (exec (.aeEnc ⟨0x200, 12⟩ ⟨0x300, 0⟩ ⟨0, 0⟩ ⟨0x1000, 0⟩ ⟨0x1100, 16⟩) keyed)
      = some [0xa0, 0x78, 0x4d, 0x7a, 0x47, 0x16, 0xf3, 0xfe, 0xb4, 0xf6, 0x4e, 0x7f, 0x4b, 0x39, 0xbf, 0x04] := by
  decide +kernel
/-- The combined form: ciphertext, then the tag. -/
theorem test_aeEncc :
    seen (fun t => t.mem.readBytes 0x1000 7) (exec (.aeEncc ⟨0x200, 12⟩ ⟨0x300, 5⟩ ⟨0x310, 1⟩ ⟨0x1000, 21⟩) keyed)
      = some [0xd3, 0x1a, 0x8d, 0x34, 0x64, 0x61, 0x74] := by decide +kernel
/-- V-A4's ciphertext and tag, in place. -/
theorem test_aeDec :
    seen (fun t => (t.ctx.status, t.mem.readBytes 0x1000 5))
        (exec (.aeDec ⟨0x200, 12⟩ ⟨0x1000, 5⟩ ⟨0x1100, 16⟩ ⟨0x310, 1⟩ ⟨0x1000, 5⟩)
          { keyed with
            mem := (keyed.mem.writeBytes 0x1000 [0xd3, 0x1a, 0x8d, 0x34, 0x64]).writeBytes 0x1100
              [0x61, 0x74, 0xb5, 0xf7, 0x9e, 0x78, 0x28, 0x88, 0xbf, 0x11, 0xe7, 0xab, 0x6a, 0x2e, 0x2f, 0xe5] })
      = some (0, [0x4c, 0x61, 0x64, 0x69, 0x65]) := by decide +kernel
/-- A wrong tag: the failure, and memory as it was. -/
theorem test_aeDec_mismatch :
    seen (fun t => (t.ctx.status, t.ctx.value, decide (t.mem = keyed.mem)))
        (exec (.aeDec ⟨0x200, 12⟩ ⟨0x300, 5⟩ ⟨0x400, 16⟩ ⟨0x310, 1⟩ ⟨0x1000, 5⟩) keyed)
      = some (4, 0, true) := by decide +kernel
/-- V-A4: the empty ciphertext with its tag. -/
theorem test_aeDecc :
    response (exec (.aeDecc ⟨0x200, 12⟩ ⟨0x400, 16⟩ ⟨0, 0⟩ ⟨0x1000, 0⟩) keyed) = some (0, 0) := by decide +kernel
theorem test_capForce :
    seen (fun t => capstat t) (exec (.capForce true) machine) = some 0x00000003 := by decide +kernel
theorem test_capRd :
    response (exec .capRd machine) = some (0, 0x00000005) ∧ response (exec .capRd keyed) = some (0, 0x0000000d) ∧
      response (exec .capRd hashing) = some (0, 0x00000025) := by decide +kernel

/-! ### Statuses and their order (R258) -/

/-- R258's example: presence before size before length; liveness before all of them. -/
theorem test_status_order :
    response (exec (.aeDec ⟨0x200, 11⟩ ⟨0x300, 5⟩ ⟨0, 16⟩ ⟨0x310, 1⟩ ⟨0x1000, 4⟩) keyed) = some (1, 0) ∧
      response (exec (.aeDec ⟨0x200, 11⟩ ⟨0x300, 5⟩ ⟨0, 16⟩ ⟨0x310, 1⟩ ⟨0x1000, 4⟩) machine) = some (5, 0) ∧
      response (exec (.aeDec ⟨0x200, 11⟩ ⟨0x300, 5⟩ ⟨0x400, 16⟩ ⟨0x310, 1⟩ ⟨0x1000, 4⟩) keyed) = some (2, 0) ∧
      response (exec (.aeDec ⟨0x200, 12⟩ ⟨0x300, 5⟩ ⟨0x400, 16⟩ ⟨0x310, 1⟩ ⟨0x1fff, 4⟩) keyed) = some (3, 0) ∧
      response (exec (.aeDec ⟨0x200, 12⟩ ⟨0x300, 5⟩ ⟨0x400, 16⟩ ⟨0x310, 1⟩ ⟨0x1fff, 5⟩) keyed) = some (7, 0) ∧
      stopped (exec (.aeDec ⟨0x200, 12⟩ ⟨0x300, 5⟩ ⟨0x400, 16⟩ ⟨0x310, 1⟩ ⟨0x301, 5⟩) keyed)
        = some (.inr .overlap) := by
  decide +kernel

/-- R257: an empty buffer exactly at MEM_SIZE is in bounds, one past it is not, and no sum wraps. -/
theorem test_bounds_edge :
    response (exec (.pUpdate ⟨0x2000, 0⟩) hashing) = some (0, 0) ∧
      response (exec (.pUpdate ⟨0x2001, 0⟩) hashing) = some (7, 0) ∧
      response (exec (.pUpdate ⟨0xffffffffffffffff, 0x10⟩) hashing) = some (7, 0) := by decide +kernel

/-! ### Steps -/

/-- A machine whose stream holds some words. -/
def streamOf (ws : List Word) (s : State) : State := loadStream ws s

theorem test_step_capRd :
    seen (fun t => (t.ctx.value, t.ctx.port.ci)) (step (State.reset.withFetchWord 32 0x00000041))
      = some (0x00000005, 1) := by decide +kernel
theorem test_step_illegal :
    seen (fun t => (t.ctx.status, t.ctx.port.ci, t.ctx.port.ended)) (step (streamOf [0x00000003] machine))
      = some (6, 0, true) := by decide +kernel
theorem test_step_end : stopped (step machine) = some (.inl .runEnded) := by decide +kernel

/-- The other context of `machine` with a command in progress. -/
def beside (i : Instr) (s : State) : State :=
  { s with others := [{ Context.reset with port := { Port.empty with busy := some ⟨i, .scalar⟩ } }] }

/-- U4, U5, U6. -/
theorem test_races :
    [step (beside (.ccXor ⟨0x310, 1⟩) (streamOf (encode (.pInit ⟨0x300, 32⟩)) machine)),
        step (beside (.aeEnc ⟨0x200, 12⟩ ⟨0x300, 5⟩ ⟨0, 0⟩ ⟨0x1000, 5⟩ ⟨0x1100, 16⟩) (streamOf [0x00000002] keyed)),
        step { beside (.ccXor ⟨0x300, 5⟩) machine with moves := [.write 0x2ff [1, 2]] },
        step { beside (.ccXor ⟨0x300, 5⟩) machine with moves := [.read 0x304 1] }].map stopped
      = [some (.inr .bufferRace), some (.inr .keyRace), some (.inr .hostRace), some (.inr .hostRace)] := by
  decide +kernel

/-- R242: a command in progress completes under the selection it sampled, and `CAP` stays what it is. -/
theorem test_finish_sampled :
    seen (fun t => (t.cur, t.cap, t.ctx.status)) (step { beside (.ccXor ⟨0x300, 0⟩) machine with
        others := [{ streaming.ctx with port := { Port.empty with busy := some ⟨.ccXor ⟨0x300, 0⟩, .scalar⟩ } }]
        moves := [.finish 1] })
      = some (1, machine.cap, 0) := by decide +kernel

/-- Two commands may read the same bytes (R65). -/
theorem test_shared_input :
    response (step (beside (.pVerify ⟨0x700, 16⟩ ⟨0x700, 16⟩)
      (streamOf (encode (.pVerify ⟨0x700, 16⟩ ⟨0x700, 16⟩)) machine))) = some (0, 1) := by decide +kernel

/-! ### Witnesses: hypotheses of the obligations, met together -/

/-- An accepted command is acceptable by the rules. -/
theorem acceptable_of_accepted {i : Instr} {s : State} (h : accepted i s) : Acceptable i s :=
  (accepted_iff_acceptable i s).mp h

theorem witness_wf : keyed.mem.wf = true ∧ streaming.mem.wf = true ∧ hashing.mem.wf = true := by decide +kernel

theorem witness_ResetMeetsInvariants :
    Config.params.Legal ∧ (Memory.empty Config.params.memSize).wf = true ∧
      (Memory.empty Config.params.memSize).size = Config.params.memSize := by decide

theorem witness_EncodeDecode : decode [0x00000041, 0x00000002] = .ok (.capRd, [0x00000002]) := by decide

/-- For the statements about a step: a stream with a command at `ci`, nothing else going on. -/
def ready : State := streamOf (encode (.ccXor ⟨0x1000, 0⟩) ++ [0x00000041]) streaming

theorem witness_StepRunsDecodedCommand :
    ready.moves = [] ∧ ready.ctx.port.busy = none ∧ ready.ctx.port.ended = false ∧ inProgress ready.others = [] ∧
      decode (ready.ctx.port.stream.drop ready.ctx.port.ci) = .ok (.ccXor ⟨0x1000, 0⟩, [0x00000041]) := by
  decide +kernel

theorem witness_IllegalCommandEndsRun_illegal :
    (streamOf [0x00000003] machine).ctx.port.ended = false ∧ (streamOf [0x00000003] machine).moves = [] ∧
      (streamOf [0x00000003] machine).ctx.port.busy = none ∧
      (streamOf [0x00000003] machine).ctx.port.ci < (streamOf [0x00000003] machine).ctx.port.stream.length ∧
      decode ((streamOf [0x00000003] machine).ctx.port.stream.drop (streamOf [0x00000003] machine).ctx.port.ci)
        = .error .reservedOpcode := by decide +kernel
theorem witness_IllegalCommandEndsRun_end :
    machine.moves = [] ∧ machine.ctx.port.busy = none ∧
      machine.ctx.port.ci = machine.ctx.port.stream.length := by decide +kernel

/-- R255, one witness per condition. -/
theorem witness_OutOfOrder :
    OutOfOrder (.keyLoad ⟨0x100, 32⟩) keyed ∧ OutOfOrder (.ccXor ⟨0x100, 1⟩) machine ∧
      OutOfOrder (.pUpdate ⟨0x100, 1⟩) machine ∧ OutOfOrder (.pFinish ⟨0x100, 16⟩) machine ∧
      OutOfOrder (.aeEncc ⟨0, 0⟩ ⟨0, 0⟩ ⟨0, 0⟩ ⟨0, 0⟩) machine ∧
      OutOfOrder (.aeDec ⟨0, 0⟩ ⟨0, 0⟩ ⟨0, 0⟩ ⟨0, 0⟩ ⟨0, 0⟩) { streaming with keyValid := true } ∧
      OutOfOrder (.aeEnc ⟨0, 0⟩ ⟨0, 0⟩ ⟨0, 0⟩ ⟨0, 0⟩ ⟨0, 0⟩) { hashing with keyValid := true } := by
  simp only [← live_false_iff]
  decide +kernel

/-- R251: a null required reference, and a null `aad` with a length. -/
theorem witness_AbsentReference :
    (¬ OutOfOrder (.keyLoad ⟨0, 32⟩) machine ∧ RefAbsent (.keyLoad ⟨0, 32⟩)) ∧
      (¬ OutOfOrder (.aeEncc ⟨0x200, 12⟩ ⟨0x300, 5⟩ ⟨0, 1⟩ ⟨0x1000, 21⟩) keyed ∧
        RefAbsent (.aeEncc ⟨0x200, 12⟩ ⟨0x300, 5⟩ ⟨0, 1⟩ ⟨0x1000, 21⟩)) := by
  simp only [← live_false_iff, ← fun i => checks_present_false_iff i keyed]
  decide +kernel

/-- R252: a key one byte short, a key one byte long, and a combined input one byte too short for a tag. -/
theorem witness_WrongSize :
    ∀ i ∈ [Instr.pInit ⟨0x100, 31⟩, .pInit ⟨0x100, 33⟩, .aeDecc ⟨0x200, 12⟩ ⟨0x400, 15⟩ ⟨0, 0⟩ ⟨0x1000, 0⟩],
      ¬ OutOfOrder i keyed ∧ ¬ RefAbsent i ∧ WrongSize i := by
  simp only [← live_false_iff, ← fun i => checks_present_false_iff i keyed, ← fun i => checks_sized_false_iff i keyed]
  decide +kernel

/-- R253, each of the four commands, one byte off. -/
theorem witness_LengthsDiffer :
    ∀ i ∈ [Instr.aeEnc ⟨0x200, 12⟩ ⟨0x300, 5⟩ ⟨0, 0⟩ ⟨0x1000, 4⟩ ⟨0x1100, 16⟩,
        .aeEncc ⟨0x200, 12⟩ ⟨0x300, 5⟩ ⟨0, 0⟩ ⟨0x1000, 20⟩,
        .aeDec ⟨0x200, 12⟩ ⟨0x300, 5⟩ ⟨0x400, 16⟩ ⟨0, 0⟩ ⟨0x1000, 6⟩,
        .aeDecc ⟨0x200, 12⟩ ⟨0x400, 16⟩ ⟨0, 0⟩ ⟨0x1000, 1⟩],
      ¬ OutOfOrder i keyed ∧ ¬ RefAbsent i ∧ ¬ WrongSize i ∧ LengthsDiffer i := by
  simp only [← live_false_iff, ← fun i => checks_present_false_iff i keyed, ← fun i => checks_sized_false_iff i keyed,
    ← fun i => checks_related_false_iff i keyed]
  decide +kernel

/-- R257: one byte past the end; an empty buffer one past the end; the address space's last address. -/
theorem witness_OutOfBounds :
    ∀ r ∈ [(⟨0x1ff1, 16⟩ : Ref), ⟨0x2001, 0⟩, ⟨0xffffffffffffffff, 0xffffffffffffffff⟩],
      ¬ OutOfOrder (.pUpdate r) hashing ∧ ¬ RefAbsent (.pUpdate r) ∧ ¬ WrongSize (.pUpdate r) ∧
        ¬ LengthsDiffer (.pUpdate r) ∧ OutOfBounds (.pUpdate r) hashing := by
  simp only [← live_false_iff, ← fun i => checks_present_false_iff i keyed, ← fun i => checks_sized_false_iff i keyed,
    ← fun i => checks_related_false_iff i keyed, ← checks_bounded_false_iff]
  decide +kernel

/-- R59, each of the four commands, one byte into the other buffer: `pt` in `ct`; `pt` in the tag part of `out`; `ct`
in `pt`; the tag part of `in` in `pt`. Each passes every check before. -/
theorem witness_OverlapForbidden :
    ∀ i ∈ [Instr.aeEnc ⟨0x200, 12⟩ ⟨0x300, 5⟩ ⟨0x310, 1⟩ ⟨0x304, 5⟩ ⟨0x1100, 16⟩,
        .aeEncc ⟨0x200, 12⟩ ⟨0x300, 5⟩ ⟨0x310, 1⟩ ⟨0x2ec, 21⟩,
        .aeDec ⟨0x200, 12⟩ ⟨0x300, 5⟩ ⟨0x400, 16⟩ ⟨0x310, 1⟩ ⟨0x301, 5⟩,
        .aeDecc ⟨0x200, 12⟩ ⟨0x400, 17⟩ ⟨0, 0⟩ ⟨0x401, 1⟩],
      ¬ OutOfOrder i keyed ∧ ¬ RefAbsent i ∧ ¬ WrongSize i ∧ ¬ LengthsDiffer i ∧ ¬ OutOfBounds i keyed ∧
        OverlapForbidden i := by
  simp only [← live_false_iff, ← fun i => checks_present_false_iff i keyed, ← fun i => checks_sized_false_iff i keyed,
    ← fun i => checks_related_false_iff i keyed, ← checks_bounded_false_iff, ← fun i => checks_shapes_false_iff i keyed]
  decide +kernel

/-- Every constructor is acceptable in some machine, with operands that do something. -/
theorem witness_Acceptable :
    Acceptable (.keyLoad ⟨0x100, 32⟩) machine ∧ Acceptable .keyDispose keyed ∧
      Acceptable (.ccInit 1 ⟨0x100, 32⟩ ⟨0x200, 12⟩) streaming ∧ Acceptable (.ccXor ⟨0x1fff, 1⟩) streaming ∧
      Acceptable .ccClear streaming ∧ Acceptable (.pInit ⟨0x500, 32⟩) hashing ∧
      Acceptable (.pUpdate ⟨0x600, 34⟩) hashing ∧ Acceptable (.pFinish ⟨0x1ff0, 16⟩) hashing ∧
      Acceptable (.pVerify ⟨0x700, 16⟩ ⟨0x701, 16⟩) machine ∧
      Acceptable (.aeEnc ⟨0x200, 12⟩ ⟨0x300, 5⟩ ⟨0x310, 1⟩ ⟨0x300, 5⟩ ⟨0x1100, 16⟩) keyed ∧
      Acceptable (.aeEncc ⟨0x200, 12⟩ ⟨0x300, 5⟩ ⟨0, 0⟩ ⟨0x1000, 21⟩) keyed ∧
      Acceptable (.aeDec ⟨0x200, 12⟩ ⟨0x300, 5⟩ ⟨0x400, 16⟩ ⟨0x310, 1⟩ ⟨0x300, 5⟩) keyed ∧
      Acceptable (.aeDecc ⟨0x200, 12⟩ ⟨0x400, 16⟩ ⟨0, 0⟩ ⟨0x1000, 0⟩) keyed ∧
      Acceptable (.capForce true) machine ∧ Acceptable .capRd machine := by
  simp only [← accepted_iff_acceptable]
  decide +kernel

theorem witness_QuarterRoundSteps :
    (0 : Fin 16) ≠ 5 ∧ (0 : Fin 16) ≠ 10 ∧ (0 : Fin 16) ≠ 15 ∧ (5 : Fin 16) ≠ 10 ∧ (5 : Fin 16) ≠ 15 ∧
      (10 : Fin 16) ≠ 15 := by decide

/-- The four machines of `XorSymmetry`, over one byte. -/
theorem witness_XorSymmetry :
    ∃ s1 s2 s3 s4 : State, machine.mem.wf = true ∧ Acceptable (.ccInit 1 ⟨0x100, 32⟩ ⟨0x200, 12⟩) machine ∧
      Acceptable (.ccXor ⟨0x1000, 1⟩) s1 ∧ ¬ (refRange ⟨0x1000, 1⟩).Meets (refRange ⟨0x100, 32⟩) ∧
      ¬ (refRange ⟨0x1000, 1⟩).Meets (refRange ⟨0x200, 12⟩) ∧
      exec (.ccInit 1 ⟨0x100, 32⟩ ⟨0x200, 12⟩) machine = .next s1 ∧ exec (.ccXor ⟨0x1000, 1⟩) s1 = .next s2 ∧
      exec (.ccInit 1 ⟨0x100, 32⟩ ⟨0x200, 12⟩) s2 = .next s3 ∧ exec (.ccXor ⟨0x1000, 1⟩) s3 = .next s4 := by
  have h1 : accepted (.ccInit 1 ⟨0x100, 32⟩ ⟨0x200, 12⟩) machine := by decide +kernel
  have h2 : accepted (.ccXor ⟨0x1000, 1⟩) (workOf (.ccInit 1 ⟨0x100, 32⟩ ⟨0x200, 12⟩) machine) := by decide +kernel
  have h3 : accepted (.ccInit 1 ⟨0x100, 32⟩ ⟨0x200, 12⟩)
      (workOf (.ccXor ⟨0x1000, 1⟩) (workOf (.ccInit 1 ⟨0x100, 32⟩ ⟨0x200, 12⟩) machine)) := by decide +kernel
  have h4 : accepted (.ccXor ⟨0x1000, 1⟩) (workOf (.ccInit 1 ⟨0x100, 32⟩ ⟨0x200, 12⟩)
      (workOf (.ccXor ⟨0x1000, 1⟩) (workOf (.ccInit 1 ⟨0x100, 32⟩ ⟨0x200, 12⟩) machine))) := by decide +kernel
  refine ⟨_, _, _, _, by decide +kernel, acceptable_of_accepted h1, acceptable_of_accepted h2, ?_, ?_,
    exec_accept h1, exec_accept h2, exec_accept h3, exec_accept h4⟩ <;>
  · rw [← disjoint_iff_not_meets]
    decide

theorem witness_key_length : keyP1.length = 32 ∧ keyL1.length = 32 := by decide

/-- The bounds at their edge: `h[1] = 2^26 + 63`, `r` and `s` of the all-ones key. -/
def edgeUnit : PolyUnit :=
  { PolyUnit.reset with
    h := ⟨0x3ffffff, 0x400003f, 0x3ffffff, 0x3ffffff, 0x3ffffff⟩
    r := ⟨0x3ffffff, 0x3ffff03, 0x3ffc0ff, 0x3f03fff, 0x00fffff⟩
    s := multiples ⟨0x3ffffff, 0x3ffff03, 0x3ffc0ff, 0x3f03fff, 0x00fffff⟩ }

theorem witness_PolyBounded : PolyBounded edgeUnit ∧ AccBounded edgeUnit.h ∧ PolyBounded PolyUnit.reset := by
  refine ⟨⟨⟨?_, ?_, ?_, ?_, ?_⟩, ⟨⟨?_, ?_, ?_, ?_, ?_⟩, ?_, ?_, ?_, ?_, ?_⟩⟩, ⟨?_, ?_, ?_, ?_, ?_⟩,
    ⟨⟨?_, ?_, ?_, ?_, ?_⟩, ⟨⟨?_, ?_, ?_, ?_, ?_⟩, ?_, ?_, ?_, ?_, ?_⟩⟩⟩ <;> decide

theorem witness_Canonical : Canonical ⟨0x3ffffff, 0x3ffffff, 0x3ffffff, 0x3ffffff, 0x3ffffff⟩ := by
  refine ⟨?_, ?_, ?_, ?_, ?_⟩ <;> decide

theorem witness_block_length : (msgP1.take 16).length = 16 ∧ tagP1.length = 16 ∧ unitP1.r = unitP1.r := by decide

theorem witness_PVerify_equal :
    ∀ j, j < 16 → machine.mem.read ((0x700#64).toNat + j) = machine.mem.read ((0x700#64).toNat + j) := fun _ _ => rfl
theorem witness_PVerify_unequal :
    ∃ j, j < 16 ∧ machine.mem.read ((0x700#64).toNat + j) ≠ machine.mem.read ((0x701#64).toNat + j) :=
  ⟨0, by decide, by decide +kernel⟩

theorem witness_CompareIsEquality : tagP1.length = 16 ∧ tagP1 = tagP1 ∧ tagP1 ≠ keyP1.take 16 := by decide

theorem witness_Framing : (polyKey keyP1 false .reset).leftover = 0 := rfl

/-- The two cases of R210: V-A4's empty ciphertext with its tag, and with another. -/
theorem witness_Authentic :
    Authentic (refRange ⟨0x200, 12⟩) (refRange ⟨0x300, 0⟩) (refRange ⟨0x400, 16⟩) (refRange ⟨0, 0⟩) keyed ∧
      ¬ Authentic (refRange ⟨0x200, 12⟩) (refRange ⟨0x300, 0⟩) (refRange ⟨0x401, 16⟩) (refRange ⟨0, 0⟩) keyed ∧
      Acceptable (.aeDec ⟨0x200, 12⟩ ⟨0x300, 0⟩ ⟨0x400, 16⟩ ⟨0, 0⟩ ⟨0x1000, 0⟩) keyed ∧
      Acceptable (.aeDec ⟨0x200, 12⟩ ⟨0x300, 0⟩ ⟨0x401, 16⟩ ⟨0, 0⟩ ⟨0x1000, 0⟩) keyed := by
  simp only [← accepted_iff_acceptable, Authentic]
  decide +kernel

theorem witness_AuthenticationFailure :
    ∃ t, exec (.aeDec ⟨0x200, 12⟩ ⟨0x300, 0⟩ ⟨0x401, 16⟩ ⟨0, 0⟩ ⟨0x1000, 0⟩) keyed = .next t ∧
      t.ctx.status = 4#8 := by
  have ha : accepted (.aeDec ⟨0x200, 12⟩ ⟨0x300, 0⟩ ⟨0x401, 16⟩ ⟨0, 0⟩ ⟨0x1000, 0⟩) keyed := by decide +kernel
  exact ⟨_, exec_accept ha, by decide +kernel⟩

/-- Both forms of the round trip, over one byte, the second in place. -/
theorem witness_RoundTrip :
    (∃ t, keyed.mem.wf = true ∧ Acceptable (.aeEnc ⟨0x200, 12⟩ ⟨0x300, 1⟩ ⟨0x310, 1⟩ ⟨0x1000, 1⟩ ⟨0x1100, 16⟩) keyed ∧
        exec (.aeEnc ⟨0x200, 12⟩ ⟨0x300, 1⟩ ⟨0x310, 1⟩ ⟨0x1000, 1⟩ ⟨0x1100, 16⟩) keyed = .next t ∧
        Acceptable (.aeDec ⟨0x200, 12⟩ ⟨0x1000, 1⟩ ⟨0x1100, 16⟩ ⟨0x310, 1⟩ ⟨0x1200, 1⟩) t) ∧
      (∃ t, Acceptable (.aeEncc ⟨0x200, 12⟩ ⟨0x300, 1⟩ ⟨0, 0⟩ ⟨0x1000, 17⟩) keyed ∧
        exec (.aeEncc ⟨0x200, 12⟩ ⟨0x300, 1⟩ ⟨0, 0⟩ ⟨0x1000, 17⟩) keyed = .next t ∧
        Acceptable (.aeDecc ⟨0x200, 12⟩ ⟨0x1000, 17⟩ ⟨0, 0⟩ ⟨0x1000, 1⟩) t) := by
  have h1 : accepted (.aeEnc ⟨0x200, 12⟩ ⟨0x300, 1⟩ ⟨0x310, 1⟩ ⟨0x1000, 1⟩ ⟨0x1100, 16⟩) keyed := by decide +kernel
  have h2 : accepted (.aeEncc ⟨0x200, 12⟩ ⟨0x300, 1⟩ ⟨0, 0⟩ ⟨0x1000, 17⟩) keyed := by decide +kernel
  refine ⟨⟨_, by decide +kernel, acceptable_of_accepted h1, exec_accept h1, ?_⟩,
    ⟨_, acceptable_of_accepted h2, exec_accept h2, ?_⟩⟩ <;>
  · rw [← accepted_iff_acceptable]
    decide +kernel

theorem witness_DatapathInvisible : Instr.ccXor ⟨0x1000, 1⟩ ≠ .capRd ∧ ∀ g, Instr.ccXor ⟨0x1000, 1⟩ ≠ .capForce g := by
  simp

/-- An empty chunk on a unit with bytes waiting, the most there can be. -/
theorem witness_PUpdate_empty :
    (absorb (msgP1.take 15) hashing.ctx.poly).leftover.toNat < 16 ∧
      (absorb (msgP1.take 15) hashing.ctx.poly).leftover.toNat = 15 ∧ (⟨0x600, 0⟩ : Ref).len = 0#64 := by
  decide +kernel

/-- For the frames and the response rule. -/
theorem witness_exec_next : ∃ t, exec (.ccXor ⟨0x1000, 1⟩) streaming = .next t :=
  ⟨_, exec_accept (by decide +kernel : accepted (.ccXor ⟨0x1000, 1⟩) streaming)⟩

/-- The invariants hold of a machine whose next step does something: `P.UPDATE` on the unit at its bounds. -/
def busyMachine : State :=
  streamOf (encode (.pUpdate ⟨0x600, 16⟩))
    { machine with ctx := { machine.ctx with poly := { edgeUnit with live := true } } }

theorem witness_step_invariants :
    Zeroised busyMachine ∧ LimbsBounded busyMachine ∧ LeftoverBounded busyMachine ∧ Resolved busyMachine ∧
      busyMachine.mem.wf = true ∧
      ∃ t, step busyMachine = .next t := by
  have ho : ∀ c ∈ busyMachine.others, c = Context.reset := by decide +kernel
  have e := witness_PolyBounded.1
  have hp : PolyBounded busyMachine.ctx.poly := by
    have hu : busyMachine.ctx.poly = { edgeUnit with live := true } := rfl
    rw [hu]
    exact ⟨e.1, ⟨e.2.r, e.2.top, e.2.s1, e.2.s2, e.2.s3, e.2.s4⟩⟩
  refine ⟨⟨fun _ => rfl, ⟨⟨rfl, rfl, rfl, rfl, rfl, rfl, rfl, rfl, rfl, rfl, rfl, rfl, rfl, rfl⟩,
      ⟨fun _ => rfl, fun h => (by cases h), rfl⟩⟩, fun c hc => ?_⟩,
    ⟨hp, fun c hc => ?_⟩, ⟨by decide, fun c hc => ?_⟩,
    ⟨rfl, ⟨by decide, fun _ => rfl⟩, fun c hc => ?_⟩, by decide +kernel, ?_⟩
  · rw [ho c hc]
    exact ⟨⟨rfl, rfl, rfl, rfl, rfl, rfl, rfl, rfl, rfl, rfl, rfl, rfl, rfl, rfl⟩, ⟨fun _ => rfl, fun _ => rfl, rfl⟩⟩
  · rw [ho c hc]
    exact witness_PolyBounded.2.2
  · rw [ho c hc]
    decide
  · rw [ho c hc]
    exact ⟨by decide, fun _ => rfl⟩
  · have h : seen (fun t => t.ctx.status) (step busyMachine) = some 0 := by decide +kernel
    cases hs : step busyMachine with
    | next t => exact ⟨t, rfl⟩
    | fault f => rw [hs] at h; cases h
    | refused r => rw [hs] at h; cases h

/-- R65: `P.INIT` presented beside a `CC.XOR` in progress whose output it reads. -/
def racing : State := beside (.ccXor ⟨0x310, 1⟩) (streamOf (encode (.pInit ⟨0x300, 32⟩)) machine)

theorem witness_BufferRace :
    racing.moves = [] ∧ racing.ctx.port.busy = none ∧ racing.ctx.port.ended = false ∧
      decode (racing.ctx.port.stream.drop racing.ctx.port.ci) = .ok (.pInit ⟨0x300, 32⟩, []) ∧
      Acceptable (.pInit ⟨0x300, 32⟩) racing ∧
      ∃ j ∈ inProgress racing.others, BuffersRace (.pInit ⟨0x300, 32⟩) j := by
  refine ⟨rfl, rfl, rfl, by decide +kernel, acceptable_of_accepted (by decide +kernel), .ccXor ⟨0x310, 1⟩,
    by decide +kernel, .inr ⟨_, List.mem_cons_self, _, List.mem_cons_self, ?_⟩⟩
  rw [← disjoint_false_iff_meets]
  decide

/-- R67: `KEY.DISPOSE` presented beside an `AE.*` command in progress. -/
def disposing : State :=
  beside (.aeEnc ⟨0x200, 12⟩ ⟨0x300, 5⟩ ⟨0, 0⟩ ⟨0x1000, 5⟩ ⟨0x1100, 16⟩) (streamOf [0x00000002] keyed)

theorem witness_KeyRace :
    disposing.moves = [] ∧ disposing.ctx.port.busy = none ∧ disposing.ctx.port.ended = false ∧
      decode (disposing.ctx.port.stream.drop disposing.ctx.port.ci) = .ok (.keyDispose, []) ∧
      writesKey .keyDispose = true ∧ ∃ j ∈ inProgress disposing.others, isAead j = true :=
  ⟨rfl, rfl, rfl, by decide +kernel, rfl, .aeEnc ⟨0x200, 12⟩ ⟨0x300, 5⟩ ⟨0, 0⟩ ⟨0x1000, 5⟩ ⟨0x1100, 16⟩,
    by decide +kernel, rfl⟩

/-- The same command presented alone, and by the host's `run` and `start` of context 0. -/
theorem witness_Presents :
    Presents racing racing ∧ Presents { racing with moves := [.run 0] } racing ∧
      Presents { racing with moves := [.start 0] } racing :=
  ⟨.alone rfl rfl, .run 0 [] rfl rfl, .start 0 [] rfl rfl⟩

/-- Context 1 has `P.VERIFY` in progress while context 0's `P.INIT`, alone or by `run`, reads some of the same bytes (R65). -/
def sharing : State := beside (.pVerify ⟨0x700, 16⟩ ⟨0x300, 16⟩) (streamOf (encode (.pInit ⟨0x300, 32⟩)) machine)

theorem witness_PresentedCommandRuns :
    (({ sharing with moves := [.run 0] } : State).withMoves []).select 0 = some sharing ∧
      sharing.ctx.port.busy = none ∧ sharing.ctx.port.ended = false ∧
      decode (sharing.ctx.port.stream.drop sharing.ctx.port.ci) = .ok (.pInit ⟨0x300, 32⟩, []) ∧
      inProgress sharing.others = [.pVerify ⟨0x700, 16⟩ ⟨0x300, 16⟩] ∧
      ¬ BuffersRace (.pInit ⟨0x300, 32⟩) (.pVerify ⟨0x700, 16⟩ ⟨0x300, 16⟩) ∧
      keyRaces (.pInit ⟨0x300, 32⟩) (.pVerify ⟨0x700, 16⟩ ⟨0x300, 16⟩) = false := by
  refine ⟨rfl, rfl, rfl, by decide +kernel, by decide +kernel, ?_, rfl⟩
  simp [BuffersRace, inputs, outputs]

/-- The active context's command, with no move listed, completes beside one in progress. -/
theorem witness_ContextIsolation_alone : sharing.moves = [] ∧ seen (fun t => t.ctx.status) (step sharing) = some 0 := by
  decide +kernel

/-- R64: the host about to write, and to read, the one byte of an output of a command in progress. -/
def touching (m : HostMove) : State := { beside (.ccXor ⟨0x310, 1⟩) machine with moves := [m] }

theorem witness_HostRace :
    ((touching (.write 0x310 [1])).moves = [.write 0x310 [1]] ∧
      0x310 + ([1] : List Byte).length ≤ (touching (.write 0x310 [1])).mem.size ∧
      ∃ j ∈ inProgress (touching (.write 0x310 [1])).contexts, ∃ r ∈ inputs j ++ outputs j,
        (⟨0x310, ([1] : List Byte).length⟩ : Range).Meets r) ∧
      (touching (.read 0x310 1)).moves = [.read 0x310 1] ∧ 0x310 + 1 ≤ (touching (.read 0x310 1)).mem.size ∧
      ∃ j ∈ inProgress (touching (.read 0x310 1)).contexts, ∃ r ∈ outputs j, (⟨0x310, 1⟩ : Range).Meets r := by
  refine ⟨⟨rfl, by decide +kernel, .ccXor ⟨0x310, 1⟩, by decide +kernel, _, List.mem_cons_self, ?_⟩, rfl,
    by decide +kernel, .ccXor ⟨0x310, 1⟩, by decide +kernel, _, List.mem_cons_self, ?_⟩ <;>
  · rw [← disjoint_false_iff_meets]
    decide

theorem witness_BeginThenFinish : ∃ u, presentCommand ready = .next u ∧ u.ctx.port.busy ≠ none := by
  have h : seen (fun t => t.ctx.port.busy.isSome) (presentCommand ready) = some true := by decide +kernel
  cases hs : presentCommand ready with
  | next t =>
    rw [hs] at h
    refine ⟨t, rfl, fun hn => ?_⟩
    simp [seen, hn] at h
  | fault f => rw [hs] at h; cases h
  | refused r => rw [hs] at h; cases h

/-- Context 1 runs `CAP.RD` while context 0 waits. -/
theorem witness_ContextIsolation :
    ∃ t, step { machine with
      others := [{ Context.reset with port := { Port.empty with stream := [0x00000041] } }]
      moves := [.run 1] } = .next t ∧ t.cur = 1 := by
  have h : seen (fun t => t.cur) (step { machine with
      others := [{ Context.reset with port := { Port.empty with stream := [0x00000041] } }]
      moves := [.run 1] }) = some 1 := by decide +kernel
  cases hs : step { machine with
      others := [{ Context.reset with port := { Port.empty with stream := [0x00000041] } }]
      moves := [.run 1] } with
  | next t =>
    rw [hs] at h
    exact ⟨t, rfl, by simpa [seen] using h⟩
  | fault f => rw [hs] at h; cases h
  | refused r => rw [hs] at h; cases h

end Sys2Proof.Tests
end

section
/-! SUPPORT. The family of 00_scope.md: a command split into a beginning and a completion (O55). What the command port
holds reaches the work of a command through the selected datapath only, so a command completes from its own beginning
as it does from the state before. -/

namespace Sys2Proof.Machine

/-! ### The work of a command and the port -/

section withPort
variable {p : Port} {s : State}

theorem State.withPhase_withPort (ph : Phase) : (s.withPort p).withPhase ph = (s.withPhase ph).withPort p := rfl
theorem State.withMem_withPort (m : Memory) : (s.withPort p).withMem m = (s.withMem m).withPort p := rfl
theorem State.withCc_withPort (u : ChaChaUnit) : (s.withPort p).withCc u = (s.withCc u).withPort p := rfl
theorem State.withPoly_withPort (u : PolyUnit) : (s.withPort p).withPoly u = (s.withPoly u).withPort p := rfl
theorem State.withAe_withPort (u : AeadUnit) : (s.withPort p).withAe u = (s.withAe u).withPort p := rfl
theorem aeadDone_withPort (m : Memory) (st : BitVec 8) :
    aeadDone m st (s.withPort p) = (aeadDone m st s).withPort p := rfl

/-- Two machines that differ outside the port, and in nothing that selects the datapath, agree on what a port selects
(R241). -/
theorem SameOutside.withPort_datapath {t : State} (h : SameOutside s t)
    (hd : (s.withPort p).datapath = s.datapath) : (t.withPort p).datapath = t.datapath := by
  have hp : (t.withPort p).datapath = (s.withPort p).datapath := by
    simp only [State.datapath, State.withPort_port, State.withPort_cap, h.cap]
  rw [hp, hd, h.datapath]

theorem xorStreamOn_withPort (hd : (s.withPort p).datapath = s.datapath) (r : Range) :
    xorStreamOn r (s.withPort p) = (xorStreamOn r s).withPort p := by
  rw [xorStreamOn_eq, xorStreamOn_eq, hd, State.withPort_cc, State.withPort_mem, State.withCc_withPort,
    State.withMem_withPort]

theorem copyAndStream_withPort (hd : (s.withPort p).datapath = s.datapath) (src dst : Range) :
    copyAndStream src dst (s.withPort p) = (copyAndStream src dst s).withPort p := by
  rw [copyAndStream, State.withMem_withPort, xorStreamOn_withPort ((sameOutside_withMem _ s).withPort_datapath hd),
    State.withPort_mem, ← copyAndStream]

theorem otkGen_withPort (hd : (s.withPort p).datapath = s.datapath) (nonce : List Byte) :
    otkGen nonce (s.withPort p) = (otkGen nonce s).withPort p := by
  simp only [otkGen, hd, State.withPort_key, State.withPort_cc, State.withPort_ae, State.withAe_withPort,
    State.withCc_withPort]

theorem tagGen_withPort (aad ct : Range) : tagGen aad ct (s.withPort p) = (tagGen aad ct s).withPort p := by
  simp only [tagGen, State.withAe_withPort, State.withPoly_withPort, State.withPort_ae, State.withPort_poly,
    State.withPort_mem]

theorem derived_withPort (hd : (s.withPort p).datapath = s.datapath) (nonce : Range) :
    derived nonce (s.withPort p) = (derived nonce s).withPort p := by
  rw [derived, State.withPhase_withPort, otkGen_withPort ((sameOutside_withPhase .derive s).withPort_datapath hd),
    State.withPhase_withPort, State.withPort_mem, ← derived]

theorem encrypted_withPort (hd : (s.withPort p).datapath = s.datapath) (nonce pt ct : Range) :
    encrypted nonce pt ct (s.withPort p) = (encrypted nonce pt ct s).withPort p := by
  rw [encrypted, derived_withPort hd, copyAndStream_withPort ((sameOutside_derived nonce s).withPort_datapath hd),
    ← encrypted]

theorem encrypt_withPort (hd : (s.withPort p).datapath = s.datapath) (nonce pt aad ct tag : Range) :
    encrypt nonce pt aad ct tag (s.withPort p) = (encrypt nonce pt aad ct tag s).withPort p := by
  have hm : encryptMem nonce pt aad ct tag (s.withPort p) = encryptMem nonce pt aad ct tag s := by
    rw [encryptMem, tagged, encrypted_withPort hd, State.withPhase_withPort, tagGen_withPort, State.withPort_mem,
      State.withPort_ae, ← tagged, ← encryptMem]
  rw [encrypt_eq, encrypt_eq, hm, aeadDone_withPort]

theorem expectTag_withPort (hd : (s.withPort p).datapath = s.datapath) (nonce ct aad : Range) :
    expectTag nonce ct aad (s.withPort p) = (expectTag nonce ct aad s).withPort p := by
  simp only [expectTag, State.withPhase_withPort, State.withPort_mem, tagGen_withPort,
    otkGen_withPort ((sameOutside_withPhase .derive s).withPort_datapath hd)]

theorem tagMatches_withPort (hd : (s.withPort p).datapath = s.datapath) (nonce ct tag aad : Range) :
    tagMatches nonce ct tag aad (s.withPort p) ↔ tagMatches nonce ct tag aad s := by
  rw [tagMatches, expectTag_withPort hd, State.withPort_ae, State.withPort_mem, ← tagMatches]

theorem decryptMem_withPort (hd : (s.withPort p).datapath = s.datapath) (nonce ct aad pt : Range) :
    decryptMem nonce ct aad pt (s.withPort p) = decryptMem nonce ct aad pt s := by
  have hm : matched nonce ct aad (s.withPort p) = (matched nonce ct aad s).withPort p := by
    rw [matched, expectTag_withPort hd, State.withPhase_withPort, State.withPhase_withPort, ← matched]
  rw [decryptMem, hm, copyAndStream_withPort ((sameOutside_matched nonce ct aad s).withPort_datapath hd),
    State.withPort_mem, ← decryptMem]

theorem decrypt_withPort (hd : (s.withPort p).datapath = s.datapath) (nonce ct tag aad pt : Range) :
    decrypt nonce ct tag aad pt (s.withPort p) = (decrypt nonce ct tag aad pt s).withPort p := by
  by_cases h : tagMatches nonce ct tag aad s
  · rw [decrypt_eq_of_match h, decrypt_eq_of_match ((tagMatches_withPort hd nonce ct tag aad).mpr h),
      decryptMem_withPort hd, aeadDone_withPort]
  · rw [decrypt_eq_of_mismatch h, decrypt_eq_of_mismatch (mt (tagMatches_withPort hd nonce ct tag aad).mp h),
      State.withPort_mem, aeadDone_withPort]

/-- Acceptance does not read the port (R258). -/
theorem checks_withPort (i : Instr) : checks i (s.withPort p) = checks i s := by
  cases i <;> rfl

theorem accepted_withPort {i : Instr} : accepted i (s.withPort p) ↔ accepted i s := by
  rw [accepted, checks_withPort]

/-- The work of a command carries the port along: another port that selects the same datapath makes no other
difference (R241). -/
theorem workOf_withPort {i : Instr} (ha : accepted i s) (hd : (s.withPort p).datapath = s.datapath) :
    workOf i (s.withPort p) = (workOf i s).withPort p := by
  have hp := accepted_withPort (p := p).mpr ha
  cases i with
  | keyLoad key => rw [workOf_keyLoad ha, workOf_keyLoad hp]; rfl
  | keyDispose => rfl
  | ccInit counter key nonce => rw [workOf_ccInit ha, workOf_ccInit hp]; rfl
  | ccXor buf => rw [workOf_ccXor ha, workOf_ccXor hp, xorStreamOn_withPort hd]; rfl
  | ccClear => rfl
  | pInit key => rw [workOf_pInit ha, workOf_pInit hp]; rfl
  | pUpdate data => rw [workOf_pUpdate ha, workOf_pUpdate hp]; rfl
  | pFinish tag => rw [workOf_pFinish ha, workOf_pFinish hp]; rfl
  | pVerify tagA tagB => rw [workOf_pVerify ha, workOf_pVerify hp]; rfl
  | aeEnc nonce pt aad ct tag => rw [workOf_aeEnc ha, workOf_aeEnc hp, encrypt_withPort hd]
  | aeEncc nonce pt aad out => rw [workOf_aeEncc ha, workOf_aeEncc hp, encrypt_withPort hd]
  | aeDec nonce ct tag aad pt => rw [workOf_aeDec ha, workOf_aeDec hp, decrypt_withPort hd]
  | aeDecc nonce inp aad pt => rw [workOf_aeDecc ha, workOf_aeDecc hp, decrypt_withPort hd]
  | capForce f => rfl
  | capRd => rfl

/-- The work of a command leaves its port as it was: only `advance` moves it (R36). -/
theorem workOf_port {i : Instr} (ha : accepted i s) : (workOf i s).ctx.port = s.ctx.port :=
  congrArg (fun t => t.ctx.port) (workOf_withPort (p := s.ctx.port) ha rfl)

end withPort

/-! ### The work of a command and the capability bits -/

theorem aeadDone_cap (m : Memory) (st : BitVec 8) (s : State) : (aeadDone m st s).cap = s.cap := rfl

theorem encrypt_cap (nonce pt aad ct tag : Range) (s : State) : (encrypt nonce pt aad ct tag s).cap = s.cap := by
  rw [encrypt_eq, aeadDone_cap]

theorem decrypt_cap (nonce ct tag aad pt : Range) (s : State) : (decrypt nonce ct tag aad pt s).cap = s.cap := by
  by_cases h : tagMatches nonce ct tag aad s
  · rw [decrypt_eq_of_match h, aeadDone_cap]
  · rw [decrypt_eq_of_mismatch h, aeadDone_cap]

/-- A command that generates blocks reads `CAP.SEL` and writes no capability bit (R241). -/
theorem workOf_cap_of_usesDatapath {i : Instr} {s : State} (ha : accepted i s) (hu : usesDatapath i = true) :
    (workOf i s).cap = s.cap := by
  cases i with
  | ccXor buf => rw [workOf_ccXor ha]; rfl
  | aeEnc nonce pt aad ct tag => rw [workOf_aeEnc ha, encrypt_cap]
  | aeEncc nonce pt aad out => rw [workOf_aeEncc ha, encrypt_cap]
  | aeDec nonce ct tag aad pt => rw [workOf_aeDec ha, decrypt_cap]
  | aeDecc nonce inp aad pt => rw [workOf_aeDecc ha, decrypt_cap]
  | _ => cases hu

/-! ### A beginning and its completion -/

theorem complete_accept {i : Instr} {s : State} (ha : accepted i s) :
    complete i s = .next (advance i (workOf i s)) := by
  rw [complete, exec_accept ha]

/-- A command begun selects the datapath that was selected before it (R242). -/
theorem begun_datapath (i : Instr) {s : State} (hb : s.ctx.port.busy = none) :
    (begun i s).datapath = s.datapath := by
  simp only [begun, State.datapath, State.withPort_port, hb]

/-- A command completes from its own beginning as it does from the state before: `advance` frees the port again. -/
theorem complete_begun {i : Instr} {s : State} (ha : accepted i s) (hb : s.ctx.port.busy = none) :
    complete i (begun i s) = complete i s := by
  have hw : workOf i (begun i s) = (workOf i s).withPort (begun i s).ctx.port :=
    workOf_withPort ha (begun_datapath i hb)
  have ha' : accepted i (begun i s) := accepted_withPort.mpr ha
  have hadvance : advance i (workOf i (begun i s)) = advance i (workOf i s) := by
    rw [hw, advance, advance, workOf_port ha]
    rfl
  rw [complete_accept ha', complete_accept ha, hadvance]

/-- Under the selection it has anyway, what leaves `CAP` alone answers the same. -/
theorem underSelection_self {go : State → Host.Outcome State Fault Refusal} {s t : State} (h : go s = .next t)
    (hc : t.cap = s.cap) : underSelection s.cap.sel go s = .next t := by
  have hs : go (s.withCap { s.cap with sel := s.cap.sel }) = .next t := h
  rw [underSelection, hs, ← hc]
  rfl

/-- A command begun completes under the selection it sampled, which is still the selection of `CAP` (R241, R242). -/
theorem finishCommand_begun {i : Instr} {s : State} (ha : accepted i s) :
    finishCommand (begun i s) = complete i (begun i s) := by
  have ha' : accepted i (begun i s) := accepted_withPort.mpr ha
  have hf : finishCommand (begun i s) =
      if usesDatapath i then underSelection s.cap.sel (complete i) (begun i s) else complete i (begun i s) := rfl
  rw [hf]
  split
  · next hu =>
    rw [complete_accept ha']
    exact underSelection_self (complete_accept ha') (workOf_cap_of_usesDatapath ha' hu)
  · rfl

/-- What presenting a command does: it is answered at once, whatever an accepted command would be passed on to, and
the port is left free; or it is accepted and passed on. -/
theorem presentThen_answered_or_passed (s : State) :
    (∃ o, (∀ go, presentThen go s = o) ∧ ∀ t, o = .next t → t.ctx.port.busy = none) ∨
      ∃ i, accepted i s ∧ s.ctx.port.busy = none ∧ ∀ go, presentThen go s = go i s := by
  cases hb : s.ctx.port.busy with
  | some b => exact .inl ⟨.fault .portBusy, fun go => by simp only [presentThen, hb], fun _ h => by cases h⟩
  | none =>
    cases hf : fetch s with
    | none => exact .inl ⟨.fault .runEnded, fun go => by simp only [presentThen, hb, hf], fun _ h => by cases h⟩
    | some e =>
      cases e with
      | error why =>
        refine .inl ⟨.next (illegalCommand s), fun go => by simp only [presentThen, hb, hf], ?_⟩
        rintro t ⟨⟩
        exact hb
      | ok i =>
        have hcomplete : ∀ t, complete i s = .next t → t.ctx.port.busy = none := by
          intro t h
          obtain ⟨u, -, rfl⟩ := complete_next h
          rfl
        by_cases hk : presentedKeyRace i s
        · exact .inl ⟨.refused .keyRace, fun go => by simp only [presentThen, hb, hf, hk, if_true],
            fun _ h => by cases h⟩
        · cases hv : verdict (checks i s) with
          | error st => exact .inl ⟨complete i s, fun go => by simp [presentThen, hb, hf, hk, hv], hcomplete⟩
          | refuse r => exact .inl ⟨complete i s, fun go => by simp [presentThen, hb, hf, hk, hv], hcomplete⟩
          | accept =>
            cases hr : races i s with
            | some r => exact .inl ⟨.refused r, fun go => by simp [presentThen, hb, hf, hk, hv, hr],
                fun _ h => by cases h⟩
            | none => exact .inr ⟨i, hv, rfl, fun go => by simp [presentThen, hb, hf, hk, hv, hr]⟩

/-- Settles O55: a command left in progress was accepted on a free port, so its completion is the completion from the
state before it began. -/
theorem beginThenFinish : Obligations.BeginThenFinish := by
  intro s u hu hbusy
  rcases presentThen_answered_or_passed s with ⟨o, ho, hfree⟩ | ⟨i, ha, hb, hgo⟩
  · exact absurd (hfree u ((ho beginCommand).symm.trans hu)) hbusy
  · have hbegun : u = begun i s := by
      rw [presentCommand, hgo] at hu
      exact (Host.Outcome.next.inj hu).symm
    calc finishCommand u = complete i (begun i s) := by rw [hbegun, finishCommand_begun ha]
      _ = complete i s := complete_begun ha hb
      _ = serve s := (hgo complete).symm

end Sys2Proof.Machine
end

section
/-! SUPPORT. The family of 10_state.md: the values after reset (O1, O2), what a command and a step can change (O48,
O56), what a presented command does (O7, O8, O58), and the invariants that every step keeps (O50, O57). -/

namespace Sys2Proof.Machine

/-! ### Which registers a command can change -/

/-- `CC.INIT`, `CC.XOR`, `CC.CLEAR` and `AE.*`: the commands that write the ChaCha20 unit (R22, R24). -/
def writesCc : Instr → Bool
  | .ccInit _ _ _ | .ccXor _ | .ccClear => true
  | i => isAead i

/-- `P.INIT`, `P.UPDATE`, `P.FINISH` and `AE.*`: the commands that write the Poly1305 unit (R27). -/
def writesPoly : Instr → Bool
  | .pInit _ | .pUpdate _ | .pFinish _ => true
  | i => isAead i

theorem writesCc_eq_false {i : Instr} (hinit : ∀ c k n, i ≠ .ccInit c k n) (hxor : ∀ b, i ≠ .ccXor b)
    (hclear : i ≠ .ccClear) (ha : isAead i = false) : writesCc i = false := by
  cases i with
  | ccInit c k n => exact absurd rfl (hinit c k n)
  | ccXor b => exact absurd rfl (hxor b)
  | ccClear => exact absurd rfl hclear
  | _ => exact ha

theorem writesPoly_eq_false {i : Instr} (hinit : ∀ k, i ≠ .pInit k) (hupdate : ∀ d, i ≠ .pUpdate d)
    (hfinish : ∀ g, i ≠ .pFinish g) (ha : isAead i = false) : writesPoly i = false := by
  cases i with
  | pInit k => exact absurd rfl (hinit k)
  | pUpdate d => exact absurd rfl (hupdate d)
  | pFinish g => exact absurd rfl (hfinish g)
  | _ => exact ha

theorem writesCc_of_isAead {i : Instr} (h : isAead i = true) : writesCc i = true := by
  cases i <;> simp_all [writesCc, isAead]

theorem writesPoly_of_isAead {i : Instr} (h : isAead i = true) : writesPoly i = true := by
  cases i <;> simp_all [writesPoly, isAead]

/-- From `s` to `t`, every register that the command `i` does not write is as it was (R21, R32, R42). -/
structure RegistersKept (i : Instr) (s t : State) : Prop where
  key : writesKey i = false → KeyStable s t
  cap : (∀ f, i ≠ .capForce f) → t.cap = s.cap
  cc : writesCc i = false → t.ctx.cc = s.ctx.cc
  poly : writesPoly i = false → t.ctx.poly = s.ctx.poly
  ae : isAead i = false → t.ctx.ae = s.ctx.ae
  others : t.others = s.others
  cur : t.cur = s.cur
  port : t.ctx.port = s.ctx.port
  moves : t.moves = s.moves

namespace RegistersKept

theorem refl (i : Instr) (s : State) : RegistersKept i s s :=
  ⟨fun _ => ⟨rfl, rfl⟩, fun _ => rfl, fun _ => rfl, fun _ => rfl, fun _ => rfl, rfl, rfl, rfl, rfl⟩

section
variable {i : Instr} {s t : State} (h : RegistersKept i s t)
include h

theorem respond (st : Status) (v : Word) : RegistersKept i s (t.respond st v) :=
  ⟨h.key, h.cap, h.cc, h.poly, h.ae, h.others, h.cur, h.port, h.moves⟩

theorem withMem (m : Memory) : RegistersKept i s (t.withMem m) :=
  ⟨h.key, h.cap, h.cc, h.poly, h.ae, h.others, h.cur, h.port, h.moves⟩

theorem withKey (hi : writesKey i = true) (k : Vector Byte 32) (v : Bool) : RegistersKept i s (t.withKey k v) :=
  ⟨by simp [hi], h.cap, h.cc, h.poly, h.ae, h.others, h.cur, h.port, h.moves⟩

theorem withCc (hi : writesCc i = true) (u : ChaChaUnit) : RegistersKept i s (t.withCc u) :=
  ⟨h.key, h.cap, by simp [hi], h.poly, h.ae, h.others, h.cur, h.port, h.moves⟩

theorem withPoly (hi : writesPoly i = true) (u : PolyUnit) : RegistersKept i s (t.withPoly u) :=
  ⟨h.key, h.cap, h.cc, by simp [hi], h.ae, h.others, h.cur, h.port, h.moves⟩

end

theorem withCap (f : Bool) (s : State) (c : Cap) : RegistersKept (.capForce f) s (s.withCap c) :=
  ⟨fun _ => ⟨rfl, rfl⟩, fun h => absurd rfl (h f), fun _ => rfl, fun _ => rfl, fun _ => rfl, rfl, rfl, rfl, rfl⟩

theorem aeadDone {i : Instr} (hi : isAead i = true) (m : Memory) (st : BitVec 8) (s : State) :
    RegistersKept i s (Machine.aeadDone m st s) :=
  ⟨fun _ => ⟨rfl, rfl⟩, fun _ => rfl, by simp [writesCc_of_isAead hi], by simp [writesPoly_of_isAead hi],
    by simp [hi], rfl, rfl, rfl, rfl⟩

end RegistersKept

/-- Every accepted `AE.*` command ends with the ephemeral registers as reset left them (R213). -/
theorem workOf_aead {i : Instr} {s : State} (ha : accepted i s) (hi : isAead i = true) :
    ∃ m st, workOf i s = aeadDone m st s := by
  have hdec : ∀ nonce ct tag aad pt, ∃ m st, decrypt nonce ct tag aad pt s = aeadDone m st s := by
    intro nonce ct tag aad pt
    by_cases h : tagMatches nonce ct tag aad s
    · exact ⟨_, _, decrypt_eq_of_match h⟩
    · exact ⟨_, _, decrypt_eq_of_mismatch h⟩
  cases i with
  | aeEnc nonce pt aad ct tag => exact ⟨_, _, (workOf_aeEnc ha).trans (encrypt_eq _ _ _ _ _ s)⟩
  | aeEncc nonce pt aad out => exact ⟨_, _, (workOf_aeEncc ha).trans (encrypt_eq _ _ _ _ _ s)⟩
  | aeDec nonce ct tag aad pt => rw [workOf_aeDec ha]; exact hdec _ _ _ _ _
  | aeDecc nonce inp aad pt => rw [workOf_aeDecc ha]; exact hdec _ _ _ _ _
  | _ => cases hi

theorem workOf_registersKept {i : Instr} {s : State} (ha : accepted i s) : RegistersKept i s (workOf i s) := by
  by_cases hi : isAead i = true
  · obtain ⟨m, st, hw⟩ := workOf_aead ha hi
    rw [hw]
    exact .aeadDone hi m st s
  have h := RegistersKept.refl i s
  cases i with
  | keyLoad key => rw [workOf_keyLoad ha]; exact (h.withKey rfl _ _).respond _ _
  | keyDispose => rw [workOf_keyDispose]; exact (h.withKey rfl _ _).respond _ _
  | ccInit counter key nonce => rw [workOf_ccInit ha]; exact (h.withCc rfl _).respond _ _
  | ccXor buf =>
    rw [workOf_ccXor ha, xorStreamOn_eq]
    exact (((h.withCc rfl _).withMem _).withCc rfl _).respond _ _
  | ccClear => rw [workOf_ccClear]; exact (h.withCc rfl _).respond _ _
  | pInit key => rw [workOf_pInit ha]; exact (h.withPoly rfl _).respond _ _
  | pUpdate data => rw [workOf_pUpdate ha]; exact (h.withPoly rfl _).respond _ _
  | pFinish tag => rw [workOf_pFinish ha]; exact ((h.withMem _).withPoly rfl _).respond _ _
  | pVerify tagA tagB => rw [workOf_pVerify ha]; exact h.respond _ _
  | capForce f => rw [workOf_capForce]; exact (RegistersKept.withCap f s _).respond _ _
  | capRd => rw [workOf_capRd]; exact h.respond _ _
  | _ => exact absurd rfl hi

/-- A command that completes, with whatever status, keeps every register it does not write (R260). -/
theorem exec_registersKept {i : Instr} {s t : State} (h : exec i s = .next t) : RegistersKept i s t := by
  rcases exec_next h with ⟨ha, rfl⟩ | ⟨st, -, rfl⟩
  · exact workOf_registersKept ha
  · exact (RegistersKept.refl i s).respond st 0#32

/-- Settles O48: the frame of an accepted command by its equation, of a rejected one by its response alone. -/
theorem registerFrame : Obligations.RegisterFrame := by
  intro i s t h
  have k := exec_registersKept h
  exact ⟨k.key, k.cap, fun h1 h2 h3 h4 => k.cc (writesCc_eq_false h1 h2 h3 h4),
    fun h1 h2 h3 h4 => k.poly (writesPoly_eq_false h1 h2 h3 h4), k.ae, k.others, k.cur, k.port, k.moves⟩

/-! ### One context at a time (R42) -/

/-- What is served leaves the choice of the active context and the other contexts alone. -/
theorem Served.cur_others {s t : State} (h : Served s t) : t.cur = s.cur ∧ t.others = s.others := by
  cases h with
  | illegal h => rw [h]; exact ⟨rfl, rfl⟩
  | completed i u hx h =>
    have k := exec_registersKept hx
    rw [h]
    exact ⟨k.cur, k.others⟩
  | resumed i sel u _ hx h =>
    have k := exec_registersKept hx
    rw [h]
    exact ⟨k.cur, k.others⟩
  | begun i _ h => rw [h]; exact ⟨rfl, rfl⟩

/-- With the other contexts as they were, the list of all contexts differs at the active context's number only. -/
theorem contexts_eq_set {s t : State} (hc : t.cur = s.cur) (ho : t.others = s.others)
    (hb : s.cur ≤ s.others.length) : t.contexts = s.contexts.set s.cur t.ctx := by
  have hl : (s.others.take s.cur).length = s.cur := by simpa using hb
  simp only [State.contexts, hc, ho]
  rw [List.set_append_right _ _ (by omega), hl, Nat.sub_self, List.set_cons_zero]

theorem select_cur {k : Nat} {s t : State} (h : s.select k = some t) : t.cur = k := by
  obtain ⟨c, -, rfl⟩ := select_some h
  rfl

/-- The number of the active context is one of the contexts' numbers once it has been chosen. -/
theorem select_cur_le {k : Nat} {s t : State} (h : s.select k = some t) : t.cur ≤ t.others.length := by
  have hlen := congrArg List.length (select_contexts h)
  obtain ⟨c, hc, rfl⟩ := select_some h
  obtain ⟨hk, -⟩ := List.getElem?_eq_some_iff.mp hc
  rw [contexts_length] at hlen
  change k ≤ _
  omega

/-- A step with no move listed serves the active context's next command (log 8). -/
theorem step_nil {s : State} (hm : s.moves = []) : step s = serve s := by
  rw [step, nextMove, hm]

/-- A step with a move listed makes it. -/
theorem step_cons {s : State} {m : HostMove} {ms : List HostMove} (hm : s.moves = m :: ms) :
    step s = hostMove m (s.withMoves ms) := by
  rw [step, nextMove, hm]

/-- A move of the host that names context `k` serves context `k`. -/
theorem step_served_of_move {s t : State} {k : Nat} {ms : List HostMove}
    (hm : s.moves = .run k :: ms ∨ s.moves = .start k :: ms ∨ s.moves = .finish k :: ms) (h : step s = .next t) :
    ∃ u, (s.withMoves ms).select k = some u ∧ Served u t := by
  rcases hm with hm | hm | hm <;> rw [step_cons hm] at h <;> obtain ⟨u, hu, h⟩ := inContext_next h
  · exact ⟨u, hu, serve_next h⟩
  · exact ⟨u, hu, presentCommand_next h⟩
  · exact ⟨u, hu, finishCommand_next h⟩

/-- Settles O56: choosing a context changes none, and what is then served writes at that context's number only. -/
theorem contextIsolation : Obligations.ContextIsolation := by
  constructor
  · intro s t k ms hm h
    obtain ⟨u, hu, hserved⟩ := step_served_of_move hm h
    obtain ⟨hcur, hothers⟩ := hserved.cur_others
    have hset : t.contexts = s.contexts.set k t.ctx := by
      rw [contexts_eq_set hcur hothers (select_cur_le hu), select_contexts hu, select_cur hu]
      rfl
    refine ⟨hcur.trans (select_cur hu), ?_, fun j hj => ?_⟩
    · rw [hset, List.length_set]
    · rw [hset, List.getElem?_set_ne hj.symm]
  · intro s t hm h
    rw [step_nil hm] at h
    exact (serve_next h).cur_others

/-! ### Taking the next command -/

theorem takeRef_eq_some_iff {ws rest : List Word} {r : Ref} : takeRef ws = some (r, rest) ↔ ws = r.words ++ rest :=
  ⟨takeRef_some, fun h => h ▸ takeRef_words r rest⟩

theorem takeWord_eq_some_iff {ws rest : List Word} {w : Word} : takeWord ws = some (w, rest) ↔ ws = w :: rest := by
  cases ws <;> simp [takeWord]

/-- The operands read are the immediate and then the references, in their words (R72, R77). -/
theorem decodeOperands_some {op : Opcode} {f : Bool} {ws rest : List Word} {i : Instr}
    (h : decodeOperands op f ws = some (i, rest)) : ws = i.immediate ++ i.refs.flatMap Ref.words ++ rest := by
  cases op <;> simp only [decodeOperands, Option.bind_eq_bind, Option.pure_def, Option.bind_eq_some_iff,
    Option.some.injEq, Prod.exists, Prod.mk.injEq, takeRef_eq_some_iff, takeWord_eq_some_iff] at h
  case keyLoad | ccXor | pInit | pUpdate | pFinish =>
    obtain ⟨r, _, rfl, rfl, rfl⟩ := h
    simp [Instr.immediate, Instr.refs]
  case keyDispose | ccClear | capForce | capRd =>
    obtain ⟨rfl, rfl⟩ := h
    rfl
  case ccInit =>
    obtain ⟨w, _, rfl, r, _, rfl, q, _, rfl, rfl, rfl⟩ := h
    simp [Instr.immediate, Instr.refs]
  case pVerify =>
    obtain ⟨r, _, rfl, q, _, rfl, rfl, rfl⟩ := h
    simp [Instr.immediate, Instr.refs]
  case aeEncc | aeDecc =>
    obtain ⟨r, _, rfl, q, _, rfl, u, _, rfl, v, _, rfl, rfl, rfl⟩ := h
    simp [Instr.immediate, Instr.refs]
  case aeEnc | aeDec =>
    obtain ⟨r, _, rfl, q, _, rfl, u, _, rfl, v, _, rfl, x, _, rfl, rfl, rfl⟩ := h
    simp [Instr.immediate, Instr.refs]

/-- What follows a decoded command stands `Instr.length` words on (R77). -/
theorem decode_drop {ws rest : List Word} {i : Instr} (h : decode ws = .ok (i, rest)) : ws.drop i.length = rest := by
  cases ws with
  | nil => cases h
  | cons w ws =>
    simp only [decode] at h
    split at h
    · cases h
    · split at h
      · next r hr =>
        cases h
        have hlen : i.length = (i.immediate ++ i.refs.flatMap Ref.words).length + 1 := by
          rw [Instr.length, commandLength_word0, List.length_append, flatMap_words_length]
          omega
        rw [decodeOperands_some hr, hlen, List.drop_succ_cons, List.drop_left]
      · cases h

/-- Where a command decodes at `ci`, the run has not reached the stream's end. -/
theorem ci_lt_of_decode {p : Port} {r : Instr × List Word} (h : decode (p.stream.drop p.ci) = .ok r) :
    p.ci < p.stream.length := by
  by_contra hc
  rw [List.drop_of_length_le (by omega)] at h
  cases h

theorem fetch_ok {s : State} {i : Instr} {rest : List Word} (he : s.ctx.port.ended = false)
    (hd : decode (s.ctx.port.stream.drop s.ctx.port.ci) = .ok (i, rest)) : fetch s = some (.ok i) := by
  have hlt := ci_lt_of_decode hd
  simp [fetch, he, hd, hlt]

theorem fetch_error {s : State} {why : Illegal} (he : s.ctx.port.ended = false)
    (hlt : s.ctx.port.ci < s.ctx.port.stream.length)
    (hd : decode (s.ctx.port.stream.drop s.ctx.port.ci) = .error why) : fetch s = some (.error why) := by
  simp [fetch, he, hd, hlt]

/-- No command is fetched once the run has ended (R36, R78). -/
theorem fetch_none {s : State} (h : s.ctx.port.ended = true ∨ s.ctx.port.stream.length ≤ s.ctx.port.ci) :
    fetch s = none := by
  simp [fetch, h]

theorem serve_runEnded {s : State} (hb : s.ctx.port.busy = none) (hf : fetch s = none) :
    serve s = .fault .runEnded := by
  simp only [serve, presentThen, hb, hf]

theorem serve_illegal {s : State} {why : Illegal} (hb : s.ctx.port.busy = none) (hf : fetch s = some (.error why)) :
    serve s = .next (illegalCommand s) := by
  simp only [serve, presentThen, hb, hf]

/-- Settles O8: the illegal command leaves the port `ended`, so nothing is fetched after it; nor is anything at the
stream's end. -/
theorem illegalCommandEndsRun : Obligations.IllegalCommandEndsRun := by
  intro s hm hb
  refine ⟨fun why he hlt hd => ⟨illegalCommand s, ?_, ?_, rfl⟩, fun hend => ?_⟩
  · rw [step_nil hm, serve_illegal hb (fetch_error he hlt hd)]
  · rw [step_nil (s := illegalCommand s) hm, serve_runEnded (s := illegalCommand s) hb (fetch_none (.inl rfl))]
  · rw [step_nil hm, serve_runEnded hb (fetch_none (.inr hend.ge))]

/-! ### A presented command beside commands in progress -/

theorem intersects_iff {as bs : List Range} : intersects as bs = true ↔ ∃ a ∈ as, ∃ b ∈ bs, a.Meets b := by
  simp only [intersects, List.any_eq_true, Bool.not_eq_true', disjoint_false_iff_meets]

/-- The machine's test for a race on memory is the rule's (R65). -/
theorem bufferRaces_iff {i j : Instr} : bufferRaces i j = true ↔ BuffersRace i j := by
  rw [bufferRaces, Bool.or_eq_true, intersects_iff, intersects_iff, BuffersRace]

section
variable {i : Instr} {s : State}
  (hrace : ∀ j ∈ inProgress s.others, ¬ BuffersRace i j ∧ keyRaces i j = false)
include hrace

/-- A command that races with none in progress may begin (R65, R67). -/
theorem races_eq_none : races i s = none := by
  have hbuf : (inProgress s.others).any (bufferRaces i) = false :=
    List.any_eq_false.mpr fun j hj => mt bufferRaces_iff.mp (hrace j hj).1
  have hkey : (inProgress s.others).any (keyRaces i) = false :=
    List.any_eq_false.mpr fun j hj => by simp [(hrace j hj).2]
  simp [races, hbuf, hkey]

theorem presentedKeyRace_eq_false : presentedKeyRace i s = false := by
  rw [presentedKeyRace, Bool.and_eq_false_iff, or_iff_not_imp_left, Bool.not_eq_false]
  intro hw
  refine List.any_eq_false.mpr fun j hj => ?_
  have := (hrace j hj).2
  simp_all [keyRaces]

/-- Beside commands it does not race with, a fetched command runs, whether or not acceptance rejects it. -/
theorem serve_complete (hb : s.ctx.port.busy = none) (hf : fetch s = some (.ok i)) : serve s = complete i s := by
  have hk := presentedKeyRace_eq_false hrace
  have hr := races_eq_none hrace
  cases hv : verdict (checks i s) <;> simp [serve, presentThen, hb, hf, hk, hr, hv]

end

/-- A command that completes on a free port leaves the port as it was, but for `ci` (R36). -/
theorem complete_of_next {i : Instr} {s t : State} (hb : s.ctx.port.busy = none) (hx : exec i s = .next t) :
    complete i s =
      .next { t with ctx := { t.ctx with port := { s.ctx.port with ci := s.ctx.port.ci + i.length } } } := by
  have hp := (exec_registersKept hx).port
  simp only [complete, hx, advance, State.withPort, hp, ← hb]

/-- Settles O58: the move only chooses the context; the command fetched there races with none and runs to
completion. -/
theorem presentedCommandRuns : Obligations.PresentedCommandRuns := by
  intro s u i rest hpresented hb he hd hrace
  have hstep : step s = serve u := by
    rcases hpresented with ⟨hm, rfl⟩ | ⟨k, ms, hm, hu⟩
    · exact step_nil hm
    · simp only [step_cons hm, hostMove, inContext, hu]
  rw [hstep, serve_complete hrace hb (fetch_ok he hd)]
  cases hx : exec i u with
  | next t => exact complete_of_next hb hx
  | fault f => exact absurd hx (exec_no_fault i u f)
  | refused r => simp only [complete, hx]

/-- Settles O7: the case of O58 with no move listed and nothing in progress. -/
theorem stepRunsDecodedCommand : Obligations.StepRunsDecodedCommand := by
  intro s i rest hm hb he hidle hd
  refine ⟨?_, presentedCommandRuns s s i rest (.inl ⟨hm, rfl⟩) hb he hd (by simp [hidle])⟩
  rw [← List.drop_drop, decode_drop hd]

/-! ### Invariants of every context -/

/-- A property of a context that every answer of the engine, every move of the port and the work of every accepted
command keeps. -/
structure ContextInvariant (p : Context → Prop) : Prop where
  raised : ∀ (c : Context) (st : Status), p c → p { c with status := st.code, value := 0#32 }
  port : ∀ (c : Context) (q : Port), p c → p { c with port := q }
  worked : ∀ (i : Instr) (s : State), accepted i s → p s.ctx → p (workOf i s).ctx

namespace ContextInvariant
variable {p : Context → Prop} (hI : ContextInvariant p) {s t : State}
include hI

theorem exec {i : Instr} (hx : Machine.exec i s = .next t) (hp : p s.ctx) : p t.ctx := by
  rcases exec_next hx with ⟨ha, rfl⟩ | ⟨st, -, rfl⟩
  · exact hI.worked i s ha hp
  · exact hI.raised s.ctx st hp

theorem served (h : Served s t) (hp : p s.ctx) : p t.ctx := by
  cases h with
  | illegal h => rw [h]; exact hI.port _ _ (hI.raised _ .illegalCommand hp)
  | completed i u hx h => rw [h]; exact hI.port _ _ (hI.exec hx hp)
  | resumed i sel u _ hx h => rw [h]; exact hI.port _ _ (hI.exec hx hp)
  | begun i _ h => rw [h]; exact hI.port _ _ hp

theorem everyContext_served (h : Served s t) (hp : EveryContext p s) : EveryContext p t :=
  ⟨hI.served h hp.1, h.cur_others.2 ▸ hp.2⟩

/-- Every step keeps it in every context: only the context served is written. -/
theorem step (h : Machine.step s = .next t) (hp : EveryContext p s) : EveryContext p t := by
  cases step_next h with
  | alone h => exact hI.everyContext_served h hp
  | inContext k ms u hu h => exact hI.everyContext_served h (everyContext_select (s := s.withMoves ms) hu hp)
  | hostWrite ms a bs _ h => rw [h]; exact hp
  | hostRead ms h => rw [h]; exact hp

end ContextInvariant

/-! ### What an accepted command leaves in each unit -/

/-- The ChaCha20 unit after an accepted command: as it was, set up by `CC.INIT`, or as reset left it. -/
theorem workOf_cc {i : Instr} {s : State} (ha : accepted i s) :
    (workOf i s).ctx.cc = s.ctx.cc ∨ (∃ x, (workOf i s).ctx.cc = { s.ctx.cc with s := x, live := true }) ∨
      (workOf i s).ctx.cc = .reset := by
  by_cases hi : isAead i = true
  · obtain ⟨m, st, hw⟩ := workOf_aead ha hi
    exact .inr (.inr (by rw [hw]; rfl))
  cases i with
  | ccInit counter key nonce => exact .inr (.inl ⟨_, by rw [workOf_ccInit ha]; rfl⟩)
  | ccXor buf => exact .inr (.inr (by rw [workOf_ccXor ha]; rfl))
  | ccClear => exact .inr (.inr rfl)
  | _ => exact .inl ((workOf_registersKept ha).cc (by simp_all [writesCc]))

/-- The Poly1305 unit after an accepted command: as it was, keyed by `P.INIT`, with data absorbed into a live unit by
`P.UPDATE`, or as reset left it. -/
theorem workOf_poly {i : Instr} {s : State} (ha : accepted i s) :
    (workOf i s).ctx.poly = s.ctx.poly ∨ (∃ k, (workOf i s).ctx.poly = polyKey k true s.ctx.poly) ∨
      (s.ctx.poly.live = true ∧ ∃ m, (workOf i s).ctx.poly = absorb m s.ctx.poly) ∨
      (workOf i s).ctx.poly = .reset := by
  by_cases hi : isAead i = true
  · obtain ⟨m, st, hw⟩ := workOf_aead ha hi
    exact .inr (.inr (.inr (by rw [hw]; rfl)))
  cases i with
  | pInit key => exact .inr (.inl ⟨_, by rw [workOf_pInit ha]; rfl⟩)
  | pUpdate data =>
    have hlive : s.ctx.poly.live = true := ((verdict_accept_iff _).mp ha).1
    exact .inr (.inr (.inl ⟨hlive, _, by rw [workOf_pUpdate ha]; rfl⟩))
  | pFinish tag => exact .inr (.inr (.inr (by rw [workOf_pFinish ha]; rfl)))
  | _ => exact .inl ((workOf_registersKept ha).poly (by simp_all [writesPoly]))

/-- The orchestrator's registers after an accepted command: as they were, or as reset left them. -/
theorem workOf_ae {i : Instr} {s : State} (ha : accepted i s) :
    (workOf i s).ctx.ae = s.ctx.ae ∨ (workOf i s).ctx.ae = .reset := by
  cases hi : isAead i with
  | true =>
    obtain ⟨m, st, hw⟩ := workOf_aead ha hi
    exact .inr (by rw [hw]; rfl)
  | false => exact .inl ((workOf_registersKept ha).ae hi)

/-! ### Fewer than 16 bytes wait (R27) -/

theorem leftover_invariant : ContextInvariant fun c => c.poly.leftover.toNat < 16 where
  raised _ _ hp := hp
  port _ _ hp := hp
  worked i s ha hp := by
    rcases workOf_poly ha with h | ⟨k, h⟩ | ⟨-, m, h⟩ | h <;> rw [h]
    · exact hp
    · rw [polyKey_leftover]; decide
    · exact absorb_leftover_lt m s.ctx.poly
    · decide

/-- Settles O57: an absorber leaves the length of its bytes modulo 16, and a keyed or wiped unit none. -/
theorem stepKeepsLeftoverBounded : Obligations.StepKeepsLeftoverBounded :=
  fun _ _ hp h => leftover_invariant.step h hp

/-! ### Zeroisation (R20, R21, R34, R40) -/

/-- The transients that `PBLOCK` clears are zero (R159). -/
structure BlockScratchZero (p : PolyUnit) : Prop where
  d : p.d = .zero
  c : p.c = 0#32
  t : p.t = .zero
  b : p.b = .zero

theorem pblock_blockScratchZero (m : List Byte) (p : PolyUnit) : BlockScratchZero (pblock m p) :=
  ⟨rfl, rfl, rfl, rfl⟩

theorem absorbBlocks_blockScratchZero (k : Nat) (m : List Byte) {p : PolyUnit} (h : BlockScratchZero p) :
    BlockScratchZero (absorbBlocks k m p) := by
  induction k generalizing m p with
  | zero => exact h
  | succ k ih => exact ih _ (pblock_blockScratchZero _ p)

theorem absorbAligned_blockScratchZero (m : List Byte) {p : PolyUnit} (h : BlockScratchZero p) :
    BlockScratchZero (absorbAligned m p) := by
  have hq := absorbBlocks_blockScratchZero (m.length / 16) m h
  by_cases hl : (blockTail m).length = 0
  · rw [absorbAligned_whole hl]
    exact hq
  · rw [absorbAligned_tail hl]
    exact ⟨hq.d, hq.c, hq.t, hq.b⟩

theorem absorb_blockScratchZero (m : List Byte) {p : PolyUnit} (h : BlockScratchZero p) :
    BlockScratchZero (absorb m p) := by
  by_cases h0 : p.leftover.toNat = 0
  · rw [absorb_aligned h0]
    exact absorbAligned_blockScratchZero m h
  · by_cases hs : p.leftover.toNat + m.length < 16
    · rw [absorb_short h0 hs]
      exact ⟨h.d, h.c, h.t, h.b⟩
    · rw [absorb_fill h0 (by omega)]
      exact absorbAligned_blockScratchZero _ ⟨rfl, rfl, rfl, rfl⟩

/-- The ChaCha20 unit's part of the zeroisation invariant. -/
structure CcZeroised (u : ChaChaUnit) : Prop where
  x : u.x = .zero
  ks : u.ks = zeroBytes 64
  dead : u.live = false → u.s = .zero

/-- The Poly1305 unit's part of the zeroisation invariant. -/
structure PolyZeroised (p : PolyUnit) : Prop where
  block : BlockScratchZero p
  g : p.g = .zero
  f : p.f = 0#64
  mask : p.mask = 0#32
  w : p.w = .zero
  final : p.final = false
  dead : p.live = false → p = .reset

/-- The zeroisation invariant of a context, unit by unit: the orchestrator's registers are all scratch. -/
structure UnitsZeroised (c : Context) : Prop where
  cc : CcZeroised c.cc
  poly : PolyZeroised c.poly
  ae : c.ae = .reset

theorem aead_eq_reset_iff {u : AeadUnit} :
    u = .reset ↔ u.otk = zeroBytes 32 ∧ u.ctag = zeroBytes 16 ∧ u.lenblk = zeroBytes 16 ∧ u.phase = .idle := by
  cases u
  simp [AeadUnit.reset]

theorem unitsZeroised_iff {c : Context} : UnitsZeroised c ↔ ScratchZero c ∧ DeadUnitsZero c := by
  constructor
  · rintro ⟨hc, ⟨hb, hg, hf, hmask, hw, hfinal, hdead⟩, ha⟩
    obtain ⟨hotk, hctag, hlenblk, hphase⟩ := aead_eq_reset_iff.mp ha
    exact ⟨⟨hc.x, hc.ks, hb.d, hg, hb.c, hf, hmask, hb.b, hb.t, hw, hotk, hctag, hlenblk, hphase⟩,
      ⟨hc.dead, hdead, hfinal⟩⟩
  · rintro ⟨hs, hd⟩
    exact ⟨⟨hs.x, hs.ks, hd.cc⟩,
      ⟨⟨hs.d, hs.carry, hs.t, hs.b⟩, hs.g, hs.f, hs.mask, hs.w, hd.final, hd.poly⟩,
      aead_eq_reset_iff.mpr ⟨hs.otk, hs.ctag, hs.lenblk, hs.phase⟩⟩

theorem zeroised_iff {s : State} : Zeroised s ↔ KeyWiped s ∧ EveryContext UnitsZeroised s := by
  simp only [Zeroised, EveryContext, unitsZeroised_iff]

theorem ccZeroised_reset : CcZeroised .reset := ⟨rfl, rfl, fun _ => rfl⟩

theorem polyZeroised_reset : PolyZeroised .reset :=
  ⟨⟨rfl, rfl, rfl, rfl⟩, rfl, rfl, rfl, rfl, rfl, fun _ => rfl⟩

/-- `P.INIT` writes no scratch, and the unit is live after it (R180). -/
theorem polyZeroised_polyKey (k : List Byte) {p : PolyUnit} (h : PolyZeroised p) : PolyZeroised (polyKey k true p) :=
  ⟨⟨h.block.d, h.block.c, h.block.t, h.block.b⟩, h.g, h.f, h.mask, h.w, rfl, by simp⟩

/-- `ABSORB` ends with its scratch cleared, and a live unit stays live (R181, R186). -/
theorem polyZeroised_absorb (m : List Byte) {p : PolyUnit} (hlive : p.live = true) (h : PolyZeroised p) :
    PolyZeroised (absorb m p) := by
  have k := absorb_sameKeying m p
  exact ⟨absorb_blockScratchZero m h.block, k.g.trans h.g, k.f.trans h.f, k.mask.trans h.mask, k.w.trans h.w,
    k.final.trans h.final, by simp [k.live, hlive]⟩

theorem unitsZeroised_invariant : ContextInvariant UnitsZeroised where
  raised _ _ hp := ⟨hp.cc, hp.poly, hp.ae⟩
  port _ _ hp := ⟨hp.cc, hp.poly, hp.ae⟩
  worked i s ha hp := by
    constructor
    · rcases workOf_cc ha with h | ⟨x, h⟩ | h <;> rw [h]
      · exact hp.cc
      · exact ⟨hp.cc.x, hp.cc.ks, by simp⟩
      · exact ccZeroised_reset
    · rcases workOf_poly ha with h | ⟨k, h⟩ | ⟨hlive, m, h⟩ | h <;> rw [h]
      · exact hp.poly
      · exact polyZeroised_polyKey k hp.poly
      · exact polyZeroised_absorb m hlive hp.poly
      · exact polyZeroised_reset
    · rcases workOf_ae ha with h | h <;> rw [h]
      exact hp.ae

/-- The key register is wiped whenever `KEY_VALID` is 0: it is written by `KEY.LOAD`, which sets the flag, and by
`KEY.DISPOSE`, which zeroises it (R201, R202). -/
theorem exec_keyWiped {i : Instr} {s t : State} (hx : exec i s = .next t) (hk : KeyWiped s) : KeyWiped t := by
  rcases exec_next hx with ⟨ha, rfl⟩ | ⟨st, -, rfl⟩
  · cases i with
    | keyLoad key => rw [workOf_keyLoad ha]; exact fun h => by simp at h
    | keyDispose => exact fun _ => rfl
    | _ =>
      obtain ⟨hkey, hvalid⟩ := (workOf_registersKept ha).key rfl
      rw [KeyWiped, hkey, hvalid]
      exact hk
  · exact hk

theorem Served.keyWiped {s t : State} (h : Served s t) (hk : KeyWiped s) : KeyWiped t := by
  cases h with
  | illegal h => rw [h]; exact hk
  | completed i u hx h =>
    have hu : KeyWiped u := exec_keyWiped hx hk
    rw [h]
    exact hu
  | resumed i sel u _ hx h =>
    have hu : KeyWiped u := exec_keyWiped hx hk
    rw [h]
    exact hu
  | begun i _ h => rw [h]; exact hk

theorem step_keyWiped {s t : State} (h : step s = .next t) (hk : KeyWiped s) : KeyWiped t := by
  cases step_next h with
  | alone h => exact h.keyWiped hk
  | inContext k ms u hu h =>
    obtain ⟨c, -, rfl⟩ := select_some hu
    exact h.keyWiped hk
  | hostWrite ms a bs _ h => rw [h]; exact hk
  | hostRead ms h => rw [h]; exact hk

/-- Settles O50: the key register and every context keep their part of the invariant. -/
theorem stepKeepsZeroised : Obligations.StepKeepsZeroised :=
  fun _ _ hz h =>
    have ⟨hk, hc⟩ := zeroised_iff.mp hz
    zeroised_iff.mpr ⟨step_keyWiped h hk, unitsZeroised_invariant.step h hc⟩

/-! ### Reset (R41, R281) -/

/-- What holds of a context after reset holds of every context of the machine after reset. -/
theorem everyContext_resetWith {p : Context → Prop} (h : p .reset) (q : Params) (mem : Memory) :
    EveryContext p (State.resetWith q mem) :=
  ⟨h, fun _ hc => List.eq_of_mem_replicate hc ▸ h⟩

/-- `CAP.SEL` after reset (R41). -/
theorem selBit_cap_reset (p : Params) : selBit (Cap.reset p).sel = (p.hwVec128 && !p.forceScalarReset) := by
  simp only [Cap.reset]
  cases p.hwVec128 && !p.forceScalarReset <;> rfl

/-- Settles O1: each register by the definition of its unit after reset. -/
theorem resetValues : Obligations.ResetValues := by
  intro p mem
  refine ⟨rfl, rfl, rfl, rfl, selBit_cap_reset p, rfl, List.length_replicate, everyContext_resetWith ?_ p mem⟩
  and_intros <;> rfl

theorem polyBounded_reset : PolyBounded .reset where
  acc := by constructor <;> decide
  mul := { r := by constructor <;> decide, top := by decide, s1 := rfl, s2 := rfl, s3 := rfl, s4 := rfl }

theorem zeroised_resetWith (p : Params) (mem : Memory) : Zeroised (State.resetWith p mem) :=
  zeroised_iff.mpr ⟨fun _ => rfl, everyContext_resetWith ⟨ccZeroised_reset, polyZeroised_reset, rfl⟩ p mem⟩

theorem limbsBounded_resetWith (p : Params) (mem : Memory) : LimbsBounded (State.resetWith p mem) :=
  everyContext_resetWith polyBounded_reset p mem

theorem leftoverBounded_resetWith (p : Params) (mem : Memory) : LeftoverBounded (State.resetWith p mem) :=
  everyContext_resetWith (by decide) p mem

theorem resolved_resetWith (p : Params) (mem : Memory) : Resolved (State.resetWith p mem) :=
  ⟨selBit_cap_reset p, everyContext_resetWith ⟨by decide, fun _ => rfl⟩ p mem⟩

/-- Settles O2: each invariant holds of one context after reset and so of all; memory is what it was. -/
theorem resetMeetsInvariants : Obligations.ResetMeetsInvariants := by
  have hall : ∀ (p : Params) (mem : Memory), mem.wf = true →
      Zeroised (State.resetWith p mem) ∧ LimbsBounded (State.resetWith p mem) ∧
        LeftoverBounded (State.resetWith p mem) ∧ Resolved (State.resetWith p mem) ∧
        (State.resetWith p mem).mem.wf = true := fun p mem hw =>
    ⟨zeroised_resetWith p mem, limbsBounded_resetWith p mem, leftoverBounded_resetWith p mem,
      resolved_resetWith p mem, hw⟩
  exact ⟨fun p mem _ hw _ => hall p mem hw, hall Config.params (.empty Config.params.memSize) (by decide)⟩

end Sys2Proof.Machine
end

section
/-! SUPPORT. The family of 20_memory.md: the overlap rule (O14), which bytes a command and a step write (O47, O52), and
the races between commands in progress and with the host (O54). -/

namespace Sys2Proof.Machine

/-! ### The overlap rule (R59) -/

/-- Refusal is the last of the checks: every error check is passed (R258). -/
theorem verdict_refuse_iff (c : Checks) (r : Refusal) :
    verdict c = .refuse r ↔ r = .overlap ∧ c.live = true ∧ c.present = true ∧ c.sized = true ∧ c.related = true ∧
      c.bounded = true ∧ c.shapes = false := by
  rcases c with ⟨l, p, s, d, b, o⟩
  cases l <;> cases p <;> cases s <;> cases d <;> cases b <;> cases o <;> simp [verdict, eq_comm]

/-- A command is refused by its verdict alone. -/
theorem exec_refused_iff {i : Instr} {s : State} {r : Refusal} :
    exec i s = .refused r ↔ verdict (checks i s) = .refuse r := by
  refine ⟨fun h => ?_, exec_refuse⟩
  cases hv : verdict (checks i s) with
  | accept => rw [exec_accept hv] at h; cases h
  | error st => rw [exec_error hv] at h; cases h
  | refuse q => rw [exec_refuse hv] at h; cases h; rfl

/-- Settles O14: each class of the verdict is the rule of its class. -/
theorem refusedExactlyOnOverlap : Obligations.RefusedExactlyOnOverlap := by
  refine fun i s => ⟨fun r => ?_, exec_no_fault i s⟩
  rw [exec_refused_iff, verdict_refuse_iff, checks_shapes_false_iff]
  simp only [← Bool.not_eq_false, live_false_iff, checks_present_false_iff, checks_sized_false_iff,
    checks_related_false_iff, checks_bounded_false_iff]

/-! ### Writing some ranges of memory only -/

/-- From `m` to `m'`, no byte outside the ranges `rs` was written and none outside buffer memory; with no range, none
at all (R50, R57). -/
structure WritesOnly (rs : List Range) (m m' : Memory) : Prop where
  size : m'.size = m.size
  outside : AgreeOutside m m' rs
  wf : m.wf = true → m'.wf = true
  unchanged : rs = [] → m' = m

@[simp] theorem aeadDone_mem (m : Memory) (st : BitVec 8) (s : State) : (aeadDone m st s).mem = m := rfl

namespace WritesOnly

theorem of_eq {rs : List Range} {m m' : Memory} (h : m' = m) : WritesOnly rs m m' := by
  subst h
  exact ⟨rfl, fun _ _ => rfl, id, fun _ => rfl⟩

/-- The ranges may be replaced by one that covers them. -/
theorem cover {rs : List Range} {m m' : Memory} (h : WritesOnly rs m m') {q : Range}
    (hq : ∀ r ∈ rs, ∀ a, r.Holds a → q.Holds a) : WritesOnly [q] m m' where
  size := h.size
  outside a ha := h.outside a fun r hr hra => ha q (by simp) (hq r hr a hra)
  wf := h.wf
  unchanged := by simp

/-- A byte string written inside memory. -/
theorem writeBytes {m : Memory} {a : Nat} {bs : List Byte} (hb : a + bs.length ≤ m.size) :
    WritesOnly [⟨a, bs.length⟩] m (m.writeBytes a bs) where
  size := Memory.size_writeBytes m a bs
  outside i hi := by
    have hi : ¬ (a ≤ i ∧ i < a + bs.length) := hi ⟨a, bs.length⟩ (by simp)
    exact Memory.read_writeBytes_outside m a bs (by omega)
  wf hw := Memory.wf_writeBytes hw hb
  unchanged := by simp

theorem xorStreamOn {r : Range} {s : State} (hb : r.addr + r.len ≤ s.mem.size) :
    WritesOnly [r] s.mem (xorStreamOn r s).mem := by
  rw [xorStreamOn_mem]
  exact ⟨xorStream_size .., fun _ ha => xorStream_outside _ _ _ (ha r (by simp)),
    fun hw => xorStream_wf _ hw (.inr hb), by simp⟩

/-- An encryption writes its ciphertext and its tag (R208). -/
theorem encrypt {nonce pt aad ct tag : Range} {s : State} (hl : pt.len = ct.len) (ht : tag.len = 16)
    (hct : ct.addr + ct.len ≤ s.mem.size) (htag : tag.addr + 16 ≤ s.mem.size) :
    WritesOnly [ct, tag] s.mem (encrypt nonce pt aad ct tag s).mem := by
  rw [encrypt_eq, aeadDone_mem]
  exact ⟨encryptMem_size .., encryptMem_outside hl ht s, fun hw => encryptMem_wf hl hw (.inr hct) htag, by simp⟩

/-- A decryption writes its plaintext if the tag matches, and nothing if it does not (R210, R212). -/
theorem decrypt {nonce ct tag aad pt : Range} {s : State} (hl : ct.len = pt.len)
    (hpt : pt.addr + pt.len ≤ s.mem.size) : WritesOnly [pt] s.mem (decrypt nonce ct tag aad pt s).mem := by
  by_cases h : tagMatches nonce ct tag aad s
  · rw [decrypt_eq_of_match h, aeadDone_mem]
    exact ⟨decryptMem_size .., decryptMem_outside hl s, fun hw => decryptMem_wf hl hw (.inr hpt), by simp⟩
  · exact .of_eq (by rw [decrypt_eq_of_mismatch h, aeadDone_mem])

end WritesOnly

/-! ### What a command writes (R57) -/

theorem mem_refs_of_mem_requiredRefs {i : Instr} {r : Ref} (h : r ∈ requiredRefs i) : r ∈ i.refs := by
  cases i <;> simp only [requiredRefs, Instr.refs, List.mem_cons, List.not_mem_nil, or_false] at h ⊢ <;> tauto

/-- A required reference of an acceptable command is present, so it ends inside buffer memory (R251, R257). -/
theorem Acceptable.required_inBounds {i : Instr} {s : State} (h : Acceptable i s) {r : Ref}
    (hr : r ∈ requiredRefs i) : (refRange r).addr + (refRange r).len ≤ s.mem.size :=
  h.ref_inBounds (mem_refs_of_mem_requiredRefs hr) fun h0 => h.present (.inl ⟨r, hr, h0⟩)

/-- The two parts of a combined buffer with room for a tag lie inside it (R209). -/
theorem combined_covered {r : Ref} (h : 16 ≤ r.len.toNat) :
    ∀ p ∈ [combinedData r, combinedTag r], ∀ a, p.Holds a → (refRange r).Holds a := by
  simp only [List.mem_cons, List.not_mem_nil, or_false, forall_eq_or_imp, forall_eq, Range.Holds, refRange,
    combinedData, combinedTag, Config.tagBytes]
  exact ⟨fun a _ => by omega, fun a _ => by omega⟩

/-- An accepted command writes its outputs only, and those are inside buffer memory (R57). -/
theorem workOf_writesOnly {i : Instr} {s : State} (ha : accepted i s) :
    WritesOnly (outputs i) s.mem (workOf i s).mem := by
  have h := (accepted_iff_acceptable i s).mp ha
  cases i with
  | keyLoad key => exact .of_eq (by simp [workOf_keyLoad ha])
  | keyDispose => exact .of_eq (by simp [workOf_keyDispose])
  | ccInit counter key nonce => exact .of_eq (by simp [workOf_ccInit ha])
  | ccXor buf =>
    rw [workOf_ccXor ha, State.respond_mem, State.withCc_mem]
    exact .xorStreamOn (h.required_inBounds (by simp [requiredRefs]))
  | ccClear => exact .of_eq (by simp [workOf_ccClear])
  | pInit key => exact .of_eq (by simp [workOf_pInit ha])
  | pUpdate data => exact .of_eq (by simp [workOf_pUpdate ha])
  | pFinish tag =>
    have hlen : tag.len = 16#64 := not_not.mp h.sized
    have hout : outputs (.pFinish tag) = [⟨tag.addr.toNat, (tagBytesOf s.ctx.poly).length⟩] := by
      simp [outputs, refRange, hlen]
    have hb : tag.addr.toNat + 16 ≤ s.mem.size := by
      simpa [refRange, hlen] using h.required_inBounds (r := tag) (by simp [requiredRefs])
    rw [workOf_pFinish ha, hout]
    exact .writeBytes hb
  | pVerify tagA tagB => exact .of_eq (by simp [workOf_pVerify ha])
  | aeEnc nonce pt aad ct tag =>
    have hlen : pt.len = ct.len := not_not.mp h.related
    have hsize : tag.len = 16#64 := not_not.mp (not_or.mp h.sized).2
    have htag : (refRange tag).len = 16 := congrArg BitVec.toNat hsize
    rw [workOf_aeEnc ha]
    exact .encrypt (congrArg BitVec.toNat hlen) htag (h.required_inBounds (by simp [requiredRefs]))
      (htag ▸ h.required_inBounds (by simp [requiredRefs]))
  | aeEncc nonce pt aad out =>
    have hlen : out.len.toNat = pt.len.toNat + 16 := not_not.mp h.related
    have hb : out.addr.toNat + out.len.toNat ≤ s.mem.size := h.required_inBounds (by simp [requiredRefs])
    rw [workOf_aeEncc ha]
    refine (WritesOnly.encrypt ?_ rfl ?_ ?_).cover (combined_covered (by omega)) <;>
      simp only [refRange, combinedData, combinedTag, Config.tagBytes] <;> omega
  | aeDec nonce ct tag aad pt =>
    have hlen : ct.len = pt.len := not_not.mp h.related
    rw [workOf_aeDec ha]
    exact .decrypt (congrArg BitVec.toNat hlen) (h.required_inBounds (by simp [requiredRefs]))
  | aeDecc nonce inp aad pt =>
    have hlen : inp.len.toNat - 16 = pt.len.toNat := not_not.mp h.related
    rw [workOf_aeDecc ha]
    exact .decrypt hlen (h.required_inBounds (by simp [requiredRefs]))
  | capForce f => exact .of_eq (by simp [workOf_capForce])
  | capRd => exact .of_eq (by simp [workOf_capRd])

/-- A command that completes, with whatever status, writes its outputs only (R57, R260). -/
theorem exec_writesOnly {i : Instr} {s t : State} (hx : exec i s = .next t) :
    WritesOnly (outputs i) s.mem t.mem := by
  rcases exec_next hx with ⟨ha, rfl⟩ | ⟨st, -, rfl⟩
  · exact workOf_writesOnly ha
  · exact .of_eq rfl

/-- Settles O47: an accepted command writes its outputs only, a rejected one nothing. -/
theorem memoryFrame : Obligations.MemoryFrame :=
  fun _ _ _ hx =>
    have h := exec_writesOnly hx
    ⟨h.size, h.outside, h.unchanged⟩

/-! ### What a step writes -/

theorem select_mem {k : Nat} {s t : State} (h : s.select k = some t) : t.mem = s.mem := by
  obtain ⟨c, -, rfl⟩ := select_some h
  rfl

theorem Served.writesOnly {s t : State} (h : Served s t) : ∃ rs, WritesOnly rs s.mem t.mem := by
  cases h with
  | illegal h => exact ⟨[], .of_eq (by rw [h]; rfl)⟩
  | completed i u hx h =>
    have hu := exec_writesOnly hx
    exact ⟨outputs i, by rw [h]; exact hu⟩
  | resumed i sel u _ hx h =>
    have hu := exec_writesOnly hx
    exact ⟨outputs i, by rw [h]; exact hu⟩
  | begun i _ h => exact ⟨[], .of_eq (by rw [h]; rfl)⟩

/-- A step writes inside buffer memory, by the outputs of one command or by the bytes of one host write (R50). -/
theorem step_writesOnly {s t : State} (h : step s = .next t) : ∃ rs, WritesOnly rs s.mem t.mem := by
  cases step_next h with
  | alone h => exact h.writesOnly
  | inContext k ms u hu h =>
    have hm : u.mem = s.mem := select_mem (s := s.withMoves ms) hu
    exact hm ▸ h.writesOnly
  | hostWrite ms a bs hb h => exact ⟨[⟨a, bs.length⟩], by rw [h]; exact .writeBytes hb⟩
  | hostRead ms h => exact ⟨[], .of_eq (by rw [h]; rfl)⟩

/-- Settles O52: whoever writes, writes inside buffer memory. -/
theorem stepKeepsMemoryCanonical : Obligations.StepKeepsMemoryCanonical := by
  intro s t hw h
  obtain ⟨rs, hrs⟩ := step_writesOnly h
  exact ⟨hrs.wf hw, hrs.size⟩

/-! ### Races (R64, R65, R67) -/

/-- However a command is presented, the step is `presentThen` in the context that presents it. -/
theorem Presents.step_eq {s u : State} (h : Presents s u) : ∃ go, step s = presentThen go u := by
  cases h with
  | alone hm hu => exact ⟨complete, by rw [step_nil hm, hu, serve]⟩
  | run k ms hm hu => exact ⟨complete, by simp only [step_cons hm, hostMove, inContext, hu, serve]⟩
  | start k ms hm hu => exact ⟨beginCommand, by simp only [step_cons hm, hostMove, inContext, hu, presentCommand]⟩

theorem presentedKeyRace_iff {i : Instr} {s : State} :
    presentedKeyRace i s = true ↔ writesKey i = true ∧ ∃ j ∈ inProgress s.others, isAead j = true := by
  rw [presentedKeyRace, Bool.and_eq_true, List.any_eq_true]

theorem races_of_buffersRace {i : Instr} {s : State} (h : ∃ j ∈ inProgress s.others, BuffersRace i j) :
    races i s = some .bufferRace := by
  have hany : (inProgress s.others).any (bufferRaces i) = true := by
    simpa only [List.any_eq_true, bufferRaces_iff] using h
  rw [races, if_pos hany]

section
variable {i : Instr} {s : State} (hb : s.ctx.port.busy = none) (hf : fetch s = some (.ok i))
  (go : Instr → State → Host.Outcome State Fault Refusal)
include hb hf

/-- The key race is refused before acceptance (R67). -/
theorem presentThen_keyRace (hk : presentedKeyRace i s = true) : presentThen go s = .refused .keyRace := by
  simp only [presentThen, hb, hf, hk, if_true]

/-- An accepted command that races is refused, by the one race or the other (R65, R67). -/
theorem presentThen_races {r : Refusal} (ha : accepted i s) (hr : races i s = some r) :
    ∃ q, presentThen go s = .refused q := by
  by_cases hk : presentedKeyRace i s = true
  · exact ⟨_, presentThen_keyRace hb hf go hk⟩
  · have hv : verdict (checks i s) = .accept := ha
    exact ⟨r, by simp only [presentThen, hb, hf, hk, if_false, Bool.false_eq_true, hv, hr]⟩

end

/-- The host's range meets one of the ranges `of j` of a command in progress exactly when the machine's test says so. -/
theorem any_intersects_iff {r : Range} {js : List Instr} {of : Instr → List Range} :
    (js.any fun j => intersects [r] (of j)) = true ↔ ∃ j ∈ js, ∃ q ∈ of j, r.Meets q := by
  simp only [List.any_eq_true, intersects_iff, List.mem_singleton, exists_eq_left]

theorem hostWrite_race {a : Nat} {bs : List Byte} {s : State} (hb : a + bs.length ≤ s.mem.size)
    (h : ∃ j ∈ inProgress s.contexts, ∃ r ∈ inputs j ++ outputs j, (⟨a, bs.length⟩ : Range).Meets r) :
    hostWrite a bs s = .refused .hostRace := by
  rw [hostWrite, if_neg (by omega), if_pos (any_intersects_iff.mpr h)]

theorem hostRead_race {a n : Nat} {s : State} (hb : a + n ≤ s.mem.size)
    (h : ∃ j ∈ inProgress s.contexts, ∃ r ∈ outputs j, (⟨a, n⟩ : Range).Meets r) :
    hostRead a n s = .refused .hostRace := by
  rw [hostRead, if_neg (by omega), if_pos (any_intersects_iff.mpr h)]

/-- Settles O54: a presented command meets the machine's tests for races, which are the rules', and so does the
host. -/
theorem racesRefused : Obligations.RacesRefused := by
  refine ⟨fun s u i rest hp hb he hd => ?_, fun s ms a bs hm hsize h => ?_, fun s ms a n hm hsize h => ?_⟩
  · obtain ⟨go, hgo⟩ := hp.step_eq
    have hf := fetch_ok he hd
    rw [hgo]
    exact ⟨fun ⟨ha, hr⟩ =>
        presentThen_races hb hf go ((accepted_iff_acceptable i u).mpr ha) (races_of_buffersRace hr),
      fun hk => presentThen_keyRace hb hf go (presentedKeyRace_iff.mpr hk)⟩
  · rw [step_cons hm]
    exact hostWrite_race (s := s.withMoves ms) hsize h
  · rw [step_cons hm]
    exact hostRead_race (s := s.withMoves ms) hsize h

end Sys2Proof.Machine
end

section
/-! SUPPORT. The family of 30_encoding.md: a sequence of words decodes to a command exactly when it is that command's
encoding followed by the rest (O5, O6, O3), which words are legal (O4), and the responses of completed commands
(O49). -/

namespace Sys2Proof

/-! ### A word0 from its fields (R71) -/

theorem getLsbD_eq_of_extractLsb'_eq {v w : Word} {k n i : Nat} (h : v.extractLsb' k n = w.extractLsb' k n)
    (hk : k ≤ i) (hi : i < k + n) : v.getLsbD i = w.getLsbD i := by
  have hbit := congrArg (fun x => x.getLsbD (i - k)) h
  simpa [show i - k < n by omega, show k + (i - k) = i by omega] using hbit

/-- The five fields cover all 32 bits (R71). -/
theorem word_eq_of_fields {v w : Word} (hopc : fieldOpc v = fieldOpc w) (hnref : fieldNref v = fieldNref w)
    (himm : fieldHasImm v = fieldHasImm w) (hf : fieldF v = fieldF w) (hzero : fieldZero v = fieldZero w) : v = w := by
  apply BitVec.eq_of_getLsbD_eq
  intro i hi
  obtain h | h | rfl | rfl | h : i < 8 ∨ (8 ≤ i ∧ i < 12) ∨ i = 12 ∨ i = 13 ∨ 14 ≤ i := by omega
  · exact getLsbD_eq_of_extractLsb'_eq hopc (by omega) (by omega)
  · exact getLsbD_eq_of_extractLsb'_eq hnref h.1 (by omega)
  · exact himm
  · exact hf
  · exact getLsbD_eq_of_extractLsb'_eq hzero h (by omega)

/-- The conditions of R78, all at once. -/
theorem checkWord0_eq_ok_iff {w : Word} {op : Opcode} :
    checkWord0 w = .ok op ↔ fieldOpc w = op.row.opc ∧ fieldNref w = op.row.nref ∧ fieldHasImm w = op.row.hasImm ∧
      (op ≠ .capForce → fieldF w = false) ∧ fieldZero w = 0#18 := by
  constructor
  · intro h
    unfold checkWord0 at h
    split at h
    · cases h
    next op' hop =>
      split_ifs at h with hnref himm hf hzero
      cases h
      refine ⟨(Opcode.row_of_ofByte hop).symm, not_not.mp hnref, not_not.mp himm, fun hne => ?_, not_not.mp hzero⟩
      simpa [hne] using hf
  · rintro ⟨hopc, hnref, himm, hf, hzero⟩
    have hflag : ¬ (fieldF w = true ∧ op ≠ .capForce) := fun ⟨ht, hne⟩ => by simp [hf hne] at ht
    simp [checkWord0, hopc, hnref, himm, hflag, hzero]

/-- A legal `word0` announces the operands of its opcode (R76, R77). -/
theorem commandLength_of_checkWord0 {w : Word} {op : Opcode} (h : checkWord0 w = .ok op) :
    commandLength w = 1 + op.row.hasImm.toNat + 4 * op.row.nref.toNat := by
  obtain ⟨-, hnref, himm, -, -⟩ := checkWord0_eq_ok_iff.mp h
  rw [commandLength, hnref, himm]

@[simp] theorem fieldF_word0_capForce (f : Bool) : fieldF (Instr.capForce f).word0 = f := by
  cases f <;> simp [fieldF_word0]

/-- A legal `word0` is that of every command with its opcode and, for `CAP.FORCE`, its flag. -/
theorem eq_word0_of_checkWord0 {w : Word} {i : Instr} (h : checkWord0 w = .ok i.opcode)
    (hflag : i.opcode = .capForce → i = .capForce (fieldF w)) : w = i.word0 := by
  obtain ⟨hopc, hnref, himm, hf, hzero⟩ := checkWord0_eq_ok_iff.mp h
  obtain ⟨hopc', hnref', himm', hf', hzero'⟩ := checkWord0_eq_ok_iff.mp (checkWord0_word0 i)
  refine word_eq_of_fields (hopc.trans hopc'.symm) (hnref.trans hnref'.symm) (himm.trans himm'.symm) ?_
    (hzero.trans hzero'.symm)
  by_cases hop : i.opcode = .capForce
  · rw [congrArg Instr.word0 (hflag hop), fieldF_word0_capForce]
  · rw [hf hop, hf' hop]

/-! ### The operand words (R72 to R76) -/

/-- The words of a command after its `word0`. -/
def Instr.operandWords (i : Instr) : List Word := i.immediate ++ i.refs.flatMap Ref.words

theorem encode_eq_cons (i : Instr) : encode i = i.word0 :: i.operandWords := rfl

theorem takeRef_eq_some_iff {ws rest : List Word} {r : Ref} : takeRef ws = some (r, rest) ↔ ws = r.words ++ rest :=
  ⟨takeRef_some, by rintro rfl; exact takeRef_words r rest⟩

theorem takeWord_eq_some_iff {ws rest : List Word} {w : Word} : takeWord ws = some (w, rest) ↔ ws = w :: rest := by
  cases ws <;> simp [takeWord]

/-- The operands of a command read back, whatever words follow. -/
theorem decodeOperands_operandWords (i : Instr) (rest : List Word) :
    decodeOperands i.opcode (fieldF i.word0) (i.operandWords ++ rest) = some (i, rest) := by
  cases i <;>
    simp [decodeOperands, Instr.opcode, Instr.operandWords, Instr.immediate, Instr.refs, takeWord]

/-- What the operand decoder reads is a command of the opcode, with its words at the front of the stream. -/
theorem decodeOperands_some {op : Opcode} {f : Bool} {ws rest : List Word} {i : Instr}
    (h : decodeOperands op f ws = some (i, rest)) :
    i.opcode = op ∧ (op = .capForce → i = .capForce f) ∧ ws = i.operandWords ++ rest := by
  cases op
  all_goals
    simp only [decodeOperands, Option.bind_eq_bind, Option.bind_eq_some_iff, Prod.exists, takeRef_eq_some_iff,
      takeWord_eq_some_iff, Option.pure_def, Option.some.injEq, Prod.mk.injEq] at h
  case keyDispose | ccClear | capRd =>
    obtain ⟨rfl, rfl⟩ := h
    exact ⟨rfl, nofun, rfl⟩
  case capForce =>
    obtain ⟨rfl, rfl⟩ := h
    exact ⟨rfl, fun _ => rfl, rfl⟩
  case ccInit =>
    obtain ⟨_, _, rfl, _, _, rfl, _, _, rfl, rfl, rfl⟩ := h
    exact ⟨rfl, nofun, rfl⟩
  case keyLoad | ccXor | pInit | pUpdate | pFinish =>
    obtain ⟨_, _, rfl, rfl, rfl⟩ := h
    exact ⟨rfl, nofun, rfl⟩
  case pVerify =>
    obtain ⟨_, _, rfl, _, _, rfl, rfl, rfl⟩ := h
    exact ⟨rfl, nofun, rfl⟩
  case aeEncc | aeDecc =>
    obtain ⟨_, _, rfl, _, _, rfl, _, _, rfl, _, _, rfl, rfl, rfl⟩ := h
    exact ⟨rfl, nofun, rfl⟩
  case aeEnc | aeDec =>
    obtain ⟨_, _, rfl, _, _, rfl, _, _, rfl, _, _, rfl, _, _, rfl, rfl, rfl⟩ := h
    exact ⟨rfl, nofun, rfl⟩

/-! ### One encoding for each command (R77, R79) -/

theorem decode_cons_eq_ok_iff {w : Word} {ws : List Word} {r : Instr × List Word} :
    decode (w :: ws) = .ok r ↔ ∃ op, checkWord0 w = .ok op ∧ decodeOperands op (fieldF w) ws = some r := by
  rw [decode]
  cases hc : checkWord0 w with
  | error why => simp
  | ok op => cases hd : decodeOperands op (fieldF w) ws <;> simp [hd]

/-- A sequence of words decodes to a command exactly when it is the command's encoding followed by the rest. -/
theorem decode_eq_ok_iff {ws rest : List Word} {i : Instr} : decode ws = .ok (i, rest) ↔ ws = encode i ++ rest := by
  constructor
  · intro h
    cases ws with
    | nil => cases h
    | cons w ws =>
      obtain ⟨op, hcheck, hread⟩ := decode_cons_eq_ok_iff.mp h
      obtain ⟨rfl, hflag, rfl⟩ := decodeOperands_some hread
      have hw : w = i.word0 := eq_word0_of_checkWord0 hcheck hflag
      rw [hw, encode_eq_cons, List.cons_append]
  · rintro rfl
    rw [encode_eq_cons, List.cons_append]
    exact decode_cons_eq_ok_iff.mpr ⟨i.opcode, checkWord0_word0 i, decodeOperands_operandWords i rest⟩

/-- Settles O5: the encoding of a command followed by anything decodes, its `word0` passing every check and its
operand words reading back. -/
theorem decodeEncode : Obligations.DecodeEncode :=
  fun _ _ => decode_eq_ok_iff.mpr rfl

/-- Settles O6: what decodes is an encoding, and an encoding is as long as its `word0` announces. -/
theorem encodeDecode : Obligations.EncodeDecode := by
  intro ws i rest h
  obtain rfl := decode_eq_ok_iff.mp h
  refine ⟨rfl, i.word0, i.operandWords ++ rest, rfl, ?_⟩
  rw [List.length_append, encode_length]

/-- Settles O3: each sequence of words is an encoding followed by the rest. -/
theorem wordsDecodeAsWritten : Obligations.WordsDecodeAsWritten := by
  unfold Obligations.WordsDecodeAsWritten
  simp only [decode_eq_ok_iff]
  decide

/-! ### Which words are legal (R78) -/

/-- As many operands as an opcode's row names make a command of that opcode (R72, R76). -/
theorem Opcode.exists_instr (f : Bool) : ∀ (op : Opcode) (imm : List Word) (rs : List Ref),
    imm.length = op.row.hasImm.toNat → rs.length = op.row.nref.toNat →
    ∃ i : Instr, i.opcode = op ∧ i.immediate = imm ∧ i.refs = rs ∧ (op = .capForce → i = .capForce f)
  | .keyLoad, [], [a], _, _ => ⟨.keyLoad a, rfl, rfl, rfl, nofun⟩
  | .keyDispose, [], [], _, _ => ⟨.keyDispose, rfl, rfl, rfl, nofun⟩
  | .ccInit, [c], [a, b], _, _ => ⟨.ccInit c a b, rfl, rfl, rfl, nofun⟩
  | .ccXor, [], [a], _, _ => ⟨.ccXor a, rfl, rfl, rfl, nofun⟩
  | .ccClear, [], [], _, _ => ⟨.ccClear, rfl, rfl, rfl, nofun⟩
  | .pInit, [], [a], _, _ => ⟨.pInit a, rfl, rfl, rfl, nofun⟩
  | .pUpdate, [], [a], _, _ => ⟨.pUpdate a, rfl, rfl, rfl, nofun⟩
  | .pFinish, [], [a], _, _ => ⟨.pFinish a, rfl, rfl, rfl, nofun⟩
  | .pVerify, [], [a, b], _, _ => ⟨.pVerify a b, rfl, rfl, rfl, nofun⟩
  | .aeEnc, [], [a, b, c, d, e], _, _ => ⟨.aeEnc a b c d e, rfl, rfl, rfl, nofun⟩
  | .aeEncc, [], [a, b, c, d], _, _ => ⟨.aeEncc a b c d, rfl, rfl, rfl, nofun⟩
  | .aeDec, [], [a, b, c, d, e], _, _ => ⟨.aeDec a b c d e, rfl, rfl, rfl, nofun⟩
  | .aeDecc, [], [a, b, c, d], _, _ => ⟨.aeDecc a b c d, rfl, rfl, rfl, nofun⟩
  | .capForce, [], [], _, _ => ⟨.capForce f, rfl, rfl, rfl, fun _ => rfl⟩
  | .capRd, [], [], _, _ => ⟨.capRd, rfl, rfl, rfl, nofun⟩

/-- The first `4n` words of a stream are the words of `n` references (R73). -/
theorem exists_refs : ∀ {n : Nat} {ws : List Word}, 4 * n ≤ ws.length →
    ∃ (rs : List Ref) (rest : List Word), rs.length = n ∧ ws = rs.flatMap Ref.words ++ rest
  | 0, ws, _ => ⟨[], ws, rfl, rfl⟩
  | n + 1, a0 :: a1 :: l0 :: l1 :: ws, h => by
    obtain ⟨rs, rest, hn, rfl⟩ := exists_refs (n := n) (ws := ws) (by simp at h; omega)
    have hr := takeRef_some (ws := a0 :: a1 :: l0 :: l1 :: (rs.flatMap Ref.words ++ rest)) rfl
    exact ⟨⟨a1 ++ a0, l1 ++ l0⟩ :: rs, rest, by simp [hn], by simpa using hr⟩
  | n + 1, [], h | n + 1, [_], h | n + 1, [_, _], h | n + 1, [_, _, _], h => by
    simp only [List.length_cons, List.length_nil] at h
    omega

/-- With a legal `word0` and all the words it announces, a stream begins with a command (R77, R78). -/
theorem exists_encode_of_checkWord0 {w : Word} {op : Opcode} {ws : List Word} (h : checkWord0 w = .ok op)
    (hlen : commandLength w ≤ (w :: ws).length) : ∃ i rest, w :: ws = encode i ++ rest := by
  rw [commandLength_of_checkWord0 h, List.length_cons] at hlen
  obtain ⟨rs, rest, hrs, hws⟩ := exists_refs (n := op.row.nref.toNat) (ws := ws.drop op.row.hasImm.toNat)
    (by rw [List.length_drop]; omega)
  obtain ⟨i, rfl, himm, hrefs, hflag⟩ := op.exists_instr (fieldF w) (ws.take op.row.hasImm.toNat) rs
    (by rw [List.length_take]; omega) hrs
  have hw : w = i.word0 := eq_word0_of_checkWord0 h hflag
  refine ⟨i, rest, ?_⟩
  rw [encode, himm, hrefs, ← hw, List.cons_append, List.append_assoc, ← hws, List.take_append_drop]

/-- The legal first words are those of the commands. -/
theorem exists_word0_of_checkWord0 {w : Word} {op : Opcode} (h : checkWord0 w = .ok op) : ∃ i : Instr, i.word0 = w := by
  obtain ⟨i, rest, hi⟩ := exists_encode_of_checkWord0 (ws := List.replicate (commandLength w) 0#32) h (by simp)
  exact ⟨i, (List.cons.inj hi).1.symm⟩

end Sys2Proof

namespace Sys2Proof.Machine

theorem legalWord0_iff_checkWord0 {w : Word} : LegalWord0 w ↔ ∃ op, checkWord0 w = .ok op := by
  have hforce : ∀ op : Opcode, op.row.opc ≠ 0x40#8 ↔ op ≠ .capForce := by intro op; cases op <;> decide
  unfold LegalWord0
  refine exists_congr fun op => ?_
  rw [checkWord0_eq_ok_iff]
  refine and_congr_right fun hopc => ?_
  rw [hopc, hforce]

/-- The listed words are the sixteen of R76. -/
theorem word0_mem_legalWord0s (i : Instr) : i.word0 ∈ legalWord0s := by
  cases i
  case capForce f => cases f <;> simp [Instr.word0, legalWord0s]
  all_goals simp [Instr.word0, legalWord0s]

theorem legalWord0_iff_mem {w : Word} : LegalWord0 w ↔ w ∈ legalWord0s := by
  constructor
  · intro h
    obtain ⟨op, hop⟩ := legalWord0_iff_checkWord0.mp h
    obtain ⟨i, rfl⟩ := exists_word0_of_checkWord0 hop
    exact word0_mem_legalWord0s i
  · have hlegal : legalWord0s.all (fun w => (checkWord0 w).toBool) = true := rfl
    intro h
    have hw := List.all_eq_true.mp hlegal w h
    cases hop : checkWord0 w with
    | ok op => exact legalWord0_iff_checkWord0.mpr ⟨op, hop⟩
    | error why => simp [hop, Except.toBool] at hw

/-- Settles O4: a stream decodes exactly when it begins with an encoding, and a legal `word0` with enough words after
it begins one. -/
theorem legalCommandWords : Obligations.LegalCommandWords := by
  refine fun w ws => ⟨⟨fun ⟨⟨i, rest⟩, h⟩ => ?_, fun ⟨hlegal, hlen⟩ => ?_⟩, legalWord0_iff_mem⟩
  · obtain ⟨rfl, hws⟩ := List.cons.inj (decode_eq_ok_iff.mp h)
    refine ⟨legalWord0_iff_checkWord0.mpr ⟨i.opcode, checkWord0_word0 i⟩, ?_⟩
    rw [← encode_length, decode_eq_ok_iff.mp h, List.length_append]
    omega
  · obtain ⟨op, hop⟩ := legalWord0_iff_checkWord0.mp hlegal
    obtain ⟨i, rest, hi⟩ := exists_encode_of_checkWord0 hop hlen
    exact ⟨(i, rest), decode_eq_ok_iff.mpr hi⟩

/-! ### Responses (R82, R250) -/

/-- What R82 and R250 allow a completed command `i` to answer: any status but `IllegalCommand`, with a value only
where `P.VERIFY` or `CAP.RD` ends with `OK`. -/
structure ResponseAllowed (i : Instr) (st : Status) (v : Word) : Prop where
  status : st ≠ .illegalCommand
  value : v ≠ 0#32 → st = .ok ∧ ((∃ a b, i = .pVerify a b) ∨ i = .capRd)

/-- `t` is some machine with an allowed response of `i` as its last write. -/
def Responds (i : Instr) (t : State) : Prop := ∃ u st v, t = State.respond st v u ∧ ResponseAllowed i st v

theorem ResponseAllowed.zero (i : Instr) {st : Status} (h : st ≠ .illegalCommand) : ResponseAllowed i st 0#32 :=
  ⟨h, fun hv => absurd rfl hv⟩

theorem responds_aeadDone (i : Instr) (m : Memory) {st : Status} (h : st ≠ .illegalCommand) (s : State) :
    Responds i (aeadDone m st.code s) :=
  ⟨aeadDone m st.code s, st, 0#32, rfl, ResponseAllowed.zero i h⟩

theorem responds_encrypt (i : Instr) (nonce pt aad ct tag : Range) (s : State) :
    Responds i (encrypt nonce pt aad ct tag s) := by
  rw [encrypt_eq]
  exact responds_aeadDone (st := .ok) i _ nofun s

theorem responds_decrypt (i : Instr) (nonce ct tag aad pt : Range) (s : State) :
    Responds i (decrypt nonce ct tag aad pt s) := by
  by_cases h : tagMatches nonce ct tag aad s
  · rw [decrypt_eq_of_match h]
    exact responds_aeadDone (st := .ok) i _ nofun s
  · rw [decrypt_eq_of_mismatch h]
    exact responds_aeadDone (st := .authenticationFailure) i _ nofun s

theorem responds_workOf {i : Instr} {s : State} (ha : accepted i s) : Responds i (workOf i s) := by
  have ok : ResponseAllowed i .ok 0#32 := ResponseAllowed.zero i nofun
  cases i with
  | keyLoad key => exact ⟨_, _, _, workOf_keyLoad ha, ok⟩
  | keyDispose => exact ⟨_, _, _, workOf_keyDispose, ok⟩
  | ccInit counter key nonce => exact ⟨_, _, _, workOf_ccInit ha, ok⟩
  | ccXor buf => exact ⟨_, _, _, workOf_ccXor ha, ok⟩
  | ccClear => exact ⟨_, _, _, workOf_ccClear, ok⟩
  | pInit key => exact ⟨_, _, _, workOf_pInit ha, ok⟩
  | pUpdate data => exact ⟨_, _, _, workOf_pUpdate ha, ok⟩
  | pFinish tag => exact ⟨_, _, _, workOf_pFinish ha, ok⟩
  | pVerify tagA tagB => exact ⟨_, _, _, workOf_pVerify ha, nofun, fun _ => ⟨rfl, .inl ⟨tagA, tagB, rfl⟩⟩⟩
  | aeEnc nonce pt aad ct tag => rw [workOf_aeEnc ha]; exact responds_encrypt ..
  | aeEncc nonce pt aad out => rw [workOf_aeEncc ha]; exact responds_encrypt ..
  | aeDec nonce ct tag aad pt => rw [workOf_aeDec ha]; exact responds_decrypt ..
  | aeDecc nonce inp aad pt => rw [workOf_aeDecc ha]; exact responds_decrypt ..
  | capForce f => exact ⟨_, _, _, workOf_capForce, ok⟩
  | capRd => exact ⟨_, _, _, workOf_capRd, nofun, fun _ => ⟨rfl, .inr rfl⟩⟩

/-- Every command that completes, accepted or not, ends with an allowed response. -/
theorem exec_responds {i : Instr} {s t : State} (h : exec i s = .next t) : Responds i t := by
  rcases exec_next h with ⟨ha, rfl⟩ | ⟨st, hst, rfl⟩
  · exact responds_workOf ha
  · refine ⟨s, st, 0#32, rfl, ResponseAllowed.zero i ?_⟩
    rintro rfl
    simpa using verdict_error hst

theorem Status.code_toNat_le (st : Status) : st.code.toNat ≤ 7 := by cases st <;> decide

theorem Status.code_eq_six_iff (st : Status) : st.code = 6#8 ↔ st = .illegalCommand := by cases st <;> decide

/-- Settles O49: the response is an allowed one, and only `IllegalCommand` has the number 6. -/
theorem responseRule : Obligations.ResponseRule := by
  intro i s t h
  obtain ⟨u, st, v, rfl, hr⟩ := exec_responds h
  refine ⟨st.code_toNat_le, mt st.code_eq_six_iff.mp hr.status, fun hv => ?_⟩
  obtain ⟨rfl, hi⟩ := hr.value hv
  exact ⟨rfl, hi⟩

end Sys2Proof.Machine
end

section
/-! SUPPORT. The family of 40_utilities.md: the compare by XOR, OR and subtract-and-shift decides equality of byte
strings of one length (O36). -/

namespace Sys2Proof.Machine

/-! ### The accumulator of the compare (R95) -/

@[simp] theorem cteqAcc_nil (b : List Byte) : cteqAcc [] b = 0#32 := rfl

/-- The order in which the pairs are collected does not matter: the first pair's XOR is one more term of the OR. -/
@[simp] theorem cteqAcc_cons (x y : Byte) (a b : List Byte) :
    cteqAcc (x :: a) (y :: b) = (x ^^^ y).setWidth 32 ||| cteqAcc a b := by
  have hmap (acc : Word) : (a.zip b).foldl (fun acc p => acc ||| (p.1 ^^^ p.2).setWidth 32) acc =
      ((a.zip b).map fun p => (p.1 ^^^ p.2).setWidth 32).foldl (· ||| ·) acc := List.foldl_map.symm
  simp only [cteqAcc, List.zip_cons_cons, List.foldl_cons, hmap, BitVec.or_comm 0#32, List.foldl_assoc]

/-- Every term of the OR is a byte. -/
theorem cteqAcc_toNat_lt : ∀ a b : List Byte, (cteqAcc a b).toNat < 2 ^ 8
  | [], b => by simp
  | _ :: _, [] => by simp [cteqAcc]
  | x :: a, y :: b => by
    have hterm : ((x ^^^ y).setWidth 32).toNat < 2 ^ 8 := by
      rw [BitVec.toNat_setWidth_of_le (by decide)]
      exact (x ^^^ y).isLt
    rw [cteqAcc_cons, BitVec.toNat_or]
    exact Nat.or_lt_two_pow hterm (cteqAcc_toNat_lt a b)

/-- A byte widened to a word is zero only when it is zero. -/
theorem setWidth_byte_eq_zero_iff {x : Byte} : x.setWidth 32 = 0#32 ↔ x = 0#8 := by
  constructor <;> intro h <;> bv_omega

/-- The accumulator is zero exactly when no pair differs. -/
theorem cteqAcc_eq_zero_iff : ∀ {a b : List Byte}, a.length = b.length → (cteqAcc a b = 0#32 ↔ a = b)
  | [], [], _ => by simp
  | x :: a, y :: b, h => by
    rw [cteqAcc_cons, BitVec.or_eq_zero_iff, setWidth_byte_eq_zero_iff, BitVec.xor_eq_zero_iff,
      cteqAcc_eq_zero_iff (Nat.succ.inj h), List.cons.injEq]

/-! ### The result of the compare (R95, D16) -/

theorem cteq16_eq_one {a b : List Byte} (h : cteqAcc a b = 0#32) : cteq16 a b = 1#32 := by
  rw [cteq16, h]
  decide

/-- Subtracting 1 from a small accumulator that is not zero does not borrow, so bit 31 stays clear. -/
theorem cteq16_eq_zero {a b : List Byte} (h : cteqAcc a b ≠ 0#32) : cteq16 a b = 0#32 := by
  have hbound := cteqAcc_toNat_lt a b
  have hsmall : (cteqAcc a b - 1#32).toNat < 2 ^ 31 := by bv_omega
  have hshift : (cteqAcc a b - 1#32) >>> 31 = 0#32 := BitVec.eq_of_toNat_eq (by
    rw [BitVec.toNat_ushiftRight, Nat.shiftRight_eq_div_pow, Nat.div_eq_of_lt hsmall]
    rfl)
  rw [cteq16, hshift, BitVec.zero_and]

/-- Settles O36: the accumulator is a byte, and it is zero exactly when the strings are equal. -/
theorem compareIsEquality : Obligations.CompareIsEquality := by
  intro a b ha hb
  have hzero : cteqAcc a b = 0#32 ↔ a = b := cteqAcc_eq_zero_iff (ha.trans hb.symm)
  exact ⟨cteqAcc_toNat_lt a b, fun h => cteq16_eq_one (hzero.mpr h), fun h => cteq16_eq_zero (mt hzero.mp h)⟩

end Sys2Proof.Machine
end

section
/-! SUPPORT. The family of 41_chacha20.md: the quarter-round (O21), the permutation (O22) and what the three commands
of the ChaCha20 unit leave (O18, O19, O20, O25). CC.XOR runs on either datapath, so the keystream block of both is
found first. -/

namespace Sys2Proof.Machine

/-! ### The quarter-round (R94, R102) -/

theorem rotl32_eq_rotateLeft (v : Word) {n : Nat} (h : n < 32) : rotl32 v n = v.rotateLeft n := by
  rw [BitVec.rotateLeft_def, Nat.mod_eq_of_lt h, rotl32]

theorem rotl32_inj {v w : Word} {n : Nat} (h : n < 32) : rotl32 v n = rotl32 w n ↔ v = w := by
  refine ⟨fun heq => BitVec.eq_of_getMsbD_eq fun i hi => ?_, fun heq => heq ▸ rfl⟩
  have hpos : (n + (i + 32 - n) % 32) % 32 = i := by omega
  have hlt : (i + 32 - n) % 32 < 32 := Nat.mod_lt _ (by decide)
  have hbit := congrArg (BitVec.getMsbD · ((i + 32 - n) % 32)) heq
  simpa only [rotl32_eq_rotateLeft _ h, BitVec.getMsbD_rotateLeft, hpos, hlt, decide_true, Bool.true_and] using hbit

/-- Six of the twelve steps: an addition, an XOR and a rotation by `m`, then the same with a rotation by `n`. -/
def halfQuarter (m n : Nat) (v : Quad) : Quad :=
  let a := v.q0 + v.q1
  let d := rotl32 (v.q3 ^^^ a) m
  let c := v.q2 + d
  { q0 := a, q1 := rotl32 (v.q1 ^^^ c) n, q2 := c, q3 := d }

theorem quarter_eq_comp : quarter = halfQuarter 8 7 ∘ halfQuarter 16 12 := rfl

/-- The steps are undone last to first: each reads only words that the later steps left as they are. -/
theorem halfQuarter_injective {m n : Nat} (hm : m < 32) (hn : n < 32) : Function.Injective (halfQuarter m n) := by
  rintro ⟨a, b, c, d⟩ ⟨a', b', c', d'⟩ h
  obtain ⟨ha, hb, hc, hd⟩ := Quad.mk.inj h
  dsimp only at ha hb hc hd
  rw [hc, rotl32_inj hn, BitVec.xor_left_inj] at hb
  rw [hd, BitVec.add_left_inj] at hc
  rw [ha, rotl32_inj hm, BitVec.xor_left_inj] at hd
  rw [hb, BitVec.add_left_inj] at ha
  rw [ha, hb, hc, hd]

theorem quarter_injective : Function.Injective quarter := by
  rw [quarter_eq_comp]
  exact (halfQuarter_injective (by decide) (by decide)).comp (halfQuarter_injective (by decide) (by decide))

/-- The words at four indices, as the quarter-round takes them. -/
def Words16.quad (x : Words16) (a b c d : Fin 16) : Quad := ⟨x.get a, x.get b, x.get c, x.get d⟩

theorem quarterRound_get_other {a b c d k : Fin 16} (x : Words16) (ha : k ≠ a) (hb : k ≠ b) (hc : k ≠ c)
    (hd : k ≠ d) : (quarterRound a b c d x).get k = x.get k := by
  simp [quarterRound, Words16.get_set_other, ha.symm, hb.symm, hc.symm, hd.symm]

/-- On distinct indices no write hides another: the four words become the quarter-round of the four words. -/
theorem quad_quarterRound {a b c d : Fin 16} (h : [a, b, c, d].Nodup) (x : Words16) :
    (quarterRound a b c d x).quad a b c d = quarter (x.quad a b c d) := by
  simp only [List.nodup_cons, List.mem_cons, List.not_mem_nil, or_false, not_or, ← ne_eq] at h
  obtain ⟨⟨hab, hac, had⟩, ⟨hbc, hbd⟩, hcd, -⟩ := h
  simp [Words16.quad, quarterRound, Words16.get_set_other, hab.symm, hac.symm, had.symm, hbc.symm, hbd.symm, hcd.symm]

/-- Equal results have equal words outside the four, and inside by the injectivity of the quarter-round. -/
theorem quarterRound_injective {a b c d : Fin 16} (h : [a, b, c, d].Nodup) :
    Function.Injective (quarterRound a b c d) := by
  intro x y hxy
  have hquad : x.quad a b c d = y.quad a b c d :=
    quarter_injective (by rw [← quad_quarterRound h, hxy, quad_quarterRound h])
  obtain ⟨ha, hb, hc, hd⟩ := Quad.mk.inj hquad
  refine Words16.ext_get fun k => ?_
  by_cases hk : k = a ∨ k = b ∨ k = c ∨ k = d
  · rcases hk with rfl | rfl | rfl | rfl <;> assumption
  · simp only [not_or] at hk
    obtain ⟨hka, hkb, hkc, hkd⟩ := hk
    rw [← quarterRound_get_other x hka hkb hkc hkd, hxy, quarterRound_get_other y hka hkb hkc hkd]

/-- Settles O21: the four words read back as the quarter-round of the four words. -/
theorem quarterRoundSteps : Obligations.QuarterRoundSteps := by
  intro a b c d x hab hac had hbc hbd hcd
  have hdistinct : [a, b, c, d].Nodup := by simp [hab, hac, had, hbc, hbd, hcd]
  have hquad := quad_quarterRound hdistinct x
  simp only [quarter, Words16.quad, rotl32_eq_rotateLeft, Nat.reduceLT] at hquad
  obtain ⟨ha, hb, hc, hd⟩ := Quad.mk.inj hquad
  exact ⟨_, _, _, _, _, _, _, _, rfl, rfl, rfl, rfl, rfl, rfl, rfl, rfl, ha, hb, hc, hd,
    fun k => quarterRound_get_other x⟩

/-! ### The permutation (R103 to R106) -/

theorem applyTimes_eq_iterate {α : Type} (f : α → α) (n : Nat) (x : α) : applyTimes f n x = f^[n] x := by
  induction n generalizing x with
  | zero => rfl
  | succ n ih => rw [applyTimes, ih, Function.iterate_succ_apply]

theorem columnRound_injective : Function.Injective columnRound :=
  (quarterRound_injective (by decide)).comp <| (quarterRound_injective (by decide)).comp <|
    (quarterRound_injective (by decide)).comp (quarterRound_injective (by decide))

theorem diagonalRound_injective : Function.Injective diagonalRound :=
  (quarterRound_injective (by decide)).comp <| (quarterRound_injective (by decide)).comp <|
    (quarterRound_injective (by decide)).comp (quarterRound_injective (by decide))

theorem doubleRound_injective : Function.Injective doubleRound := diagonalRound_injective.comp columnRound_injective

theorem doubleRound_zero : doubleRound .zero = .zero := by decide

/-- Settles O22: a double round is injective, so it is a bijection on finitely many files; it fixes the zero file. -/
theorem permuteBijective : Obligations.PermuteBijective := by
  have hpermute : permute = doubleRound^[10] := funext (applyTimes_eq_iterate doubleRound 10)
  have hfinite : Finite Words16 := .of_injective Words16.get fun _ _ h => Words16.ext_get (congrFun h)
  rw [Obligations.PermuteBijective, hpermute]
  exact ⟨doubleRound_injective.bijective_of_finite.iterate 10, Function.iterate_fixed doubleRound_zero 10⟩

/-! ### The block on either datapath (R137, R138, R140) -/

theorem columnRound_eq (x : Words16) : columnRound x = wordsOf (vquarter (rowsOf x)) := by
  simp [columnRound, quarterRound, Words16.get, Words16.set, quarter, wordsOf, rowsOf, vquarter, vadd, vxor, vrotl]

theorem diagonalRound_eq (x : Words16) :
    diagonalRound x = wordsOf (undiagonalise (vquarter (diagonalise (rowsOf x)))) := by
  simp [diagonalRound, quarterRound, Words16.get, Words16.set, quarter, wordsOf, rowsOf, vquarter, vadd, vxor, vrotl,
    diagonalise, undiagonalise, vshuf, lane]

@[simp] theorem rowsOf_wordsOf (v : Rows) : rowsOf (wordsOf v) = v := rfl

@[simp] theorem wordsOf_rowsOf (x : Words16) : wordsOf (rowsOf x) = x := rfl

theorem wordsOf_vdoubleRound (v : Rows) : wordsOf (vdoubleRound v) = doubleRound (wordsOf v) := by
  rw [doubleRound, columnRound_eq, diagonalRound_eq, rowsOf_wordsOf, rowsOf_wordsOf, vdoubleRound]

theorem wordsOf_vectorBlock (x : Words16) : wordsOf (vectorBlock x) = scalarBlock x := by
  have hrounds := Function.Semiconj.iterate_right wordsOf_vdoubleRound 10 (rowsOf x)
  rw [← applyTimes_eq_iterate, ← applyTimes_eq_iterate, wordsOf_rowsOf] at hrounds
  calc wordsOf (vectorBlock x) = feedForward (wordsOf (applyTimes vdoubleRound 10 (rowsOf x))) x := rfl
    _ = scalarBlock x := by rw [hrounds, scalarBlock, permute]

theorem storeRows_eq (v : Rows) : storeRows v = serialize (wordsOf v) := rfl

/-- Whichever datapath runs, the block is the scalar one. -/
theorem block_eq_scalar (dp : Datapath) (u : ChaChaUnit) : block dp u = block .scalar u := by
  cases dp with
  | scalar => rfl
  | vec128 => simp only [block, storeRows_eq, wordsOf_vectorBlock]

theorem byteVec_toList (n : Nat) {bs : List Byte} (h : bs.length = n) : (byteVec n bs).toList = bs := by
  subst h
  rw [byteVec, Vector.toList_ofFn]
  exact List.ext_getElem (by simp) (by simp)

theorem block_ks (dp : Datapath) (u : ChaChaUnit) : (block dp u).ks.toList = serialize (scalarBlock u.s) := by
  rw [block_eq_scalar]
  exact byteVec_toList 64 (serialize_length _)

/-! ### The keystream (R110 to R112) -/

/-- The first 64 keystream bytes are the block of the state itself. -/
theorem streamByte_of_lt (x : Words16) {j : Nat} (h : j < 64) :
    streamByte x j = (serialize (scalarBlock x)).getD j 0#8 := by
  rw [streamByte, Nat.div_eq_of_lt h, Nat.mod_eq_of_lt h, BitVec.add_zero, Words16.set_get_self]

/-- After one increment the keystream goes on 64 bytes later. -/
theorem streamByte_bumped (x : Words16) (j : Nat) :
    streamByte (x.set 12 (x.get 12 + 1#32)) j = streamByte x (j + 64) := by
  have hcounter : x.get 12 + 1#32 + BitVec.ofNat 32 (j / 64) = x.get 12 + BitVec.ofNat 32 (j / 64 + 1) := by
    rw [BitVec.add_assoc, Nat.add_comm (j / 64), BitVec.ofNat_add]
  simp only [streamByte, Words16.get_set_same, Words16.set_set, hcounter, Nat.add_mod_right,
    Nat.add_div_right j (show 0 < 64 by decide)]

/-- One pass of the loop XORs its bytes with the first keystream bytes. -/
theorem xorStretch_read (dp : Datapath) {addr n : Nat} {um : ChaChaUnit × Memory} (hw : um.2.wf = true)
    (hn : n ≤ 64) (hb : addr + n ≤ um.2.size) {j : Nat} (hj : j < n) :
    (xorStretch dp addr n um).2.read (addr + j) = um.2.read (addr + j) ^^^ streamByte um.1.s j := by
  have hlen := xorStretch_written dp addr n um hn
  have hread := Memory.read_writeBytes_inside (a := addr) hw (by rwa [hlen]) j (by rwa [hlen])
  rw [xorStretch, hread, streamByte_of_lt _ (by omega), List.getD_eq_getElem _ _ (by rw [serialize_length]; omega)]
  simp only [xorBytes, List.getElem_zipWith, Memory.readBytes_getElem, block_ks]

theorem xorStretch_s (dp : Datapath) (addr n : Nat) (um : ChaChaUnit × Memory) :
    (xorStretch dp addr n um).1.s = um.1.s.set 12 (um.1.s.get 12 + 1#32) := by
  rw [xorStretch, bumpCounter_s, block_s]

/-- The loop XORs byte `j` with keystream byte `j`: the first 64 by the first pass, the others by the passes after it,
whose keystream starts one block later. -/
theorem xorStretches_read (dp : Datapath) {k addr len : Nat} {um : ChaChaUnit × Memory} (hw : um.2.wf = true)
    (hk : len ≤ 64 * k) (hb : addr + len ≤ um.2.size) {j : Nat} (hj : j < len) :
    (xorStretches dp k addr len um).2.read (addr + j) = um.2.read (addr + j) ^^^ streamByte um.1.s j := by
  induction k generalizing addr len um j with
  | zero => omega
  | succ k ih =>
    rw [xorStretches]
    by_cases h : j < 64
    · rw [xorStretches_outside _ _ _ _ _ (by omega), xorStretch_read dp hw (by omega) (by omega) (by omega)]
    · obtain ⟨i, rfl⟩ := Nat.exists_eq_add_of_le' (not_lt.mp h)
      have hmin : min 64 len = 64 := by omega
      rw [hmin, show addr + (i + 64) = addr + 64 + i by omega,
        ih (xorStretch_wf dp hw (by omega)) (by omega) (by rw [xorStretch_size]; omega) (by omega),
        xorStretch_outside _ _ _ _ (by omega), xorStretch_s, streamByte_bumped]

/-! ### CC.CLEAR and CC.XOR (R110, R114) -/

/-- Settles O20: no check, and a wiped unit is the unit after reset. -/
theorem ccClearResult : Obligations.CcClearResult := fun s => by
  rw [exec_accept (i := .ccClear) verdict_checksNone, workOf_ccClear]
  rfl

/-- Settles O19: the loop of R110 for the bytes of the buffer, the frame of the stream for all others. -/
theorem ccXorResult : Obligations.CcXorResult := by
  intro buf s hw ha
  have hb : (refRange buf).addr + (refRange buf).len ≤ s.mem.size := ha.required_inBounds (by simp [requiredRefs])
  have hmem := WritesOnly.xorStreamOn hb
  refine ⟨(xorStreamOn (refRange buf) s).mem, ?_, hmem.size, fun j hj => ?_, hmem.outside, fun h => ?_⟩
  · rw [exec_acceptable ha, workOf_ccXor ((accepted_iff_acceptable _ _).mpr ha)]
    rfl
  · exact xorStretches_read _ hw (by simp only [blockCount]; omega) hb hj
  · rw [xorStreamOn_mem, xorStream_empty _ _ (by simp [refRange, h])]

/-- The buffer's bytes in whatever machine CC.XOR leaves. -/
theorem ccXor_read {buf : Ref} {s t : State} (hw : s.mem.wf = true) (ha : Acceptable (.ccXor buf) s)
    (hx : exec (.ccXor buf) s = .next t) {j : Nat} (hj : j < buf.len.toNat) :
    t.mem.read (buf.addr.toNat + j) = s.mem.read (buf.addr.toNat + j) ^^^ streamByte s.ctx.cc.s j := by
  obtain ⟨m, hm, -, hread, -⟩ := ccXorResult buf s hw ha
  obtain rfl := Host.Outcome.next.inj (hx.symm.trans hm)
  exact hread j hj

/-! ### CC.INIT (R101) -/

/-- One more byte below a number is one more byte at the low end of its word. -/
theorem ofNat_byte_add (w n : Nat) (b : Byte) :
    BitVec.ofNat (w + 8) (b.toNat + 2 ^ 8 * n) = BitVec.ofNat w n ++ b := by
  have hb := b.isLt
  have hmod : (b.toNat + 2 ^ 8 * n) % 2 ^ 8 = b.toNat := by omega
  have hdiv : (b.toNat + 2 ^ 8 * n) / 2 ^ 8 = n := by omega
  apply BitVec.eq_of_toNat_eq
  rw [BitVec.toNat_append, ← Nat.shiftLeft_add_eq_or_of_lt hb, Nat.shiftLeft_eq, BitVec.toNat_ofNat,
    BitVec.toNat_ofNat, Nat.add_comm w, Nat.pow_add, Nat.mod_mul, hmod, hdiv, Nat.add_comm, Nat.mul_comm]

theorem load32le_readBytes (m : Memory) (a : Nat) {n o : Nat} (h : o + 4 ≤ n) :
    load32le (m.readBytes a n) o = memWord m (a + o) := by
  obtain ⟨k, rfl⟩ := Nat.exists_eq_add_of_le h
  have hbytes : ((m.readBytes a (o + 4 + k)).drop o).take 4 = m.readBytes (a + o) 4 := by
    rw [Nat.add_assoc, Memory.readBytes_add, Memory.readBytes_add, List.drop_left' (by simp), List.take_left' (by simp)]
  rw [load32le, hbytes]
  simp only [Memory.readBytes, leNat, Nat.mul_zero, Nat.add_zero]
  rw [ofNat_byte_add 24, ofNat_byte_add 16, ofNat_byte_add 8, BitVec.ofNat_toNat, BitVec.setWidth_eq]
  rfl

theorem chachaState_get_key (k : List Byte) (counter : Word) (n : List Byte) (j : Fin 8) :
    (chachaState k counter n).get ⟨4 + j.val, by omega⟩ = load32le k (4 * j.val) := by
  revert j
  simp [Fin.forall_fin_succ, Words16.get, chachaState]

theorem chachaState_get_nonce (k : List Byte) (counter : Word) (n : List Byte) (j : Fin 3) :
    (chachaState k counter n).get ⟨13 + j.val, by omega⟩ = load32le n (4 * j.val) := by
  revert j
  simp [Fin.forall_fin_succ, Words16.get, chachaState]

theorem exec_ccInit {counter : Word} {key nonce : Ref} {s : State} (ha : Acceptable (.ccInit counter key nonce) s) :
    exec (.ccInit counter key nonce) s = .next ((s.withCc { s.ctx.cc with
      s := chachaState (s.mem.readRange (refRange key)) counter (s.mem.readRange (refRange nonce)),
      live := true }).respond .ok 0#32) := by
  rw [exec_acceptable ha, workOf_ccInit ((accepted_iff_acceptable _ _).mpr ha)]

/-- Settles O18: the key and nonce bytes are read a word at a time. -/
theorem ccInitResult : Obligations.CcInitResult := by
  intro counter key nonce s ha
  obtain ⟨hkey, hnonce⟩ := not_or.mp ha.sized
  have hkey : key.len = 32#64 := not_not.mp hkey
  have hnonce : nonce.len = 12#64 := not_not.mp hnonce
  refine ⟨_, exec_ccInit ha, rfl, rfl, rfl, rfl, fun j => ?_, rfl, fun j => ?_⟩
  · rw [chachaState_get_key]
    exact load32le_readBytes _ _ (by simp [refRange, hkey]; omega)
  · rw [chachaState_get_nonce]
    exact load32le_readBytes _ _ (by simp [refRange, hnonce]; omega)

/-! ### Twice over (R115) -/

/-- Of a machine, acceptance asks the liveness flags and the size of memory only (R258). -/
theorem Acceptable.of_size_eq {i : Instr} {s t : State} (h : Acceptable i s) (hsize : t.mem.size = s.mem.size)
    (horder : ¬ OutOfOrder i t) : Acceptable i t where
  inOrder := horder
  present := h.present
  sized := h.sized
  related := h.related
  inBounds := by simpa only [OutOfBounds, hsize] using h.inBounds
  apart := h.apart

theorem AgreeOutside.readRange_eq {m m' : Memory} {q r : Range} (h : AgreeOutside m m' [q]) (hd : ¬ q.Meets r) :
    m'.readRange r = m.readRange r :=
  Memory.readBytes_congr fun a hlo hhi => h a (by simpa using fun hq => hd ⟨a, hq, hlo, hhi⟩)

theorem ccInit_next {counter : Word} {key nonce : Ref} {s t : State} (ha : Acceptable (.ccInit counter key nonce) s)
    (hx : exec (.ccInit counter key nonce) s = .next t) :
    t.mem = s.mem ∧ t.ctx.cc.live = true ∧
      t.ctx.cc.s = chachaState (s.mem.readRange (refRange key)) counter (s.mem.readRange (refRange nonce)) := by
  obtain rfl := Host.Outcome.next.inj (hx.symm.trans (exec_ccInit ha))
  exact ⟨rfl, rfl, rfl⟩

/-- Settles O25: the first pass leaves the key and nonce bytes, so the second starts from the same `S`, and a byte
XORed twice with one keystream byte is the byte. -/
theorem xorSymmetry : Obligations.XorSymmetry := by
  intro counter key nonce buf s s1 s2 s3 s4 hw hinit hxor hkey hnonce h1 h2 h3 h4
  obtain ⟨hmem1, -, hs1⟩ := ccInit_next hinit h1
  have hwrites2 : WritesOnly [refRange buf] s1.mem s2.mem := exec_writesOnly h2
  rw [hmem1] at hwrites2
  obtain ⟨hmem3, hlive3, hs3⟩ := ccInit_next (hinit.of_size_eq hwrites2.size id) h3
  have hwrites4 : WritesOnly [refRange buf] s3.mem s4.mem := exec_writesOnly h4
  rw [hmem3] at hwrites4
  have hstate : s3.ctx.cc.s = s1.ctx.cc.s := by
    rw [hs3, hs1, hwrites2.outside.readRange_eq hkey, hwrites2.outside.readRange_eq hnonce]
  have hxor3 : Acceptable (.ccXor buf) s3 :=
    hxor.of_size_eq (by rw [hmem3, hmem1, hwrites2.size]) (by simp [OutOfOrder, hlive3])
  have hw2 := hwrites2.wf hw
  refine Memory.ext_read (hwrites4.wf hw2) hw (hwrites4.size.trans hwrites2.size) fun a => ?_
  by_cases ha : (refRange buf).Holds a
  · obtain ⟨hlo, hhi⟩ := ha
    obtain ⟨j, rfl⟩ := Nat.exists_eq_add_of_le hlo
    have hj : j < buf.len.toNat := Nat.lt_of_add_lt_add_left hhi
    have hread2 := ccXor_read (hmem1 ▸ hw) hxor h2 hj
    have hread4 := ccXor_read (hmem3 ▸ hw2) hxor3 h4 hj
    simp only [refRange]
    rw [hread4, hmem3, hread2, hmem1, hstate, BitVec.xor_assoc, BitVec.xor_self, BitVec.xor_zero]
  · have hout : ∀ r ∈ [refRange buf], ¬ r.Holds a := by simpa using ha
    rw [hwrites4.outside a hout, hwrites2.outside a hout]

end Sys2Proof.Machine
end

section
/-! SUPPORT. The family of 42_chacha20_simd.md: a vector double round is a scalar one on the aliased words (O23), and
so is the whole block (O24). The simulation of the two datapaths stands with the block's lemmas, since CC.XOR needs
it too. -/

namespace Sys2Proof.Machine

/-- Settles O23: a vector quarter-round is the four column quarter-rounds, and between the two shuffles it is the
four diagonal ones (`wordsOf_vdoubleRound`). -/
theorem vectorDoubleRound : Obligations.VectorDoubleRound := by
  intro x
  rw [wordsOf_vdoubleRound, wordsOf_rowsOf]

/-- Settles O24: the alias carries the ten double rounds from one datapath to the other, and with them the feed-forward
and the stored bytes (`block_eq_scalar`). -/
theorem blockEquivalence : Obligations.BlockEquivalence := by
  intro u
  exact block_eq_scalar .vec128 u

end Sys2Proof.Machine
end

section
/-! SUPPORT. The family of 43_poly1305_field.md: byte strings as numbers, the clamped multiplier (O27), one block modulo
2^130 − 5 and its bounds (O30), which every step keeps (O51), the full reduction (O31), the tag's bytes (O32), and the
limb unit against the integer-level function of R150 over any cut into chunks (O33). -/

namespace Sys2Proof.Machine

/-! ### Byte strings as numbers (R54, R90) -/

theorem leNat_drop (bs : List Byte) (n : Nat) : leNat (bs.drop n) = leNat bs / 2 ^ (8 * n) := by
  induction n generalizing bs with
  | zero => simp
  | succ n ih =>
    cases bs with
    | nil => simp [leNat]
    | cons b bs =>
      have hb := b.isLt
      have hdiv : (b.toNat + 2 ^ 8 * leNat bs) / 2 ^ 8 = leNat bs := by omega
      rw [List.drop_succ_cons, ih, leNat, Nat.mul_succ, Nat.add_comm (8 * n), Nat.pow_add, ← Nat.div_div_eq_div_mul,
        hdiv]

theorem leNat_take (bs : List Byte) (n : Nat) : leNat (bs.take n) = leNat bs % 2 ^ (8 * n) := by
  induction n generalizing bs with
  | zero => simp [leNat, Nat.mod_one]
  | succ n ih =>
    cases bs with
    | nil => simp [leNat]
    | cons b bs =>
      have hb := b.isLt
      have hdiv : (b.toNat + 2 ^ 8 * leNat bs) / 2 ^ 8 = leNat bs := by omega
      have hmod : (b.toNat + 2 ^ 8 * leNat bs) % 2 ^ 8 = b.toNat := by omega
      rw [List.take_succ_cons, leNat, leNat, ih, Nat.mul_succ, Nat.add_comm (8 * n), Nat.pow_add, Nat.mod_mul, hdiv,
        hmod]

theorem leNat_lt (bs : List Byte) : leNat bs < 2 ^ (8 * bs.length) := by
  have h := leNat_take bs bs.length
  rw [List.take_length] at h
  rw [h]
  exact Nat.mod_lt _ (Nat.two_pow_pos _)

theorem leNat_append (as bs : List Byte) : leNat (as ++ bs) = leNat as + 2 ^ (8 * as.length) * leNat bs := by
  have ht := leNat_take (as ++ bs) as.length
  have hd := leNat_drop (as ++ bs) as.length
  rw [List.take_left] at ht
  rw [List.drop_left] at hd
  rw [ht, hd, Nat.mod_add_div]

@[simp] theorem leNat_replicate_zero (n : Nat) : leNat (List.replicate n 0#8) = 0 := by
  induction n with
  | zero => rfl
  | succ n ih => rw [List.replicate_succ, leNat, ih]; rfl

/-- The bytes of a string are those of its number (R54). -/
theorem leNat_getD (bs : List Byte) (j : Nat) : (bs.getD j 0#8).toNat = leNat bs / 2 ^ (8 * j) % 2 ^ 8 := by
  induction j generalizing bs with
  | zero =>
    cases bs with
    | nil => rfl
    | cons b bs =>
      have hb := b.isLt
      rw [leNat, List.getD_cons_zero]
      omega
  | succ j ih =>
    cases bs with
    | nil => simp [leNat]
    | cons b bs => rw [List.getD_cons_succ, ih, ← leNat_drop, ← leNat_drop, List.drop_succ_cons]

theorem load32le_toNat (bs : List Byte) (o : Nat) : (load32le bs o).toNat = leNat bs / 2 ^ (8 * o) % 2 ^ 32 := by
  rw [load32le, BitVec.toNat_ofNat, leNat_take, leNat_drop, Nat.mod_mod]

/-- The limb that `CLAMP_LOAD_R` and `UNPACK` cut from a loaded word (R152, R155): masked bits of the whole number. -/
theorem loadedLimb_toNat (bs : List Byte) (o s : Nat) {mask : Word} (hs : s ≤ 32)
    (hmask : mask.toNat < 2 ^ (32 - s)) :
    ((load32le bs o >>> s) &&& mask).toNat = leNat bs / 2 ^ (8 * o + s) &&& mask.toNat := by
  have hpow : 2 ^ 32 = 2 ^ s * 2 ^ (32 - s) := by rw [← Nat.pow_add, Nat.add_sub_cancel' hs]
  rw [BitVec.toNat_and, BitVec.toNat_ushiftRight, load32le_toNat, Nat.shiftRight_eq_div_pow, hpow,
    Nat.mod_mul_right_div_self, Nat.div_div_eq_div_mul, ← Nat.pow_add,
    ← Nat.mod_eq_of_lt (Nat.and_lt_two_pow (leNat bs / 2 ^ (8 * o + s)) hmask), Nat.and_mod_two_pow,
    Nat.mod_eq_of_lt hmask]

theorem limbMask_and_toNat (x : Word) : (x &&& limbMask).toNat = x.toNat % 2 ^ 26 := by
  rw [BitVec.toNat_and, ← Nat.and_two_pow_sub_one_eq_mod]
  rfl

theorem word_shiftRight_toNat (x : Word) (n : Nat) : (x >>> n).toNat = x.toNat / 2 ^ n := by
  rw [BitVec.toNat_ushiftRight, Nat.shiftRight_eq_div_pow]

/-! ### The clamped key (R152) -/

/-- The AND of two numbers, byte by byte. -/
theorem leNat_zipWith_and (as bs : List Byte) :
    leNat (List.zipWith (· &&& ·) as bs) = leNat as &&& leNat bs := by
  induction as generalizing bs with
  | nil => simp [leNat]
  | cons a as ih =>
    cases bs with
    | nil => simp [leNat]
    | cons b bs =>
      rw [List.zipWith_cons_cons, leNat, leNat, leNat, ih, BitVec.toNat_and]
      apply Nat.eq_of_testBit_eq
      intro i
      rw [Nat.testBit_and, Nat.add_comm, Nat.add_comm a.toNat, Nat.add_comm b.toNat,
        Nat.testBit_two_pow_mul_add _ (Nat.and_lt_two_pow _ b.isLt), Nat.testBit_two_pow_mul_add _ a.isLt,
        Nat.testBit_two_pow_mul_add _ b.isLt]
      split <;> rw [Nat.testBit_and]

/-- The bits that clamping keeps, byte by byte (R152). -/
def clampBytes : List Byte :=
  [0xff, 0xff, 0xff, 0x0f, 0xfc, 0xff, 0xff, 0x0f, 0xfc, 0xff, 0xff, 0x0f, 0xfc, 0xff, 0xff, 0x0f]

theorem clampByte_eq_and (b : Byte) (i : Fin 16) : clampByte i b = b &&& clampBytes.getD i 0#8 := by
  have hall : b = b &&& 0xff#8 := (BitVec.and_allOnes (x := b)).symm
  fin_cases i
  exacts [hall, hall, hall, rfl, rfl, hall, hall, rfl, rfl, hall, hall, rfl, rfl, hall, hall, rfl]

theorem clampedKey_eq_zipWith {k : List Byte} (h : 16 ≤ k.length) :
    clampedKey k = List.zipWith (· &&& ·) k clampBytes := by
  apply List.ext_getElem
  · simpa [clampedKey, clampBytes] using h
  · intro i h1 h2
    have hi : i < 16 := by simpa [clampedKey] using h1
    have hk : k[i] = k.getD i 0#8 := List.getElem_eq_getD 0#8
    have hc : clampBytes[i] = clampBytes.getD i 0#8 := List.getElem_eq_getD 0#8
    simp only [clampedKey, List.getElem_map, List.getElem_range, List.getElem_zipWith, hk]
    exact (clampByte_eq_and _ ⟨i, hi⟩).trans (congrArg _ hc.symm)

/-- The multiplier of a key is its number with the clamped bits cleared. -/
theorem keyR_eq_and {k : List Byte} (h : 16 ≤ k.length) :
    keyR k = leNat k &&& 0x0ffffffc0ffffffc0ffffffc0fffffff := by
  rw [keyR, clampedKey_eq_zipWith h, leNat_zipWith_and]
  rfl

/-- The 26 bits of the clamped multiplier from bit `n` on. -/
theorem keyR_piece {k : List Byte} (h : 16 ≤ k.length) (n : Nat) :
    keyR k / 2 ^ n % 2 ^ 26 = leNat k / 2 ^ n &&& 0x0ffffffc0ffffffc0ffffffc0fffffff / 2 ^ n % 2 ^ 26 := by
  rw [keyR_eq_and h, Nat.and_div_two_pow, ← Nat.and_two_pow_sub_one_eq_mod, ← Nat.and_two_pow_sub_one_eq_mod,
    Nat.and_assoc]

theorem keyR_lt {k : List Byte} (h : 16 ≤ k.length) : keyR k < 2 ^ 124 := by
  rw [keyR_eq_and h]
  exact Nat.and_lt_two_pow _ (by norm_num)

/-- Settles O27: every limb is the loaded word's bits under its mask, which are those of the whole number under the
clamping mask. -/
theorem clampedMultiplier : Obligations.ClampedMultiplier := by
  intro k hk
  have h : 16 ≤ k.length := by omega
  have hlt := keyR_lt h
  have h4 : (clampLoadR k).l4.toNat = keyR k / 2 ^ 104 := by
    rw [← Nat.mod_eq_of_lt (show keyR k / 2 ^ 104 < 2 ^ 26 by omega), keyR_piece h]
    exact loadedLimb_toNat k 12 8 (by norm_num) (by decide)
  refine ⟨?_, ?_, ?_, ?_, h4, by omega⟩
  · have h0 := keyR_piece h 0
    rw [Nat.pow_zero, Nat.div_one] at h0
    rw [h0]
    exact loadedLimb_toNat k 0 0 (by norm_num) (by decide)
  · rw [keyR_piece h]
    exact loadedLimb_toNat k 3 2 (by norm_num) (by decide)
  · rw [keyR_piece h]
    exact loadedLimb_toNat k 6 4 (by norm_num) (by decide)
  · rw [keyR_piece h]
    exact loadedLimb_toNat k 9 6 (by norm_num) (by decide)

/-! ### UNPACK and ADD (R155, R156) -/

/-- A word over the low `k` bits and one shifted clear of them. -/
theorem or_shiftLeft_toNat {x : Word} (y : Word) {k : Nat} (h : x.toNat < 2 ^ k) :
    (x ||| (y <<< k)).toNat = (x.toNat + 2 ^ k * y.toNat) % 2 ^ 32 := by
  have hx : x.toNat % 2 ^ 32 = x.toNat := Nat.mod_eq_of_lt x.isLt
  rw [BitVec.toNat_or, BitVec.toNat_shiftLeft, Nat.shiftLeft_eq, ← hx, ← Nat.or_mod_two_pow, hx, Nat.mul_comm,
    Nat.or_comm, ← Nat.two_pow_add_eq_or_of_lt h, Nat.add_comm]

/-- The limb of 26 bits that `UNPACK` cuts from a loaded word. -/
theorem unpackedLimb_toNat (m : List Byte) (o s : Nat) (hs : s ≤ 6) :
    ((load32le m o >>> s) &&& limbMask).toNat = leNat m / 2 ^ (8 * o + s) % 2 ^ 26 := by
  have hpow : 2 ^ 26 ≤ 2 ^ (32 - s) := Nat.pow_le_pow_right (by norm_num) (by omega)
  rw [loadedLimb_toNat m o s (by omega) (Nat.lt_of_lt_of_le (by decide) hpow), ← Nat.and_two_pow_sub_one_eq_mod]
  rfl

theorem unpack_l4_toNat (m : List Byte) (hibit : Bool) :
    (unpack m hibit).l4.toNat = leNat m / 2 ^ 104 % 2 ^ 24 + 2 ^ 24 * hibit.toNat := by
  have hlow : (load32le m 12 >>> 8).toNat = leNat m / 2 ^ 104 % 2 ^ 24 := by
    rw [word_shiftRight_toNat, load32le_toNat]
    omega
  have hbit : (if hibit then 1#32 else 0#32).toNat = hibit.toNat := by cases hibit <;> rfl
  have hle := hibit.toNat_le
  rw [unpack, or_shiftLeft_toNat _ (by rw [hlow]; omega), hlow, hbit]
  omega

/-- `UNPACK` gives limbs of at most 26 bits, the highest of 25. -/
theorem unpack_bounded (m : List Byte) (hibit : Bool) :
    Canonical (unpack m hibit) := by
  have h := unpack_l4_toNat m hibit
  have hle := hibit.toNat_le
  constructor
  case l4 => omega
  all_goals
    simp only [unpack, limbMask_and_toNat]
    exact Nat.mod_lt _ (by norm_num)

/-- The limbs of a block are its number and the bit above it (R150 step 4, R155). -/
theorem limbsVal_unpack {m : List Byte} (hm : m.length = 16) (hibit : Bool) :
    limbsVal (unpack m hibit) = leNat m + 2 ^ 128 * hibit.toNat := by
  have hlt := leNat_lt m
  have h0 : (unpack m hibit).l0.toNat = leNat m % 2 ^ 26 := by
    have h := unpackedLimb_toNat m 0 0 (by norm_num)
    rwa [Nat.mul_zero, Nat.pow_zero, Nat.div_one] at h
  have h1 : (unpack m hibit).l1.toNat = leNat m / 2 ^ 26 % 2 ^ 26 := unpackedLimb_toNat m 3 2 (by norm_num)
  have h2 : (unpack m hibit).l2.toNat = leNat m / 2 ^ 52 % 2 ^ 26 := unpackedLimb_toNat m 6 4 (by norm_num)
  have h3 : (unpack m hibit).l3.toNat = leNat m / 2 ^ 78 % 2 ^ 26 := unpackedLimb_toNat m 9 6 (by norm_num)
  have h4 := unpack_l4_toNat m hibit
  rw [hm] at hlt
  rw [limbsVal, h0, h1, h2, h3, h4]
  omega

/-- The limbs of an accumulator and a block added (R156, R160). -/
structure SumBounded (t : Limbs) : Prop where
  l0 : t.l0.toNat ≤ 2 ^ 27 + 64
  l1 : t.l1.toNat ≤ 2 ^ 27 + 64
  l2 : t.l2.toNat ≤ 2 ^ 27 + 64
  l3 : t.l3.toNat ≤ 2 ^ 27 + 64
  l4 : t.l4.toNat ≤ 2 ^ 27 + 64

/-- No limb of `ADD` wraps. -/
theorem limbAdd_toNat {h b : Limbs} (hh : AccBounded h) (hb : Canonical b) :
    SumBounded (limbAdd h b) ∧ limbsVal (limbAdd h b) = limbsVal h + limbsVal b := by
  obtain ⟨h0, h1, h2, h3, h4⟩ := hh
  obtain ⟨b0, b1, b2, b3, b4⟩ := hb
  have e0 : (h.l0 + b.l0).toNat = h.l0.toNat + b.l0.toNat := BitVec.toNat_add_of_lt (by omega)
  have e1 : (h.l1 + b.l1).toNat = h.l1.toNat + b.l1.toNat := BitVec.toNat_add_of_lt (by omega)
  have e2 : (h.l2 + b.l2).toNat = h.l2.toNat + b.l2.toNat := BitVec.toNat_add_of_lt (by omega)
  have e3 : (h.l3 + b.l3).toNat = h.l3.toNat + b.l3.toNat := BitVec.toNat_add_of_lt (by omega)
  have e4 : (h.l4 + b.l4).toNat = h.l4.toNat + b.l4.toNat := BitVec.toNat_add_of_lt (by omega)
  constructor
  · constructor <;> simp only [limbAdd, e0, e1, e2, e3, e4] <;> omega
  · simp only [limbsVal, limbAdd, e0, e1, e2, e3, e4]
    omega

/-! ### MUL (R157, R158) -/

theorem wideMul_toNat (x y : Word) : (wideMul x y).toNat = x.toNat * y.toNat := by
  have h : x.toNat * y.toNat < 2 ^ 32 * 2 ^ 32 := Nat.mul_lt_mul'' x.isLt y.isLt
  rw [wideMul, BitVec.toNat_mul, BitVec.toNat_setWidth_of_le (by norm_num), BitVec.toNat_setWidth_of_le (by norm_num)]
  exact Nat.mod_eq_of_lt h

/-- One column sum of `MUL`: the limbs `t` against the multipliers `x` that meet them in that column. -/
def column (t x : Limbs) : DWord :=
  wideMul t.l0 x.l0 + wideMul t.l1 x.l1 + wideMul t.l2 x.l2 + wideMul t.l3 x.l3 + wideMul t.l4 x.l4

theorem limbMul_eq_columns (t r : Limbs) (s : Multiples) :
    limbMul t r s =
      { d0 := column t ⟨r.l0, s.s4, s.s3, s.s2, s.s1⟩
        d1 := column t ⟨r.l1, r.l0, s.s4, s.s3, s.s2⟩
        d2 := column t ⟨r.l2, r.l1, r.l0, s.s4, s.s3⟩
        d3 := column t ⟨r.l3, r.l2, r.l1, r.l0, s.s4⟩
        d4 := column t ⟨r.l4, r.l3, r.l2, r.l1, r.l0⟩ } := rfl

/-- The sum of five limbs, without their weights. -/
def limbsSum (x : Limbs) : Nat := x.l0.toNat + x.l1.toNat + x.l2.toNat + x.l3.toNat + x.l4.toNat

/-- The column sum over the integers. -/
def columnSum (t x : Limbs) : Nat :=
  t.l0.toNat * x.l0.toNat + t.l1.toNat * x.l1.toNat + t.l2.toNat * x.l2.toNat + t.l3.toNat * x.l3.toNat +
    t.l4.toNat * x.l4.toNat

theorem columnSum_le {t : Limbs} (ht : SumBounded t) (x : Limbs) : columnSum t x ≤ (2 ^ 27 + 64) * limbsSum x := by
  simp only [columnSum, limbsSum, Nat.mul_add]
  gcongr
  exacts [ht.l0, ht.l1, ht.l2, ht.l3, ht.l4]

/-- No column wraps (R158). -/
theorem column_toNat {t x : Limbs} (ht : SumBounded t) (hx : limbsSum x < 2 ^ 31) :
    (column t x).toNat = columnSum t x := by
  have hle := columnSum_le ht x
  simp only [column, BitVec.toNat_add, wideMul_toNat, Nat.mod_add_mod]
  exact Nat.mod_eq_of_lt (show columnSum t x < 2 ^ 64 by omega)

/-- The value of the five columns, each at its limb's weight (R157). -/
def columnsVal (d : Columns) : Nat :=
  d.d0.toNat + 2 ^ 26 * d.d1.toNat + 2 ^ 52 * d.d2.toNat + 2 ^ 78 * d.d3.toNat + 2 ^ 104 * d.d4.toNat

/-- The columns' bounds (R158); the highest is lower, since `r[4]` has 20 bits. -/
structure ColumnsBounded (d : Columns) : Prop where
  d0 : d.d0.toNat < 2 ^ 57 + 2 ^ 52
  d1 : d.d1.toNat < 2 ^ 57 + 2 ^ 52
  d2 : d.d2.toNat < 2 ^ 57 + 2 ^ 52
  d3 : d.d3.toNat < 2 ^ 57 + 2 ^ 52
  d4 : d.d4.toNat < 2 ^ 55 + 2 ^ 52

/-- The products of weight 2^130 or more, divided by 2^130. -/
def highSum (t r : Limbs) : Nat :=
  columnSum t ⟨0#32, r.l4, r.l3, r.l2, r.l1⟩ + 2 ^ 26 * columnSum t ⟨0#32, 0#32, r.l4, r.l3, r.l2⟩ +
    2 ^ 52 * columnSum t ⟨0#32, 0#32, 0#32, r.l4, r.l3⟩ + 2 ^ 78 * columnSum t ⟨0#32, 0#32, 0#32, 0#32, r.l4⟩

/-- The product by columns: `s[i]` brings `r[i]` in times 5 where its weight would be 2^130 times more, which is once
`P` too little (R157). -/
theorem limbsVal_mul (t : Limbs) {p : PolyUnit} (hm : MultiplierBounded p) :
    limbsVal t * limbsVal p.r =
      columnSum t ⟨p.r.l0, p.s.s4, p.s.s3, p.s.s2, p.s.s1⟩ +
        2 ^ 26 * columnSum t ⟨p.r.l1, p.r.l0, p.s.s4, p.s.s3, p.s.s2⟩ +
        2 ^ 52 * columnSum t ⟨p.r.l2, p.r.l1, p.r.l0, p.s.s4, p.s.s3⟩ +
        2 ^ 78 * columnSum t ⟨p.r.l3, p.r.l2, p.r.l1, p.r.l0, p.s.s4⟩ +
        2 ^ 104 * columnSum t ⟨p.r.l4, p.r.l3, p.r.l2, p.r.l1, p.r.l0⟩ + prime1305 * highSum t p.r := by
  simp only [limbsVal, columnSum, highSum, hm.s1, hm.s2, hm.s3, hm.s4, prime1305, BitVec.toNat_zero]
  ring

/-- `MUL` gives columns within their bounds, whose value is the product modulo 2^130 − 5 (R157, R158). -/
theorem limbMul_spec {t : Limbs} {p : PolyUnit} (ht : SumBounded t) (hm : MultiplierBounded p) :
    ColumnsBounded (limbMul t p.r p.s) ∧
      columnsVal (limbMul t p.r p.s) ≡ limbsVal t * limbsVal p.r [MOD prime1305] := by
  have hval := limbsVal_mul t hm
  obtain ⟨⟨r0, r1, r2, r3, -⟩, r4, s1, s2, s3, s4⟩ := hm
  have h0 : limbsSum ⟨p.r.l0, p.s.s4, p.s.s3, p.s.s2, p.s.s1⟩ ≤ 2 ^ 30 + 2 ^ 23 := by simp only [limbsSum]; omega
  have h1 : limbsSum ⟨p.r.l1, p.r.l0, p.s.s4, p.s.s3, p.s.s2⟩ ≤ 2 ^ 30 + 2 ^ 23 := by simp only [limbsSum]; omega
  have h2 : limbsSum ⟨p.r.l2, p.r.l1, p.r.l0, p.s.s4, p.s.s3⟩ ≤ 2 ^ 30 + 2 ^ 23 := by simp only [limbsSum]; omega
  have h3 : limbsSum ⟨p.r.l3, p.r.l2, p.r.l1, p.r.l0, p.s.s4⟩ ≤ 2 ^ 30 + 2 ^ 23 := by simp only [limbsSum]; omega
  have h4 : limbsSum ⟨p.r.l4, p.r.l3, p.r.l2, p.r.l1, p.r.l0⟩ ≤ 2 ^ 28 + 2 ^ 20 := by simp only [limbsSum]; omega
  have e0 := column_toNat ht (Nat.lt_of_le_of_lt h0 (by norm_num))
  have e1 := column_toNat ht (Nat.lt_of_le_of_lt h1 (by norm_num))
  have e2 := column_toNat ht (Nat.lt_of_le_of_lt h2 (by norm_num))
  have e3 := column_toNat ht (Nat.lt_of_le_of_lt h3 (by norm_num))
  have e4 := column_toNat ht (Nat.lt_of_le_of_lt h4 (by norm_num))
  rw [limbMul_eq_columns]
  constructor
  · have hle := columnSum_le ht
    constructor <;> simp only [e0, e1, e2, e3, e4] <;> refine Nat.lt_of_le_of_lt (hle _) ?_ <;> omega
  · rw [hval, columnsVal, e0, e1, e2, e3, e4]
    exact Nat.modEq_add_modulus_mul_iff.mpr rfl

/-! ### CARRY (R159, R160) -/

theorem columnLimb_toNat (d : DWord) : (columnLimb d).toNat = d.toNat % 2 ^ 26 := by
  rw [columnLimb, limbMask_and_toNat, BitVec.toNat_setWidth]
  omega

/-- A column's carry fits its 32-bit register. -/
theorem columnCarry_toNat {d : DWord} (h : d.toNat < 2 ^ 58) : (columnCarry d).toNat = d.toNat / 2 ^ 26 := by
  rw [columnCarry, BitVec.toNat_setWidth, BitVec.toNat_ushiftRight, Nat.shiftRight_eq_div_pow]
  omega

/-- A column with the carry of the one below added (R159 lines 4 to 7). -/
def withCarry (d below : DWord) : DWord := d + (columnCarry below).setWidth 64

theorem withCarry_toNat {d below : DWord} (hd : d.toNat < 2 ^ 58) (hb : below.toNat < 2 ^ 58) :
    (withCarry d below).toNat = d.toNat + below.toNat / 2 ^ 26 := by
  rw [withCarry, BitVec.toNat_add, BitVec.toNat_setWidth_of_le (by norm_num), columnCarry_toNat hb]
  omega

/-- The columns after the carries have run up (R159 lines 3 to 7). -/
def rippled (d : Columns) : Columns :=
  let d1 := withCarry d.d1 d.d0
  let d2 := withCarry d.d2 d1
  let d3 := withCarry d.d3 d2
  { d0 := d.d0, d1 := d1, d2 := d2, d3 := d3, d4 := withCarry d.d4 d3 }

/-- The lowest limb with five times the carry out of the highest column (R159 line 8). -/
def foldedLow (e : Columns) : Word := columnLimb e.d0 + columnCarry e.d4 * 5#32

theorem limbCarry_eq (d : Columns) :
    limbCarry d =
      { l0 := foldedLow (rippled d) &&& limbMask
        l1 := columnLimb (rippled d).d1 + (foldedLow (rippled d) >>> 26)
        l2 := columnLimb (rippled d).d2, l3 := columnLimb (rippled d).d3, l4 := columnLimb (rippled d).d4 } := rfl

/-- No column wraps as the carries run up, and every carry fits its register (R158, R159). -/
theorem rippled_spec {d : Columns} (h : ColumnsBounded d) :
    (rippled d).d1.toNat = d.d1.toNat + d.d0.toNat / 2 ^ 26 ∧
    (rippled d).d2.toNat = d.d2.toNat + (rippled d).d1.toNat / 2 ^ 26 ∧
    (rippled d).d3.toNat = d.d3.toNat + (rippled d).d2.toNat / 2 ^ 26 ∧
    (rippled d).d4.toNat = d.d4.toNat + (rippled d).d3.toNat / 2 ^ 26 := by
  obtain ⟨h0, h1, h2, h3, h4⟩ := h
  have e1 : (rippled d).d1.toNat = d.d1.toNat + d.d0.toNat / 2 ^ 26 := withCarry_toNat (by omega) (by omega)
  have e2 : (rippled d).d2.toNat = d.d2.toNat + (rippled d).d1.toNat / 2 ^ 26 :=
    withCarry_toNat (by omega) (show (rippled d).d1.toNat < 2 ^ 58 by omega)
  have e3 : (rippled d).d3.toNat = d.d3.toNat + (rippled d).d2.toNat / 2 ^ 26 :=
    withCarry_toNat (by omega) (show (rippled d).d2.toNat < 2 ^ 58 by omega)
  exact ⟨e1, e2, e3, withCarry_toNat (by omega) (show (rippled d).d3.toNat < 2 ^ 58 by omega)⟩

/-- `CARRY` leaves the accumulator within its bounds, at the columns' value modulo 2^130 − 5: only the carry out of the
highest column, `2^130 = P + 5` times itself, comes back as five times itself (R159, R160). -/
theorem limbCarry_spec {d : Columns} (h : ColumnsBounded d) :
    AccBounded (limbCarry d) ∧ limbsVal (limbCarry d) ≡ columnsVal d [MOD prime1305] := by
  obtain ⟨e1, e2, e3, e4⟩ := rippled_spec h
  obtain ⟨h0, h1, h2, h3, h4⟩ := h
  have e0 : (rippled d).d0 = d.d0 := rfl
  have hf : (foldedLow (rippled d)).toNat = d.d0.toNat % 2 ^ 26 + (rippled d).d4.toNat / 2 ^ 26 * 5 := by
    rw [foldedLow, BitVec.toNat_add, BitVec.toNat_mul, columnLimb_toNat, columnCarry_toNat (by omega), e0]
    simp only [BitVec.toNat_ofNat]
    omega
  have hc : (columnLimb (rippled d).d1 + (foldedLow (rippled d) >>> 26)).toNat =
      (rippled d).d1.toNat % 2 ^ 26 + (foldedLow (rippled d)).toNat / 2 ^ 26 := by
    rw [BitVec.toNat_add, columnLimb_toNat, word_shiftRight_toNat]
    omega
  rw [limbCarry_eq]
  constructor
  · constructor <;> simp only [hc, limbMask_and_toNat, columnLimb_toNat] <;> omega
  · have hval : columnsVal d = limbsVal (limbCarry d) + prime1305 * ((rippled d).d4.toNat / 2 ^ 26) := by
      rw [limbCarry_eq, columnsVal, limbsVal, prime1305]
      simp only [hc, limbMask_and_toNat, columnLimb_toNat]
      omega
    rw [hval, ← limbCarry_eq]
    exact Nat.modEq_add_modulus_mul_iff.mpr rfl

/-! ### PBLOCK (R159, R160) -/

/-- One block from a bounded unit: the bounds and the value of the accumulator. -/
theorem pblock_spec (m : List Byte) {p : PolyUnit} (hp : PolyBounded p) :
    AccBounded (pblock m p).h ∧
      limbsVal (pblock m p).h ≡ (limbsVal p.h + limbsVal (unpack m (!p.final))) * limbsVal p.r [MOD prime1305] := by
  obtain ⟨ht, hsum⟩ := limbAdd_toNat hp.acc (unpack_bounded m (!p.final))
  obtain ⟨hd, hmul⟩ := limbMul_spec ht hp.mul
  obtain ⟨hacc, hcarry⟩ := limbCarry_spec hd
  rw [← hsum]
  exact ⟨hacc, hcarry.trans hmul⟩

theorem pblock_bounded (m : List Byte) {p : PolyUnit} (hp : PolyBounded p) : PolyBounded (pblock m p) :=
  ⟨(pblock_spec m hp).1, ⟨hp.mul.r, hp.mul.top, hp.mul.s1, hp.mul.s2, hp.mul.s3, hp.mul.s4⟩⟩

theorem limbsVal_pblock {m : List Byte} (hm : m.length = 16) {p : PolyUnit} (hp : PolyBounded p) :
    limbsVal (pblock m p).h ≡ (limbsVal p.h + (leNat m + 2 ^ 128 * (!p.final).toNat)) * limbsVal p.r
      [MOD prime1305] := by
  rw [← limbsVal_unpack hm]
  exact (pblock_spec m hp).2

/-- Settles O30: the block is added without wrap, multiplied by columns and carried, each step within its bounds. -/
theorem pblockStep : Obligations.PblockStep := by
  intro m p hm hp
  refine ⟨pblock_bounded m hp, ?_, rfl⟩
  have h := limbsVal_pblock hm hp
  rw [← Nat.add_assoc] at h
  cases hf : p.final <;> rw [hf] at h <;> exact h

/-! ### The limb bounds through every step (R160) -/

theorem and_toNat_lt {n : Nat} (x mask : Word) (h : mask.toNat < n) : (x &&& mask).toNat < n := by
  rw [BitVec.toNat_and]
  exact Nat.lt_of_le_of_lt Nat.and_le_right h

/-- Any key's multiplier is within its bounds, whatever the length of the byte string. -/
theorem polyKey_multiplierBounded (k : List Byte) (live : Bool) (p : PolyUnit) :
    MultiplierBounded (polyKey k live p) := by
  have h1 : (clampLoadR k).l1.toNat < 2 ^ 26 := and_toNat_lt _ _ (by decide)
  have h2 : (clampLoadR k).l2.toNat < 2 ^ 26 := and_toNat_lt _ _ (by decide)
  have h3 : (clampLoadR k).l3.toNat < 2 ^ 26 := and_toNat_lt _ _ (by decide)
  have h4 : (clampLoadR k).l4.toNat < 2 ^ 20 := and_toNat_lt _ _ (by decide)
  have hfive : ∀ {x : Word}, x.toNat < 2 ^ 26 → (5#32 * x).toNat = 5 * x.toNat := by
    intro x hx
    rw [BitVec.toNat_mul, BitVec.toNat_ofNat]
    omega
  exact ⟨⟨and_toNat_lt _ _ (by decide), h1, h2, h3, Nat.lt_trans h4 (by norm_num)⟩, h4, hfive h1, hfive h2, hfive h3,
    hfive (Nat.lt_trans h4 (by norm_num))⟩

theorem polyKey_bounded (k : List Byte) (live : Bool) (p : PolyUnit) : PolyBounded (polyKey k live p) :=
  ⟨polyBounded_reset.acc, polyKey_multiplierBounded k live p⟩

theorem MultiplierBounded.congr {p q : PolyUnit} (hp : MultiplierBounded p) (hr : q.r = p.r) (hs : q.s = p.s) :
    MultiplierBounded q := by
  obtain ⟨r, top, s1, s2, s3, s4⟩ := hp
  constructor <;> simpa only [hr, hs]

theorem absorbBlocks_bounded (n : Nat) (m : List Byte) {p : PolyUnit} (hp : PolyBounded p) :
    PolyBounded (absorbBlocks n m p) := by
  induction n generalizing m p with
  | zero => exact hp
  | succ n ih => exact ih _ (pblock_bounded _ hp)

theorem absorb_bounded (m : List Byte) {p : PolyUnit} (hp : PolyBounded p) : PolyBounded (absorb m p) := by
  obtain ⟨hh, -, -⟩ := absorb_spec m p
  have hk := absorb_sameKeying m p
  refine ⟨?_, hp.mul.congr hk.r hk.s⟩
  rw [hh]
  exact (absorbBlocks_bounded _ _ hp).acc

theorem polyBounded_invariant : ContextInvariant fun c => PolyBounded c.poly where
  raised _ _ hp := hp
  port _ _ hp := hp
  worked i s ha hp := by
    rcases workOf_poly ha with h | ⟨k, h⟩ | ⟨-, m, h⟩ | h <;> rw [h]
    · exact hp
    · exact polyKey_bounded k true s.ctx.poly
    · exact absorb_bounded m hp
    · exact polyBounded_reset

/-- Settles O51: keying starts within the bounds, and every block absorbed keeps them. -/
theorem stepKeepsLimbsBounded : Obligations.StepKeepsLimbsBounded :=
  fun _ _ hp h => polyBounded_invariant.step h hp

/-! ### FULLCARRY (R161) -/

/-- A limb with the carry of the one below added (R161, R162). -/
def limbWithCarry (x below : Word) : Word := x + (below >>> 26)

theorem limbWithCarry_toNat {x below : Word} (hx : x.toNat < 2 ^ 31) :
    (limbWithCarry x below).toNat = x.toNat + below.toNat / 2 ^ 26 := by
  have hb := below.isLt
  rw [limbWithCarry, BitVec.toNat_add, word_shiftRight_toNat]
  omega

/-- The limbs from `l2` up with the carries run up, and the carry out of the highest folded into `l0` (R161). -/
def fullRippled (h : Limbs) : Limbs :=
  let l2 := limbWithCarry h.l2 h.l1
  let l3 := limbWithCarry h.l3 l2
  let l4 := limbWithCarry h.l4 l3
  { l0 := h.l0 + (l4 >>> 26) * 5#32, l1 := h.l1, l2 := l2, l3 := l3, l4 := l4 }

theorem fullCarry_h (p : PolyUnit) :
    (fullCarry p).h =
      { l0 := (fullRippled p.h).l0 &&& limbMask
        l1 := limbWithCarry (p.h.l1 &&& limbMask) (fullRippled p.h).l0
        l2 := (fullRippled p.h).l2 &&& limbMask
        l3 := (fullRippled p.h).l3 &&& limbMask
        l4 := (fullRippled p.h).l4 &&& limbMask } := rfl

/-- `FULLCARRY` leaves limbs of 26 bits at the value modulo 2^130 − 5: a carry reaches `l1` again only when one had left
it, and then less than 64 stayed there (R161). -/
theorem fullCarry_spec {p : PolyUnit} (h : AccBounded p.h) :
    Canonical (fullCarry p).h ∧ limbsVal (fullCarry p).h ≡ limbsVal p.h [MOD prime1305] := by
  obtain ⟨h0, h1, h2, h3, h4⟩ := h
  have e2 : (fullRippled p.h).l2.toNat = p.h.l2.toNat + p.h.l1.toNat / 2 ^ 26 := limbWithCarry_toNat (by omega)
  have e3 : (fullRippled p.h).l3.toNat = p.h.l3.toNat + (fullRippled p.h).l2.toNat / 2 ^ 26 :=
    limbWithCarry_toNat (by omega)
  have e4 : (fullRippled p.h).l4.toNat = p.h.l4.toNat + (fullRippled p.h).l3.toNat / 2 ^ 26 :=
    limbWithCarry_toNat (by omega)
  have e0 : (fullRippled p.h).l0.toNat = p.h.l0.toNat + (fullRippled p.h).l4.toNat / 2 ^ 26 * 5 := by
    have hfold : (fullRippled p.h).l0 = p.h.l0 + ((fullRippled p.h).l4 >>> 26) * 5#32 := rfl
    rw [hfold, BitVec.toNat_add, BitVec.toNat_mul, word_shiftRight_toNat, BitVec.toNat_ofNat]
    omega
  have e1 : (limbWithCarry (p.h.l1 &&& limbMask) (fullRippled p.h).l0).toNat =
      p.h.l1.toNat % 2 ^ 26 + (fullRippled p.h).l0.toNat / 2 ^ 26 := by
    rw [limbWithCarry_toNat (by rw [limbMask_and_toNat]; omega), limbMask_and_toNat]
  have hval : limbsVal p.h = limbsVal (fullCarry p).h + prime1305 * ((fullRippled p.h).l4.toNat / 2 ^ 26) := by
    simp only [fullCarry_h, limbsVal, prime1305, e1, limbMask_and_toNat]
    omega
  have hback : p.h.l1.toNat % 2 ^ 26 + (fullRippled p.h).l0.toNat / 2 ^ 26 < 2 ^ 26 := by
    by_cases hfull : p.h.l1.toNat < 2 ^ 26
    · have hnone : (fullRippled p.h).l4.toNat / 2 ^ 26 = 0 := by omega
      omega
    · omega
  constructor
  · constructor <;> simp only [fullCarry_h, e1, limbMask_and_toNat] <;> omega
  · rw [hval]
    exact Nat.modEq_add_modulus_mul_iff.mpr rfl

/-! ### CSUB (R162) -/

@[simp] theorem maskSelect_zero (h g : Word) : maskSelect 0#32 h g = h := by
  rw [maskSelect, BitVec.not_zero, BitVec.and_allOnes, BitVec.and_zero, BitVec.or_zero]

@[simp] theorem maskSelect_allOnes (h g : Word) : maskSelect (BitVec.allOnes 32) h g = g := by
  rw [maskSelect, BitVec.not_allOnes, BitVec.and_allOnes, BitVec.and_zero, BitVec.zero_or]

/-- `h + 5` with its carries run up, before the limbs are masked (R162). -/
def plusFive (h : Limbs) : Limbs :=
  let l0 := h.l0 + 5#32
  let l1 := limbWithCarry h.l1 l0
  let l2 := limbWithCarry h.l2 l1
  let l3 := limbWithCarry h.l3 l2
  { l0 := l0, l1 := l1, l2 := l2, l3 := l3, l4 := limbWithCarry h.l4 l3 }

/-- The mask of a highest limb of `h + 5`: its sign bit after 2^26 is taken away, less one (R162). -/
def subMask (top : Word) : Word := ((top - 0x4000000#32) >>> 31) - 1#32

theorem condSub_h (p : PolyUnit) :
    (condSub p).h =
      { l0 := maskSelect (subMask (plusFive p.h).l4) p.h.l0 ((plusFive p.h).l0 &&& limbMask)
        l1 := maskSelect (subMask (plusFive p.h).l4) p.h.l1 ((plusFive p.h).l1 &&& limbMask)
        l2 := maskSelect (subMask (plusFive p.h).l4) p.h.l2 ((plusFive p.h).l2 &&& limbMask)
        l3 := maskSelect (subMask (plusFive p.h).l4) p.h.l3 ((plusFive p.h).l3 &&& limbMask)
        l4 := maskSelect (subMask (plusFive p.h).l4) p.h.l4 ((plusFive p.h).l4 - 0x4000000#32) } := rfl

theorem subMask_of_lt {top : Word} (h : top.toNat < 2 ^ 26) : subMask top = 0#32 := by
  apply BitVec.eq_of_toNat_eq
  rw [subMask, BitVec.toNat_sub, word_shiftRight_toNat, BitVec.toNat_sub]
  simp only [BitVec.toNat_ofNat]
  omega

theorem subMask_of_le {top : Word} (h : 2 ^ 26 ≤ top.toNat) (hlt : top.toNat < 2 ^ 31) :
    subMask top = BitVec.allOnes 32 := by
  apply BitVec.eq_of_toNat_eq
  rw [subMask, BitVec.toNat_sub, word_shiftRight_toNat, BitVec.toNat_sub]
  simp only [BitVec.toNat_ofNat, BitVec.toNat_allOnes]
  omega

/-- `CSUB` on limbs of 26 bits takes 2^130 − 5 away where the value reaches it, which it does when `h + 5` carries out
of bit 129 (R162). -/
theorem condSub_spec {p : PolyUnit} (h : Canonical p.h) :
    Canonical (condSub p).h ∧ limbsVal (condSub p).h = limbsVal p.h % prime1305 := by
  have hcanon := h
  obtain ⟨h0, h1, h2, h3, h4⟩ := h
  have e0 : (plusFive p.h).l0.toNat = p.h.l0.toNat + 5 := BitVec.toNat_add_of_lt (by simp; omega)
  have e1 : (plusFive p.h).l1.toNat = p.h.l1.toNat + (plusFive p.h).l0.toNat / 2 ^ 26 := limbWithCarry_toNat (by omega)
  have e2 : (plusFive p.h).l2.toNat = p.h.l2.toNat + (plusFive p.h).l1.toNat / 2 ^ 26 := limbWithCarry_toNat (by omega)
  have e3 : (plusFive p.h).l3.toNat = p.h.l3.toNat + (plusFive p.h).l2.toNat / 2 ^ 26 := limbWithCarry_toNat (by omega)
  have e4 : (plusFive p.h).l4.toNat = p.h.l4.toNat + (plusFive p.h).l3.toNat / 2 ^ 26 := limbWithCarry_toNat (by omega)
  by_cases hlt : (plusFive p.h).l4.toNat < 2 ^ 26
  · have hkeep : (condSub p).h = p.h := by simp only [condSub_h, subMask_of_lt hlt, maskSelect_zero]
    rw [hkeep]
    refine ⟨hcanon, (Nat.mod_eq_of_lt ?_).symm⟩
    simp only [limbsVal, prime1305]
    omega
  · have hmask := subMask_of_le (top := (plusFive p.h).l4) (by omega) (by omega)
    have htop : ((plusFive p.h).l4 - 0x4000000#32).toNat = (plusFive p.h).l4.toNat - 2 ^ 26 := by
      rw [BitVec.toNat_sub, BitVec.toNat_ofNat]
      omega
    have hval : limbsVal p.h = limbsVal (condSub p).h + prime1305 := by
      simp only [condSub_h, hmask, maskSelect_allOnes, limbsVal, limbMask_and_toNat, htop, prime1305]
      omega
    have hc : Canonical (condSub p).h := by
      constructor <;> simp only [condSub_h, hmask, maskSelect_allOnes, limbMask_and_toNat, htop] <;> omega
    refine ⟨hc, ?_⟩
    rw [hval, Nat.add_mod_right, Nat.mod_eq_of_lt]
    simp only [limbsVal, prime1305] at hval ⊢
    omega

/-- Settles O31: `FULLCARRY` makes the limbs canonical, and of such a value at most one multiple of 2^130 − 5 is left
for `CSUB`. -/
theorem fullReduction : Obligations.FullReduction := by
  intro p hp
  obtain ⟨hcanon, hval⟩ := fullCarry_spec hp
  obtain ⟨hres, hmod⟩ := condSub_spec hcanon
  exact ⟨hres, hmod.trans hval⟩

/-! ### PACK128, ADDPAD and TAGOUT (R163 to R165) -/

/-- The packed words are the lower 128 bits of the accumulator (R163). -/
theorem quadVal_pack128 {h : Limbs} (hc : Canonical h) : quadVal (pack128 h) = limbsVal h % 2 ^ 128 := by
  obtain ⟨h0, h1, h2, h3, h4⟩ := hc
  have e0 : (pack128 h).q0.toNat = (h.l0.toNat + 2 ^ 26 * h.l1.toNat) % 2 ^ 32 := or_shiftLeft_toNat _ h0
  have e1 : (pack128 h).q1.toNat = (h.l1.toNat / 2 ^ 6 + 2 ^ 20 * h.l2.toNat) % 2 ^ 32 := by
    rw [← word_shiftRight_toNat]
    exact or_shiftLeft_toNat _ (by rw [word_shiftRight_toNat]; omega)
  have e2 : (pack128 h).q2.toNat = (h.l2.toNat / 2 ^ 12 + 2 ^ 14 * h.l3.toNat) % 2 ^ 32 := by
    rw [← word_shiftRight_toNat]
    exact or_shiftLeft_toNat _ (by rw [word_shiftRight_toNat]; omega)
  have e3 : (pack128 h).q3.toNat = (h.l3.toNat / 2 ^ 18 + 2 ^ 8 * h.l4.toNat) % 2 ^ 32 := by
    rw [← word_shiftRight_toNat]
    exact or_shiftLeft_toNat _ (by rw [word_shiftRight_toNat]; omega)
  rw [quadVal, e0, e1, e2, e3, limbsVal]
  omega

/-- One step of `ADDPAD`: two words and the carry out of the sum below (R164). -/
def padSum (w q : Word) (f : DWord) : DWord := w.setWidth 64 + q.setWidth 64 + (f >>> 32)

theorem padSum_toNat (w q : Word) {f : DWord} (hf : f.toNat < 2 ^ 34) :
    (padSum w q f).toNat = w.toNat + q.toNat + f.toNat / 2 ^ 32 := by
  have hw := w.isLt
  have hq := q.isLt
  simp only [padSum, BitVec.toNat_add, BitVec.toNat_setWidth, BitVec.toNat_ushiftRight, Nat.shiftRight_eq_div_pow]
  omega

/-- Four sums, each with the carry out of the one below, give the sum of the two numbers without its last carry
(R164). -/
theorem quadVal_padSums {w q : Quad} {f0 f1 f2 f3 : DWord} (h0 : f0 = padSum w.q0 q.q0 0#64)
    (h1 : f1 = padSum w.q1 q.q1 f0) (h2 : f2 = padSum w.q2 q.q2 f1) (h3 : f3 = padSum w.q3 q.q3 f2) :
    quadVal ⟨f0.setWidth 32, f1.setWidth 32, f2.setWidth 32, f3.setWidth 32⟩ =
      (quadVal w + quadVal q) % 2 ^ 128 := by
  have e0 : f0.toNat = w.q0.toNat + q.q0.toNat := h0 ▸ padSum_toNat _ _ (by decide)
  have e1 : f1.toNat = w.q1.toNat + q.q1.toNat + f0.toNat / 2 ^ 32 := h1 ▸ padSum_toNat _ _ (by omega)
  have e2 : f2.toNat = w.q2.toNat + q.q2.toNat + f1.toNat / 2 ^ 32 := h2 ▸ padSum_toNat _ _ (by omega)
  have e3 : f3.toNat = w.q3.toNat + q.q3.toNat + f2.toNat / 2 ^ 32 := h3 ▸ padSum_toNat _ _ (by omega)
  simp only [quadVal, BitVec.toNat_setWidth]
  omega

/-- `ADDPAD` adds the pad modulo 2^128 (R164). -/
theorem quadVal_addPad (p : PolyUnit) : quadVal (addPad p).w = (quadVal p.w + quadVal p.pad) % 2 ^ 128 := by
  refine quadVal_padSums ?_ rfl rfl rfl
  rw [padSum, BitVec.zero_ushiftRight, BitVec.add_zero]

theorem leNat_store32le (v : Word) : leNat (store32le v) = v.toNat := by
  simp only [store32le, leNat, BitVec.extractLsb'_toNat, Nat.shiftRight_eq_div_pow]
  omega

/-- The tag bytes are those of the four words (R165). -/
theorem leNat_tagOut (w : Quad) : leNat (tagOut w) = quadVal w := by
  simp only [tagOut, leNat_append, leNat_store32le, List.length_append, store32le_length, quadVal]

/-- Settles O32: the packed accumulator and the pad are added as four-word numbers, and the bytes stored are those of
the sum. -/
theorem tagBytesOfSum : Obligations.TagBytesOfSum := by
  intro p hp
  refine ⟨rfl, fun j => ?_⟩
  rw [leNat_getD, leNat_tagOut, quadVal_addPad, quadVal_pack128 hp, Nat.mod_add_mod]

/-! ### Any cut into chunks (R182) -/

/-- The unit `p` stands where the unit `o`, with nothing waiting, gets by absorbing the bytes `bs`: their whole blocks
are in the accumulator and the rest waits. -/
structure Absorbed (o : PolyUnit) (bs : List Byte) (p : PolyUnit) : Prop where
  keying : SameKeying o p
  h : p.h = (absorbBlocks (bs.length / 16) bs o).h
  leftover : p.leftover.toNat = bs.length % 16
  pending : pending p = blockTail bs

theorem absorbed_nil {o : PolyUnit} (h : o.leftover = 0) : Absorbed o [] o where
  keying := .refl o
  h := rfl
  leftover := by rw [h]; rfl
  pending := by rw [pending, h]; rfl

/-- Blocks of the waiting bytes and what follows are the further blocks of the whole. -/
theorem Absorbed.absorb {o p : PolyUnit} {bs : List Byte} (hp : Absorbed o bs p) (m : List Byte) :
    Absorbed o (bs ++ m) (absorb m p) := by
  obtain ⟨hh, hl, ht⟩ := absorb_spec m p
  have hk := absorb_sameKeying m p
  have htail := blockTail_length bs
  have hwhole : 16 * (bs.length / 16) ≤ bs.length := Nat.mul_div_le _ _
  have hdrop : (bs ++ m).drop (16 * (bs.length / 16)) = blockTail bs ++ m := List.drop_append_of_le_length hwhole
  have hlen : (bs ++ m).length = 16 * (bs.length / 16) + (blockTail bs ++ m).length := by
    simp only [List.length_append, htail]
    omega
  have hdiv : (bs ++ m).length / 16 = bs.length / 16 + (blockTail bs ++ m).length / 16 := by omega
  rw [hp.pending] at hh hl ht
  refine ⟨hp.keying.trans hk, ?_, by omega, ?_⟩
  · have hs := absorbBlocks_sameKeying (bs.length / 16) bs o
    rw [hh, hdiv, absorbBlocks_add, hdrop, absorbBlocks_append _ _ _ _ hwhole]
    exact absorbBlocks_h_congr _ _ hp.h (hp.keying.r.trans hs.r.symm) (hp.keying.s.trans hs.s.symm)
      (hp.keying.final.trans hs.final.symm)
  · rw [ht, blockTail, blockTail.eq_def (bs ++ m), hdiv, Nat.mul_add, ← List.drop_drop, hdrop]

theorem Absorbed.foldl_absorb {o p : PolyUnit} {bs : List Byte} (hp : Absorbed o bs p) (chunks : List (List Byte)) :
    Absorbed o (bs ++ chunks.flatten) (chunks.foldl (fun q m => Machine.absorb m q) p) := by
  induction chunks generalizing p bs with
  | nil => simpa using hp
  | cons m ms ih =>
    rw [List.flatten_cons, ← List.append_assoc]
    exact ih (hp.absorb m)

/-! ### The integer-level function (R150, R166) -/

/-- The last block of R150's loop. -/
theorem hashBlocks_succ_last (r n h : Nat) (m : List Byte) :
    hashBlocks r (n + 1) h m =
      ((hashBlocks r n h m + blockNumber ((m.drop (16 * n)).take 16)) * r) % prime1305 := by
  induction n generalizing h m with
  | zero => rfl
  | succ n ih =>
    rw [hashBlocks, ih, hashBlocks, List.drop_drop, Nat.mul_succ, Nat.add_comm 16]

theorem absorbBlocks_succ_last (n : Nat) (m : List Byte) (p : PolyUnit) :
    absorbBlocks (n + 1) m p = pblock ((m.drop (16 * n)).take 16) (absorbBlocks n m p) := by
  rw [absorbBlocks_add]
  rfl

/-- The limb unit follows R150's loop block by block, modulo 2^130 − 5. -/
theorem limbsVal_absorbBlocks (n : Nat) {m : List Byte} (hm : 16 * n ≤ m.length) {p : PolyUnit} (hp : PolyBounded p)
    (hf : p.final = false) :
    limbsVal (absorbBlocks n m p).h ≡ hashBlocks (limbsVal p.r) n (limbsVal p.h) m [MOD prime1305] := by
  induction n with
  | zero => exact .rfl
  | succ n ih =>
    have hk := absorbBlocks_sameKeying n m p
    have hlen : ((m.drop (16 * n)).take 16).length = 16 := by
      rw [List.length_take, List.length_drop]
      omega
    have hblock : leNat ((m.drop (16 * n)).take 16) + 2 ^ 128 * (!(absorbBlocks n m p).final).toNat =
        blockNumber ((m.drop (16 * n)).take 16) := by
      rw [hk.final, hf, blockNumber, hlen]
      rfl
    have hstep := limbsVal_pblock hlen (absorbBlocks_bounded n m hp)
    rw [hblock, hk.r] at hstep
    rw [absorbBlocks_succ_last, hashBlocks_succ_last]
    exact hstep.trans ((((ih (by omega)).add_right _).mul_right _).trans (Nat.mod_modEq _ _).symm)

/-- A partial block with the byte 1 after it and zeros up is the block's number (R150 step 4, R187). -/
theorem leNat_padded (bs : List Byte) (n : Nat) :
    leNat (bs ++ 0x01#8 :: List.replicate n 0x00#8) = blockNumber bs := by
  rw [leNat_append, leNat, leNat_replicate_zero, blockNumber]
  exact congrArg (leNat bs + ·) (Nat.mul_one _)

/-- A keyed unit that has absorbed a message and its last block holds R150's `h_q`, modulo 2^130 − 5. -/
theorem padLast_spec {o u : PolyUnit} {m : List Byte} (ho : PolyBounded o) (hz : o.h = .zero) (hf : o.final = false)
    (hu : Absorbed o m u) :
    AccBounded (padLast u).h ∧ limbsVal (padLast u).h ≡ hashMessage (limbsVal o.r) m [MOD prime1305] := by
  have hub : PolyBounded u :=
    ⟨hu.h ▸ (absorbBlocks_bounded _ _ ho).acc, ho.mul.congr hu.keying.r hu.keying.s⟩
  have hloop := limbsVal_absorbBlocks (m.length / 16) (Nat.mul_div_le _ _) ho hf
  rw [← hu.h, show limbsVal o.h = 0 by rw [hz]; rfl] at hloop
  have hleft := hu.leftover
  by_cases h0 : m.length % 16 = 0
  · have hpad : padLast u = u := if_pos (hleft.trans h0)
    rw [hpad, hashMessage, show (m.length + 15) / 16 = m.length / 16 by omega]
    exact ⟨hub.acc, hloop⟩
  · have htail : ((m.drop (16 * (m.length / 16))).take 16) = pending u := by
      rw [hu.pending, blockTail, List.take_of_length_le]
      rw [List.length_drop]
      omega
    have hlen : (pending u ++ 0x01#8 :: List.replicate (15 - u.leftover.toNat) 0x00#8).length = 16 := by
      simp
      omega
    have hfinal : PolyBounded { u with final := true } := ⟨hub.acc, hub.mul.congr rfl rfl⟩
    have hstep := limbsVal_pblock hlen hfinal
    rw [leNat_padded] at hstep
    rw [padLast_h u (by omega) (by omega), hashMessage, show (m.length + 15) / 16 = m.length / 16 + 1 by omega,
      hashBlocks_succ_last, htail, ← hu.keying.r]
    rw [← hu.keying.r] at hloop
    exact ⟨(pblock_bounded _ hfinal).acc,
      hstep.trans (((hloop.add_right _).mul_right _).trans (Nat.mod_modEq _ _).symm)⟩

/-! ### The tag (R150, R165, R166) -/

theorem hashBlocks_lt (r n : Nat) (m : List Byte) : hashBlocks r n 0 m < prime1305 := by
  cases n with
  | zero => exact Nat.sub_pos_of_lt (by norm_num)
  | succ n =>
    rw [hashBlocks_succ_last]
    exact Nat.mod_lt _ (Nat.sub_pos_of_lt (by norm_num))

/-- A byte string is the little-endian bytes of its number. -/
theorem natBytes_leNat (bs : List Byte) : natBytes bs.length (leNat bs) = bs := by
  apply List.ext_getElem
  · simp [natBytes]
  · intro i h1 h2
    apply BitVec.eq_of_toNat_eq
    rw [List.getElem_eq_getD (l := bs) 0#8, leNat_getD]
    simp only [natBytes, List.getElem_map, List.getElem_range, BitVec.toNat_ofNat]

theorem tagBytesOf_eq {p : PolyUnit} (h : AccBounded (padLast p).h) :
    tagBytesOf p = natBytes 16 ((limbsVal (padLast p).h % prime1305 + quadVal p.pad) % 2 ^ 128) := by
  obtain ⟨hcanon, hval⟩ := fullReduction _ h
  rw [← natBytes_leNat (tagBytesOf p), tagBytesOf_length, tagBytesOf, leNat_tagOut, tagFin, quadVal_addPad,
    quadVal_pack128 hcanon, hval, Nat.mod_add_mod, condSub_pad, fullCarry_pad, padLast_pad]

theorem limbsVal_clampLoadR {k : List Byte} (hk : k.length = 32) : limbsVal (clampLoadR k) = keyR k := by
  obtain ⟨e0, e1, e2, e3, e4, -⟩ := clampedMultiplier k hk
  rw [limbsVal, e0, e1, e2, e3, e4]
  omega

theorem quadVal_loadPad (k : List Byte) : quadVal (loadPad k) = keyPad k := by
  simp only [quadVal, loadPad, load32le_toNat, keyPad, leNat_take, leNat_drop]
  omega

/-- Settles O33: the chunks absorb as their concatenation, each block of it is a step of R150's loop modulo 2^130 − 5,
and the finisher stores the bytes of the reduced value and the pad. -/
theorem limbTagIsIntegerTag : Obligations.LimbTagIsIntegerTag := by
  intro k chunks live p hk
  have hu := (absorbed_nil (o := polyKey k live p) rfl).foldl_absorb chunks
  rw [List.nil_append] at hu
  obtain ⟨hacc, hval⟩ := padLast_spec (polyKey_bounded k live p) rfl rfl hu
  rw [polyKey_r, limbsVal_clampLoadR hk] at hval
  rw [tagBytesOf_eq hacc, hval, hashMessage, Nat.mod_eq_of_lt (hashBlocks_lt _ _ _), ← hashMessage, hu.keying.pad,
    polyKey_pad, quadVal_loadPad, polyTag]

end Sys2Proof.Machine
end

section
/-! SUPPORT. The family of 44_poly1305_absorb.md: how data is cut into chunks does not matter (O29), and what the four
commands of the Poly1305 unit leave (O26, O28, O34, O35). -/

namespace Sys2Proof.Machine

/-! ### Chunks (R182) -/

/-- A unit that absorbs `m` has absorbed, from where it stood, its waiting bytes and `m`. -/
theorem absorbed_pending_append (m : List Byte) (p : PolyUnit) : Absorbed p (pending p ++ m) (absorb m p) := by
  obtain ⟨hh, hl, ht⟩ := absorb_spec m p
  exact ⟨absorb_sameKeying m p, hh, hl, ht⟩

/-- With nothing waiting there is no last block (R187). -/
theorem padLast_self {p : PolyUnit} (h : p.leftover.toNat = 0) : padLast p = p := if_pos h

/-- The finisher's last block is the same for units that hold the same key, accumulator and waiting bytes (R187). -/
theorem padLast_h_congr {p q : PolyUnit} (hh : q.h = p.h) (hr : q.r = p.r) (hs : q.s = p.s)
    (hl : q.leftover = p.leftover) (hp : pending q = pending p) (hlt : p.leftover.toNat < 16) :
    (padLast q).h = (padLast p).h := by
  by_cases h0 : p.leftover.toNat = 0
  · rw [padLast_self h0, padLast_self (hl ▸ h0), hh]
  · rw [padLast_h p h0 hlt, padLast_h q (hl ▸ h0) (hl ▸ hlt), pblock_h, pblock_h, hh, hr, hs, hl, hp]

namespace Absorbed
variable {o p q : PolyUnit} {bs : List Byte}

theorem h_eq (hp : Absorbed o bs p) (hq : Absorbed o bs q) : p.h = q.h := hp.h.trans hq.h.symm

theorem leftover_eq (hp : Absorbed o bs p) (hq : Absorbed o bs q) : p.leftover = q.leftover :=
  BitVec.eq_of_toNat_eq (hp.leftover.trans hq.leftover.symm)

theorem pending_eq (hp : Absorbed o bs p) (hq : Absorbed o bs q) : Machine.pending p = Machine.pending q :=
  hp.pending.trans hq.pending.symm

/-- The tag depends on the bytes absorbed and not on the way they came. -/
theorem tagBytesOf_eq (hp : Absorbed o bs p) (hq : Absorbed o bs q) : tagBytesOf p = tagBytesOf q := by
  have hlt : q.leftover.toNat < 16 := hq.leftover ▸ Nat.mod_lt _ (by decide)
  have hlast : (padLast p).h = (padLast q).h :=
    padLast_h_congr (hp.h_eq hq) (hp.keying.r.trans hq.keying.r.symm) (hp.keying.s.trans hq.keying.s.symm)
      (hp.leftover_eq hq) (hp.pending_eq hq) hlt
  exact tagBytesOf_congr hlast (hp.keying.pad.trans hq.keying.pad.symm)

end Absorbed

/-- Settles O29: both ways the unit has absorbed its waiting bytes, then `a`, then `b`. -/
theorem chunkingInvariance : Obligations.ChunkingInvariance := by
  intro a b p
  have htwice : Absorbed p (pending p ++ a ++ b) (absorb b (absorb a p)) := (absorbed_pending_append a p).absorb b
  have honce : Absorbed p (pending p ++ a ++ b) (absorb (a ++ b) p) := by
    rw [List.append_assoc]
    exact absorbed_pending_append (a ++ b) p
  have hpending := htwice.pending_eq honce
  rw [pending, htwice.leftover_eq honce] at hpending
  exact ⟨htwice.h_eq honce, htwice.leftover_eq honce, hpending, htwice.tagBytesOf_eq honce⟩

/-! ### P.INIT and P.UPDATE (R180, R181) -/

/-- `LOAD_PAD` takes the four words of the second half of the key (R154). -/
theorem loadPad_readBytes (m : Memory) (a : Nat) :
    loadPad (m.readBytes a 32) = ⟨memWord m (a + 16), memWord m (a + 20), memWord m (a + 24), memWord m (a + 28)⟩ := by
  rw [loadPad, load32le_readBytes m a (by decide), load32le_readBytes m a (by decide),
    load32le_readBytes m a (by decide), load32le_readBytes m a (by decide)]

theorem refRange_of_len {r : Ref} {n : DWord} (h : r.len = n) : refRange r = ⟨r.addr.toNat, n.toNat⟩ := by
  rw [refRange, h]

/-- Settles O26: the key buffer has 32 bytes, whose second half `LOAD_PAD` reads a word at a time. -/
theorem pInitResult : Obligations.PInitResult := by
  intro key s ha
  have hkey : s.mem.readRange (refRange key) = s.mem.readBytes key.addr.toNat 32 := by
    rw [refRange_of_len (not_not.mp ha.sized)]
    rfl
  rw [exec_acceptable ha, workOf_pInit ((accepted_iff_acceptable _ _).mpr ha), hkey, polyKey, loadPad_readBytes]
  rfl

/-- Settles O28: `absorb_spec` on the bytes of the buffer. -/
theorem pUpdateResult : Obligations.PUpdateResult := by
  intro data s ha
  have hlive : s.ctx.poly.live = true := eq_true_of_ne_false ha.inOrder
  obtain ⟨hkeying, hh, hleftover, hpending⟩ := absorbed_pending_append (s.mem.readRange (refRange data)) s.ctx.poly
  refine ⟨absorb (s.mem.readRange (refRange data)) s.ctx.poly, _, rfl, ?_, hh, hleftover, hpending, hkeying.r,
    hkeying.s, hkeying.pad, hkeying.final, hkeying.live.trans hlive, fun hlt hempty => ?_⟩
  · rw [exec_acceptable ha, workOf_pUpdate ((accepted_iff_acceptable _ _).mpr ha)]
    rfl
  · rw [refRange_of_len hempty]
    exact absorb_nil hlt

/-! ### P.FINISH and P.VERIFY (R183 to R185) -/

/-- Settles O34: the tag's 16 bytes are written inside buffer memory and read back there. -/
theorem pFinishResult : Obligations.PFinishResult := by
  intro tag s hw ha
  have hlen : refRange tag = ⟨tag.addr.toNat, (tagBytesOf s.ctx.poly).length⟩ := by
    rw [tagBytesOf_length]
    exact refRange_of_len (not_not.mp ha.sized)
  have hb := ha.required_inBounds (r := tag) (by simp [requiredRefs])
  rw [hlen] at hb ⊢
  have hwrites := WritesOnly.writeBytes hb
  have hread := Memory.readBytes_writeBytes_same hw hb
  rw [tagBytesOf_length] at hread
  refine ⟨_, ?_, hwrites.size, hread, hwrites.outside⟩
  rw [exec_acceptable ha, workOf_pFinish ((accepted_iff_acceptable _ _).mpr ha)]
  generalize tagBytesOf s.ctx.poly = bytes -- which bytes are written plays no part in the frame
  rfl

/-- Two byte strings read from memory are equal exactly when they are byte by byte. -/
theorem Memory.readBytes_eq_iff (m : Memory) (a b n : Nat) :
    m.readBytes a n = m.readBytes b n ↔ ∀ j, j < n → m.read (a + j) = m.read (b + j) := by
  simp only [List.ext_getElem_iff, Memory.readBytes_length, Memory.readBytes_getElem, true_and]
  exact ⟨fun h j hj => h j hj hj, fun h j hj _ => h j hj⟩

/-- Settles O35: the compare of R95 on the bytes of the two buffers. -/
theorem pVerifyResult : Obligations.PVerifyResult := by
  intro tagA tagB s ha
  obtain ⟨hlenA, hlenB⟩ := not_or.mp ha.sized
  have hA : refRange tagA = ⟨tagA.addr.toNat, 16⟩ := refRange_of_len (not_not.mp hlenA)
  have hB : refRange tagB = ⟨tagB.addr.toNat, 16⟩ := refRange_of_len (not_not.mp hlenB)
  have hbytes := s.mem.readBytes_eq_iff tagA.addr.toNat tagB.addr.toNat 16
  obtain ⟨-, hequal, hdiffer⟩ := compareIsEquality (s.mem.readBytes tagA.addr.toNat 16)
    (s.mem.readBytes tagB.addr.toNat 16) (by simp) (by simp)
  refine ⟨_, ?_, fun h => hequal (hbytes.mpr h), fun ⟨j, hj, hne⟩ => hdiffer fun h => hne (hbytes.mp h j hj)⟩
  rw [exec_acceptable ha, workOf_pVerify ((accepted_iff_acceptable _ _).mpr ha), hA, hB]
  rfl

end Sys2Proof.Machine
end

section
/-! SUPPORT. The family of 45_aead.md: the key register (O16, O17), the framing as MACDATA (O37), what an encryption and
a decryption compute, said once over ranges and then for each command (O38 to O41), and that the second undoes the
first (O43). -/

namespace Sys2Proof.Machine

/-! ### The key register (R201, R202) -/

theorem byteVec_getElem {n : Nat} (bs : List Byte) (j : Fin n) : (byteVec n bs)[j] = bs.getD j.val 0#8 := by
  simp [byteVec]

/-- Settles O16: the key buffer has 32 bytes, and byte `j` of the register is read at offset `j`. -/
theorem keyLoadResult : Obligations.KeyLoadResult := by
  intro key s ha
  have hkey : s.mem.readRange (refRange key) = s.mem.readBytes key.addr.toNat 32 := by
    rw [refRange_of_len (not_not.mp ha.sized)]
    rfl
  refine ⟨byteVec 32 (s.mem.readBytes key.addr.toNat 32), ?_, fun j => ?_⟩
  · rw [exec_acceptable ha, workOf_keyLoad ((accepted_iff_acceptable _ _).mpr ha), hkey]
    generalize byteVec 32 (s.mem.readBytes key.addr.toNat 32) = k -- which bytes are loaded plays no part in the frame
    rfl
  · rw [byteVec_getElem, List.getD_eq_getElem _ _ (by simp), Memory.readBytes_getElem]

/-- Settles O17: no check, and the key register is written with zero bytes. -/
theorem keyDisposeResult : Obligations.KeyDisposeResult := fun s => by
  rw [exec_accept (i := .keyDispose) verdict_checksNone, workOf_keyDispose]
  rfl

/-! ### The framing (R204 to R207) -/

/-- The five byte strings that R207 absorbs in turn. -/
def framingFields (aad ct : List Byte) : List (List Byte) :=
  [aad, List.replicate (pad16 aad.length) 0#8, ct, List.replicate (pad16 ct.length) 0#8,
    lenBlk aad.length ct.length]

theorem framingFields_flatten (aad ct : List Byte) : (framingFields aad ct).flatten = macData aad ct := by
  simp [framingFields, macData]

theorem absorbFraming_eq_foldl (aad ct : List Byte) (p : PolyUnit) :
    absorbFraming aad ct (lenBlk aad.length ct.length) p = (framingFields aad ct).foldl (fun q m => absorb m q) p := rfl

@[simp] theorem lenBlk_length (a c : Nat) : (lenBlk a c).length = 16 := rfl

/-- A field and its padding fill whole blocks (R204). -/
theorem add_pad16_mod (n : Nat) : (n + pad16 n) % 16 = 0 := by
  simp only [pad16]
  omega

theorem macData_length (aad ct : List Byte) :
    (macData aad ct).length = (aad.length + pad16 aad.length) + (ct.length + pad16 ct.length) + 16 := by
  simp only [macData, List.length_append, List.length_replicate, lenBlk_length]
  omega

/-- MACDATA is a whole number of blocks (R205). -/
theorem macData_length_mod (aad ct : List Byte) : (macData aad ct).length % 16 = 0 := by
  have haad := add_pad16_mod aad.length
  have hct := add_pad16_mod ct.length
  rw [macData_length]
  omega

/-- Settles O37: absorbing the five fields absorbs their concatenation, which ends on a block's end. -/
theorem framingIsMacData : Obligations.FramingIsMacData := by
  intro aad ct p hp
  have hfields := (absorbed_nil hp).foldl_absorb (framingFields aad ct)
  rw [List.nil_append, framingFields_flatten, ← absorbFraming_eq_foldl] at hfields
  have hwhole := macData_length_mod aad ct
  refine ⟨hwhole, ?_, hfields.h_eq ((absorbed_nil hp).absorb (macData aad ct)),
    BitVec.eq_of_toNat_eq (hfields.leftover.trans hwhole)⟩
  rw [macData_length]
  omega

/-! ### The keystream as a byte string (R111, R116) -/

/-- A keystream byte is one of its block's. -/
theorem streamByte_chachaState (key : List Byte) (counter : Word) (nonce : List Byte) (j : Nat) :
    streamByte (chachaState key counter nonce) j =
      (keystreamBlock key (counter + BitVec.ofNat 32 (j / 64)) nonce).getD (j % 64) 0#8 := rfl

/-- Block `q` holds the keystream bytes from `64·q` on. -/
theorem keystreamBlock_eq_map (key : List Byte) (counter : Word) (nonce : List Byte) (q : Nat) :
    keystreamBlock key (counter + BitVec.ofNat 32 q) nonce =
      (List.range 64).map fun i => streamByte (chachaState key counter nonce) (64 * q + i) := by
  apply List.ext_getElem
  · simp [keystreamBlock]
  · intro i h1 h2
    have hi : i < 64 := by simpa using h2
    rw [List.getElem_map, List.getElem_range, streamByte_chachaState, show (64 * q + i) / 64 = q by omega,
      show (64 * q + i) % 64 = i by omega, List.getD_eq_getElem _ _ h1]

/-- The blocks one after another are the keystream bytes in order. -/
theorem flatMap_keystreamBlock (key : List Byte) (counter : Word) (nonce : List Byte) (q : Nat) :
    ((List.range q).flatMap fun j => keystreamBlock key (counter + BitVec.ofNat 32 j) nonce) =
      (List.range (64 * q)).map (streamByte (chachaState key counter nonce)) := by
  induction q with
  | zero => rfl
  | succ q ih =>
    rw [List.range_succ, List.flatMap_append, ih, List.flatMap_singleton, keystreamBlock_eq_map, Nat.mul_succ,
      List.range_add, List.map_append, List.map_map]
    rfl

theorem keystream_eq_map (key : List Byte) (counter : Word) (nonce : List Byte) (len : Nat) :
    keystream key counter nonce len = (List.range len).map (streamByte (chachaState key counter nonce)) := by
  rw [keystream, flatMap_keystreamBlock, ← List.map_take, List.take_range, blockCount, Nat.min_eq_left (by omega)]

@[simp] theorem keystream_length (key : List Byte) (counter : Word) (nonce : List Byte) (len : Nat) :
    (keystream key counter nonce len).length = len := by simp [keystream_eq_map]

@[simp] theorem aeadStream_length (key nonce data : List Byte) : (aeadStream key nonce data).length = data.length := by
  simp [aeadStream]

/-- A byte string XORed twice with one that is as long is the byte string. -/
theorem xorBytes_xorBytes {a b : List Byte} (h : a.length = b.length) : xorBytes (xorBytes a b) b = a := by
  apply List.ext_getElem
  · simp [h]
  · intro i h1 h2
    simp [xorBytes]

/-- Encryption and decryption are one function, its own inverse (R115). -/
theorem aeadStream_aeadStream (key nonce data : List Byte) :
    aeadStream key nonce (aeadStream key nonce data) = data := by
  rw [aeadStream, aeadStream_length]
  exact xorBytes_xorBytes (by simp)

/-! ### Copy and stream (R118, R208 step 2) -/

/-- The stream XORs its range with the keystream of its unit. -/
theorem xorStream_readRange (dp : Datapath) {r : Range} {um : ChaChaUnit × Memory} (hw : um.2.wf = true)
    (hb : r.addr + r.len ≤ um.2.size) :
    (xorStream dp r um).2.readRange r = xorBytes (um.2.readRange r) ((List.range r.len).map (streamByte um.1.s)) := by
  apply List.ext_getElem
  · simp
  · intro j h1 h2
    have hj : j < r.len := by simpa using h1
    have hk : r.len ≤ 64 * blockCount r.len := by
      simp only [blockCount]
      omega
    have hread := xorStretches_read dp (addr := r.addr) hw hk hb hj
    simp only [xorBytes, List.getElem_zipWith, List.getElem_map, List.getElem_range, Memory.readRange,
      Memory.readBytes_getElem]
    exact hread

/-- From a unit with counter 1, the destination ends with what the source held, XORed with the keystream: the source is
copied whole before the stream begins, so it may be the destination itself. -/
theorem copyAndStream_readRange {src dst : Range} {nonce : List Byte} {s : State}
    (hs : s.ctx.cc.s = chachaState s.key.toList 1#32 nonce) (hw : s.mem.wf = true) (hl : src.len = dst.len)
    (hb : dst.addr + dst.len ≤ s.mem.size) :
    (copyAndStream src dst s).mem.readRange dst = aeadStream s.key.toList nonce (s.mem.readRange src) := by
  have hlen : (s.mem.readRange src).length = dst.len := by rw [Memory.readRange_length, hl]
  have hin : dst.addr + (s.mem.readRange src).length ≤ s.mem.size := by rwa [hlen]
  have hcopy : (s.mem.writeBytes dst.addr (s.mem.readRange src)).readRange dst = s.mem.readRange src := by
    rw [Memory.readRange, ← hlen]
    exact Memory.readBytes_writeBytes_same hw hin
  rw [copyAndStream_mem, xorStream_readRange _ (Memory.wf_writeBytes hw hin) (by rwa [Memory.size_writeBytes]), hcopy,
    hs, ← keystream_eq_map, aeadStream, hlen]

/-! ### One-time key and tag (R203, R207) -/

theorem otkGen_otk (nonce : List Byte) (s : State) :
    (otkGen nonce s).ctx.ae.otk.toList = oneTimeKey s.key.toList nonce := by
  simp only [otkGen, State.withCc_ae, State.withAe_ae, block_ks]
  exact byteVec_toList 32 (by simp)

/-- The limb unit's tag over the framing is the integer-level one (R150, R207). -/
theorem tagBytesOf_absorbFraming {k : List Byte} (hk : k.length = 32) (aad ct : List Byte) (p : PolyUnit) :
    tagBytesOf (absorbFraming aad ct (lenBlk aad.length ct.length) (polyKey k false p)) =
      polyTag k (macData aad ct) := by
  rw [absorbFraming_eq_foldl, limbTagIsIntegerTag k _ false p hk, framingFields_flatten]

theorem tagGen_ctag (aad ct : Range) (s : State) :
    (tagGen aad ct s).ctx.ae.ctag.toList =
      polyTag s.ctx.ae.otk.toList (macData (s.mem.readRange aad) (s.mem.readRange ct)) := by
  have htag := tagBytesOf_absorbFraming (k := s.ctx.ae.otk.toList) (by simp) (s.mem.readRange aad)
    (s.mem.readRange ct) s.ctx.poly
  rw [Memory.readRange_length, Memory.readRange_length] at htag
  rw [← htag]
  simp only [tagGen, State.withAe_ae, State.withAe_poly, State.withAe_mem, byteVec_toList 16 (lenBlk_length _ _)]
  exact byteVec_toList 16 (tagOut_length _)

/-- The tag over the received ciphertext that a decryption compares with (R210 step 2). -/
theorem expectTag_ctag (nonce ct aad : Range) (s : State) :
    (expectTag nonce ct aad s).ctx.ae.ctag.toList =
      aeadTag s.key.toList (s.mem.readRange nonce) (s.mem.readRange aad) (s.mem.readRange ct) := by
  simp only [expectTag, tagGen_ctag, State.withPhase_ae, State.withPhase_key, State.withPhase_mem, otkGen_otk,
    otkGen_mem, aeadTag]

/-- The tag of an encryption, over what memory holds once the data is streamed (R208 step 3). -/
theorem tagged_ctag (nonce pt aad ct : Range) (s : State) :
    (tagged nonce pt aad ct s).ctx.ae.ctag.toList =
      aeadTag s.key.toList (s.mem.readRange nonce) ((encrypted nonce pt ct s).mem.readRange aad)
        ((encrypted nonce pt ct s).mem.readRange ct) := by
  simp only [tagged, tagGen_ctag, State.withPhase_ae, State.withPhase_key, State.withPhase_mem, encrypted,
    copyAndStream_ae, derived, otkGen_otk, aeadTag]

/-! ### Encryption (R208, R209) -/

/-- A range that meets none of the ranges written reads as before. -/
theorem AgreeOutside.readRange_of_apart {m m' : Memory} {rs : List Range} {r : Range} (h : AgreeOutside m m' rs)
    (hd : ∀ q ∈ rs, ¬ q.Meets r) : m'.readRange r = m.readRange r :=
  Memory.readBytes_congr fun a hlo hhi => h a fun q hq hqa => hd q hq ⟨a, hqa, hlo, hhi⟩

theorem derived_s (nonce : Range) (s : State) :
    (derived nonce s).ctx.cc.s = chachaState s.key.toList 1#32 (s.mem.readRange nonce) := by
  simp only [derived, State.withPhase_cc, State.withPhase_key, otkGen_s]

/-- The ciphertext, before the tag is written. -/
theorem encrypted_readRange {nonce pt ct : Range} {s : State} (hw : s.mem.wf = true) (hl : pt.len = ct.len)
    (hb : ct.addr + ct.len ≤ s.mem.size) :
    (encrypted nonce pt ct s).mem.readRange ct =
      aeadStream s.key.toList (s.mem.readRange nonce) (s.mem.readRange pt) := by
  have hkey := (sameOutside_derived nonce s).key
  have hs := derived_s nonce s
  rw [← hkey] at hs
  have hread := copyAndStream_readRange hs (by rwa [derived_mem]) hl (by rwa [derived_mem])
  rwa [hkey, derived_mem] at hread

/-- What an encryption leaves (R208): the associated data is apart from the ciphertext, so the tag is over what the
buffer held before, and the ciphertext is apart from the tag, which is written last. -/
theorem encrypt_result {nonce pt aad ct tag : Range} {s : State} (hw : s.mem.wf = true) (hl : pt.len = ct.len)
    (ht : tag.len = 16) (hct : ct.addr + ct.len ≤ s.mem.size) (htag : tag.addr + tag.len ≤ s.mem.size)
    (hd : ¬ EncOverlap nonce pt aad ct tag) :
    ∃ m, encrypt nonce pt aad ct tag s = aeadDone m 0#8 s ∧ Encrypted nonce pt aad ct tag s m := by
  simp only [EncOverlap, not_or] at hd
  obtain ⟨-, -, haad, hapart, -, -, -⟩ := hd
  have hdata := encrypted_readRange (nonce := nonce) hw hl hct
  have hctag := tagged_ctag nonce pt aad ct s
  rw [hdata, (encrypted_outside hl s).readRange_of_apart (by simpa using haad)] at hctag
  have hlen : (tagged nonce pt aad ct s).ctx.ae.ctag.toList.length = tag.len := by simp [ht]
  have hin : tag.addr + (tagged nonce pt aad ct s).ctx.ae.ctag.toList.length ≤
      (encrypted nonce pt ct s).mem.size := by
    rwa [hlen, encrypted_size]
  have hwrites : AgreeOutside (encrypted nonce pt ct s).mem (encryptMem nonce pt aad ct tag s) [tag] := by
    have h := (WritesOnly.writeBytes hin).outside
    rwa [hlen] at h
  refine ⟨encryptMem nonce pt aad ct tag s, encrypt_eq nonce pt aad ct tag s, encryptMem_size nonce pt aad ct tag s,
    ?_, ?_, encryptMem_outside hl ht s⟩
  · rw [hwrites.readRange_of_apart (by simpa [Range.meets_comm tag] using hapart), hdata]
  · rw [← hctag, Memory.readRange, ← hlen]
    exact Memory.readBytes_writeBytes_same (encrypted_wf hl hw (.inr hct)) hin

/-- Settles O38: the checks are the premises of `encrypt_result`. -/
theorem aeEncResult : Obligations.AeEncResult := by
  intro nonce pt aad ct tag s hw ha
  have hlen : pt.len = ct.len := not_not.mp ha.related
  have htag : tag.len = 16#64 := not_not.mp (not_or.mp ha.sized).2
  rw [exec_acceptable ha, workOf_aeEnc ((accepted_iff_acceptable _ _).mpr ha)]
  simp only [Host.Outcome.next.injEq]
  exact encrypt_result hw (congrArg BitVec.toNat hlen) (congrArg BitVec.toNat htag)
    (ha.required_inBounds (by simp [requiredRefs])) (ha.required_inBounds (by simp [requiredRefs])) ha.apart

/-- The two parts of a combined buffer with room for `n` bytes and a tag (R209). -/
theorem combined_of_len {r : Ref} {n : Nat} (h : r.len.toNat = n + 16) :
    combinedData r = ⟨r.addr.toNat, n⟩ ∧ combinedTag r = ⟨r.addr.toNat + n, 16⟩ := by
  simp [combinedData, combinedTag, Config.tagBytes, h]

/-- Settles O39: the two parts of the output are the ciphertext and tag ranges of `encrypt_result`. -/
theorem aeEnccResult : Obligations.AeEnccResult := by
  intro nonce pt aad out s hw ha
  have hlen : out.len.toNat = pt.len.toNat + 16 := not_not.mp ha.related
  have hb : out.addr.toNat + out.len.toNat ≤ s.mem.size := ha.required_inBounds (by simp [requiredRefs])
  have hapart := ha.apart
  obtain ⟨hdata, htag⟩ := combined_of_len hlen
  rw [OverlapForbidden, hdata, htag] at hapart
  rw [exec_acceptable ha, workOf_aeEncc ((accepted_iff_acceptable _ _).mpr ha), hdata, htag]
  simp only [Host.Outcome.next.injEq]
  exact encrypt_result hw rfl rfl (by simp only; omega) (by simp only; omega) hapart

/-! ### Decryption (R210, R211) -/

theorem cteq16_eq_one_iff {a b : List Byte} (ha : a.length = 16) (hb : b.length = 16) :
    cteq16 a b = 1#32 ↔ a = b := by
  obtain ⟨-, hequal, hdiffer⟩ := compareIsEquality a b ha hb
  refine ⟨fun h => ?_, hequal⟩
  by_contra hne
  rw [hdiffer hne] at h
  exact absurd h (by decide)

/-- The comparator answers whether the supplied tag is the tag of the received data (R210 step 3). -/
theorem tagMatches_iff_authentic {nonce ct tag aad : Range} {s : State} (ht : tag.len = 16) :
    tagMatches nonce ct tag aad s ↔ Authentic nonce ct tag aad s := by
  rw [tagMatches, cteq16_eq_one_iff (by simp) (by simp [ht]), expectTag_ctag, Authentic, eq_comm]

theorem matched_s (nonce ct aad : Range) (s : State) :
    (matched nonce ct aad s).ctx.cc.s = chachaState s.key.toList 1#32 (s.mem.readRange nonce) := by
  simp only [matched, expectTag, State.withPhase_cc, State.withPhase_key, State.withPhase_mem, tagGen_cc, otkGen_s]

theorem decryptMem_decrypted {nonce ct aad pt : Range} {s : State} (hw : s.mem.wf = true) (hl : ct.len = pt.len)
    (hb : pt.addr + pt.len ≤ s.mem.size) : Decrypted nonce ct pt s (decryptMem nonce ct aad pt s) := by
  have hkey := (sameOutside_matched nonce ct aad s).key
  have hs := matched_s nonce ct aad s
  rw [← hkey] at hs
  have hread := copyAndStream_readRange hs (by rwa [matched_mem]) hl (by rwa [matched_mem])
  rw [hkey, matched_mem] at hread
  exact ⟨decryptMem_size nonce ct aad pt s, hread, decryptMem_outside hl s⟩

/-- What a decryption leaves on each path (R210, R212). -/
theorem decrypt_result {nonce ct tag aad pt : Range} {s : State} (hw : s.mem.wf = true) (hl : ct.len = pt.len)
    (ht : tag.len = 16) (hb : pt.addr + pt.len ≤ s.mem.size) :
    (Authentic nonce ct tag aad s →
      ∃ m, decrypt nonce ct tag aad pt s = aeadDone m 0#8 s ∧ Decrypted nonce ct pt s m) ∧
    (¬ Authentic nonce ct tag aad s → decrypt nonce ct tag aad pt s = aeadDone s.mem 4#8 s) :=
  ⟨fun h => ⟨_, decrypt_eq_of_match ((tagMatches_iff_authentic ht).mpr h), decryptMem_decrypted hw hl hb⟩,
    fun h => decrypt_eq_of_mismatch (mt (tagMatches_iff_authentic ht).mp h)⟩

/-- Settles O40: the checks are the premises of `decrypt_result`. -/
theorem aeDecResult : Obligations.AeDecResult := by
  intro nonce ct tag aad pt s hw ha
  have hlen : ct.len = pt.len := not_not.mp ha.related
  have htag : tag.len = 16#64 := not_not.mp (not_or.mp ha.sized).2
  rw [exec_acceptable ha, workOf_aeDec ((accepted_iff_acceptable _ _).mpr ha)]
  simp only [Host.Outcome.next.injEq]
  exact decrypt_result hw (congrArg BitVec.toNat hlen) (congrArg BitVec.toNat htag)
    (ha.required_inBounds (by simp [requiredRefs]))

/-- The tag part of a combined buffer, counted from the buffer's end (R211). -/
theorem combinedTag_eq {r : Ref} (h : 16 ≤ r.len.toNat) :
    combinedTag r = ⟨r.addr.toNat + r.len.toNat - 16, 16⟩ := by
  rw [combinedTag, Config.tagBytes, Nat.add_sub_assoc h]

/-- Settles O41: the two parts of the input are the ciphertext and tag ranges of `decrypt_result`. -/
theorem aeDeccResult : Obligations.AeDeccResult := by
  intro nonce inp aad pt s hw ha
  have hlen : inp.len.toNat - 16 = pt.len.toNat := not_not.mp ha.related
  have hroom : 16 ≤ inp.len.toNat := not_lt.mp (not_or.mp ha.sized).2
  rw [exec_acceptable ha, workOf_aeDecc ((accepted_iff_acceptable _ _).mpr ha), combinedTag_eq hroom]
  simp only [Host.Outcome.next.injEq]
  exact decrypt_result hw hlen rfl (ha.required_inBounds (by simp [requiredRefs]))

/-! ### Round trip (R216) -/

@[simp] theorem aeadDone_key (m : Memory) (st : BitVec 8) (s : State) : (aeadDone m st s).key = s.key := rfl

section
variable {nonce pt aad ct tag : Range} {s : State} {m : Memory} (h : Encrypted nonce pt aad ct tag s m)
  (hd : ¬ EncOverlap nonce pt aad ct tag)
include h hd

/-- No byte of the nonce is written by an encryption. -/
theorem Encrypted.nonce_kept : m.readRange nonce = s.mem.readRange nonce := by
  simp only [EncOverlap, not_or] at hd
  obtain ⟨-, hct, -, -, htag, -, -⟩ := hd
  exact h.restKept.readRange_of_apart (by simp [hct, htag])

/-- No byte of the associated data is written by an encryption. -/
theorem Encrypted.aad_kept : m.readRange aad = s.mem.readRange aad := by
  simp only [EncOverlap, not_or] at hd
  obtain ⟨-, -, hct, -, -, -, htag⟩ := hd
  exact h.restKept.readRange_of_apart (by simp [hct, htag])

/-- The tag an encryption left is the tag of the ciphertext it left. -/
theorem Encrypted.authentic (st : BitVec 8) : Authentic nonce ct tag aad (aeadDone m st s) := by
  rw [Authentic, aeadDone_mem, aeadDone_key, h.nonce_kept hd, h.aad_kept hd, h.dataWritten, h.tagWritten]

/-- Decrypting the ciphertext an encryption left gives the plaintext it read. -/
theorem Encrypted.readRange_decrypted {st : BitVec 8} {pt' : Range} {m' : Memory}
    (hm : Decrypted nonce ct pt' (aeadDone m st s) m') : m'.readRange pt' = s.mem.readRange pt := by
  rw [hm.dataWritten, aeadDone_mem, aeadDone_key, h.nonce_kept hd, h.dataWritten, aeadStream_aeadStream]

end

/-- Settles O43: what the encryption left is authentic, and the stream is its own inverse. -/
theorem roundTrip : Obligations.RoundTrip := by
  refine ⟨fun nonce pt aad ct tag pt' s t hw ha hx ha' => ?_, fun nonce pt aad out pt' s t hw ha hx ha' => ?_⟩
  · have hwt := (exec_writesOnly hx).wf hw
    obtain ⟨m, hm, henc⟩ := aeEncResult nonce pt aad ct tag s hw ha
    obtain rfl := Host.Outcome.next.inj (hx.symm.trans hm)
    obtain ⟨m', hm', hdec⟩ := (aeDecResult nonce ct tag aad pt' _ hwt ha').1 (henc.authentic ha.apart _)
    exact ⟨_, hm', rfl, henc.readRange_decrypted ha.apart hdec⟩
  · have hlen : out.len.toNat = pt.len.toNat + 16 := not_not.mp ha.related
    have hapart := ha.apart
    obtain ⟨hdata, htag⟩ := combined_of_len hlen
    rw [OverlapForbidden, hdata, htag] at hapart
    have hwt := (exec_writesOnly hx).wf hw
    obtain ⟨m, hm, henc⟩ := aeEnccResult nonce pt aad out s hw ha
    obtain rfl := Host.Outcome.next.inj (hx.symm.trans hm)
    have hresult := (aeDeccResult nonce out aad pt' _ hwt ha').1
    rw [← combinedTag_eq (by omega), htag, hlen, Nat.add_sub_cancel] at hresult
    obtain ⟨m', hm', hdec⟩ := hresult (henc.authentic hapart _)
    exact ⟨_, hm', rfl, henc.readRange_decrypted hapart hdec⟩

end Sys2Proof.Machine
end

section
/-! SUPPORT. The family of 46_dispatch.md: what `CAP.FORCE` writes (O44) and `CAP.RD` reads (O45), that no other command
shows which datapath is selected (O46), and that the selection stays resolved and every response legal (O53). -/

namespace Sys2Proof.Machine

/-! ### CAP.FORCE (R241, R242) -/

@[simp] theorem selBit_resolveSel (hw f : Bool) : selBit (resolveSel hw f) = (hw && !f) := by
  cases hw <;> cases f <;> rfl

theorem capResolved_forceScalar (f : Bool) (c : Cap) : CapResolved (forceScalar f c) := selBit_resolveSel c.hwVec128 f

/-- Settles O44: no check, and the selection is the resolved one. -/
theorem capForceResult : Obligations.CapForceResult := fun f s => by
  refine ⟨resolveSel s.cap.hwVec128 f, selBit_resolveSel _ f, ?_⟩
  rw [exec_accept (i := .capForce f) verdict_checksNone, workOf_capForce]
  rfl

/-! ### CAP.RD (R38, R243) -/

/-- The six bits of `CAPSTAT`, bit 0 first. -/
def capstatBits (s : State) : List Bool :=
  [s.cap.hwVec128, s.cap.forceScalar, selBit s.cap.sel, s.keyValid, s.ctx.cc.live, s.ctx.poly.live]

theorem ofNat_sixBits : ∀ b0 b1 b2 b3 b4 b5 : Bool,
    BitVec.ofNat 32 (b0.toNat + 2 * b1.toNat + 4 * b2.toNat + 8 * b3.toNat + 16 * b4.toNat + 32 * b5.toNat) =
      (BitVec.ofBoolListLE [b0, b1, b2, b3, b4, b5]).setWidth 32 := by
  decide

/-- Bit `k` of `CAPSTAT` is the `k`-th of the six bits, and zero above them (R38). -/
theorem capstat_getLsbD (s : State) (k : Nat) : (capstat s).getLsbD k = (capstatBits s).getD k false := by
  rw [capstat, ofNat_sixBits, BitVec.getLsbD_setWidth, BitVec.getLsbD_ofBoolListLE, capstatBits]
  by_cases hk : k < 32
  · rw [decide_eq_true hk, Bool.true_and]
  · rw [decide_eq_false hk, Bool.false_and, List.getD_eq_default _ _ (by simp; omega)]

/-- Settles O45: no check, and each bit of the image by its place in the list of the six. -/
theorem capRdResult : Obligations.CapRdResult := fun s => by
  refine ⟨capstat s, ?_, capstat_getLsbD s 0, capstat_getLsbD s 1, capstat_getLsbD s 2, capstat_getLsbD s 3,
    capstat_getLsbD s 4, capstat_getLsbD s 5, fun k hk => ?_⟩
  · rw [exec_accept (i := .capRd) verdict_checksNone, workOf_capRd]
    rfl
  · rw [capstat_getLsbD, List.getD_eq_default _ _ hk]

/-- Of the six bits only `FORCE_SCALAR` and `SEL` depend on the override (R244). -/
theorem capstat_forceScalar_getLsbD (f : Bool) (s : State) {k : Nat} (h1 : k ≠ 1) (h2 : k ≠ 2) :
    (capstat (s.withCap (forceScalar f s.cap))).getLsbD k = (capstat s).getLsbD k := by
  rw [capstat_getLsbD, capstat_getLsbD]
  match k with
  | 0 => rfl
  | 1 => exact absurd rfl h1
  | 2 => exact absurd rfl h2
  | _ + 3 => rfl

/-! ### Blocks and streams do not show their datapath (R140, R244) -/

theorem xorStretch_eq_scalar (dp : Datapath) (addr n : Nat) (um : ChaChaUnit × Memory) :
    xorStretch dp addr n um = xorStretch .scalar addr n um := by
  rw [xorStretch, xorStretch, block_eq_scalar dp]

theorem xorStretches_eq_scalar (dp : Datapath) (k addr len : Nat) (um : ChaChaUnit × Memory) :
    xorStretches dp k addr len um = xorStretches .scalar k addr len um := by
  induction k generalizing addr len um with
  | zero => rfl
  | succ k ih => rw [xorStretches, xorStretches, xorStretch_eq_scalar dp, ih]

theorem xorStream_eq_scalar (dp : Datapath) (r : Range) (um : ChaChaUnit × Memory) :
    xorStream dp r um = xorStream .scalar r um :=
  xorStretches_eq_scalar dp _ _ _ um

/-! ### The work of a command under other capability bits (R244) -/

/-- The outcome of a command with `CAP` replaced in the machine it leaves. -/
def outcomeWithCap (c : Cap) : Host.Outcome State Fault Refusal → Host.Outcome State Fault Refusal
  | .next t => .next (t.withCap c)
  | .fault e => .fault e
  | .refused r => .refused r

section withCap
variable (c : Cap) (s : State)

theorem State.withPhase_withCap (ph : Phase) : (s.withCap c).withPhase ph = (s.withPhase ph).withCap c := rfl
theorem State.withMem_withCap (m : Memory) : (s.withCap c).withMem m = (s.withMem m).withCap c := rfl
theorem State.respond_withCap (st : Status) (v : Word) : (s.withCap c).respond st v = (s.respond st v).withCap c := rfl
theorem wipeAe_withCap : wipeAe (s.withCap c) = (wipeAe s).withCap c := rfl
theorem tagGen_withCap (aad ct : Range) : tagGen aad ct (s.withCap c) = (tagGen aad ct s).withCap c := rfl

theorem otkGen_withCap (nonce : List Byte) : otkGen nonce (s.withCap c) = (otkGen nonce s).withCap c := by
  rw [otkGen, otkGen, block_eq_scalar (s.withCap c).datapath, block_eq_scalar s.datapath]
  rfl

theorem xorStreamOn_withCap (r : Range) : xorStreamOn r (s.withCap c) = (xorStreamOn r s).withCap c := by
  rw [xorStreamOn_eq, xorStreamOn_eq, xorStream_eq_scalar (s.withCap c).datapath, xorStream_eq_scalar s.datapath]
  rfl

theorem copyAndStream_withCap (src dst : Range) :
    copyAndStream src dst (s.withCap c) = (copyAndStream src dst s).withCap c := by
  rw [copyAndStream, State.withMem_withCap, xorStreamOn_withCap, State.withCap_mem, ← copyAndStream]

theorem encrypt_withCap (nonce pt aad ct tag : Range) :
    encrypt nonce pt aad ct tag (s.withCap c) = (encrypt nonce pt aad ct tag s).withCap c := by
  simp only [encrypt, State.withPhase_withCap, State.withMem_withCap, otkGen_withCap, copyAndStream_withCap,
    tagGen_withCap, wipeAe_withCap, State.respond_withCap, State.withCap_mem, State.withCap_ctx]

theorem expectTag_withCap (nonce ct aad : Range) :
    expectTag nonce ct aad (s.withCap c) = (expectTag nonce ct aad s).withCap c := by
  simp only [expectTag, State.withPhase_withCap, otkGen_withCap, tagGen_withCap, State.withCap_mem]

/-- The tags are compared under either selection with one outcome, and either outcome is followed alike. -/
theorem decrypt_withCap (nonce ct tag aad pt : Range) :
    decrypt nonce ct tag aad pt (s.withCap c) = (decrypt nonce ct tag aad pt s).withCap c := by
  simp only [decrypt, expectTag_withCap, State.withPhase_withCap, copyAndStream_withCap, State.withCap_mem,
    State.withCap_ctx]
  split <;> rfl

/-- Acceptance does not read `CAP` (R258). -/
theorem checks_withCap (i : Instr) : checks i (s.withCap c) = checks i s := by
  cases i <;> rfl

variable {s} {i : Instr} (hrd : i ≠ .capRd) (hforce : ∀ g, i ≠ .capForce g)
include hrd hforce

/-- Every command but `CAP.FORCE` and `CAP.RD` carries `CAP` along: only the commands that generate blocks read it, for
the datapath, on which their work does not depend. -/
theorem workOf_withCap (ha : accepted i s) : workOf i (s.withCap c) = (workOf i s).withCap c := by
  have hc : accepted i (s.withCap c) := by rwa [accepted, checks_withCap]
  cases i with
  | keyLoad key => rw [workOf_keyLoad ha, workOf_keyLoad hc]; rfl
  | keyDispose => rfl
  | ccInit counter key nonce => rw [workOf_ccInit ha, workOf_ccInit hc]; rfl
  | ccXor buf => rw [workOf_ccXor ha, workOf_ccXor hc, xorStreamOn_withCap]; rfl
  | ccClear => rfl
  | pInit key => rw [workOf_pInit ha, workOf_pInit hc]; rfl
  | pUpdate data => rw [workOf_pUpdate ha, workOf_pUpdate hc]; rfl
  | pFinish tag => rw [workOf_pFinish ha, workOf_pFinish hc]; rfl
  | pVerify tagA tagB => rw [workOf_pVerify ha, workOf_pVerify hc]; rfl
  | aeEnc nonce pt aad ct tag => rw [workOf_aeEnc ha, workOf_aeEnc hc, encrypt_withCap]
  | aeEncc nonce pt aad out => rw [workOf_aeEncc ha, workOf_aeEncc hc, encrypt_withCap]
  | aeDec nonce ct tag aad pt => rw [workOf_aeDec ha, workOf_aeDec hc, decrypt_withCap]
  | aeDecc nonce inp aad pt => rw [workOf_aeDecc ha, workOf_aeDecc hc, decrypt_withCap]
  | capForce g => exact absurd rfl (hforce g)
  | capRd => exact absurd rfl hrd

/-- The outcome under other capability bits is the outcome, with those bits in the machine it leaves (R244). -/
theorem exec_withCap : exec i (s.withCap c) = outcomeWithCap c (exec i s) := by
  have hc : verdict (checks i (s.withCap c)) = verdict (checks i s) := congrArg verdict (checks_withCap c s i)
  cases hv : verdict (checks i s) with
  | accept => rw [exec_accept hv, exec_accept (hc.trans hv), workOf_withCap c hrd hforce hv, outcomeWithCap]
  | error st => rw [exec_error hv, exec_error (hc.trans hv), outcomeWithCap]; rfl
  | refuse r => rw [exec_refuse hv, exec_refuse (hc.trans hv), outcomeWithCap]

end withCap

/-- Settles O46: the override reaches a command through the selected datapath only, and both datapaths make the same
blocks (`block_eq_scalar`); in `CAPSTAT` it is bit 1, and resolved into bit 2. -/
theorem datapathInvisible : Obligations.DatapathInvisible := fun _ f s =>
  ⟨fun hrd hforce => exec_withCap (forceScalar f s.cap) hrd hforce, fun _ => capstat_forceScalar_getLsbD f s⟩

/-! ### The selection and the responses through every step (R82, R241) -/

/-- From `c` to `c'`, the capability bits are as they were or as `CAP.FORCE` leaves them. -/
def CapForced (c c' : Cap) : Prop := c' = c ∨ ∃ f, c' = forceScalar f c

theorem CapForced.resolved {c c' : Cap} (h : CapForced c c') (hc : CapResolved c) : CapResolved c' := by
  rcases h with rfl | ⟨f, rfl⟩
  · exact hc
  · exact capResolved_forceScalar f c

theorem CapForced.hwVec128 {c c' : Cap} (h : CapForced c c') : c'.hwVec128 = c.hwVec128 := by
  rcases h with rfl | ⟨f, rfl⟩ <;> rfl

theorem exec_capForced {i : Instr} {s t : State} (h : exec i s = .next t) : CapForced s.cap t.cap := by
  rcases exec_next h with ⟨ha, rfl⟩ | ⟨st, -, rfl⟩
  · cases i with
    | capForce f => exact .inr ⟨f, rfl⟩
    | _ => exact .inl ((workOf_registersKept ha).cap nofun)
  · exact .inl rfl

/-- A command in progress completes under a selection of its own, after which `CAP` is what it was (R241, R242). -/
theorem Served.capForced {s t : State} (h : Served s t) : CapForced s.cap t.cap := by
  cases h with
  | illegal h => exact .inl (by rw [h]; rfl)
  | completed i u hx h => rw [h, advance_cap]; exact exec_capForced hx
  | resumed i sel u _ hx h => exact .inl (by rw [h, State.withCap_cap])
  | begun i _ h => exact .inl (by rw [h]; rfl)

theorem select_cap {k : Nat} {s t : State} (h : s.select k = some t) : t.cap = s.cap := by
  obtain ⟨c, -, rfl⟩ := select_some h
  rfl

theorem step_capForced {s t : State} (h : step s = .next t) : CapForced s.cap t.cap := by
  cases step_next h with
  | alone h => exact h.capForced
  | inContext k ms u hu h =>
    have hc : u.cap = s.cap := select_cap (s := s.withMoves ms) hu
    exact hc ▸ h.capForced
  | hostWrite ms a bs _ h => exact .inl (by rw [h]; rfl)
  | hostRead ms h => exact .inl (by rw [h]; rfl)

theorem Responds.responseLegal {i : Instr} {t : State} (h : Responds i t) : ResponseLegal t.ctx := by
  obtain ⟨u, st, v, rfl, hr⟩ := h
  refine ⟨st.code_toNat_le, fun hst => ?_⟩
  by_contra hv
  obtain ⟨rfl, -⟩ := hr.value hv
  exact hst rfl

theorem responseLegal_invariant : ContextInvariant ResponseLegal where
  raised _ st _ := ⟨st.code_toNat_le, fun _ => rfl⟩
  port _ _ hp := hp
  worked _ _ ha _ := (responds_workOf ha).responseLegal

/-- Settles O53: only `CAP.FORCE` writes `CAP`, and it resolves the selection; what every completed command answers is
legal, and the other contexts' responses stay. -/
theorem stepKeepsResolved : Obligations.StepKeepsResolved := fun _ _ ⟨hcap, hresponses⟩ h =>
  have hforced := step_capForced h
  ⟨⟨hforced.resolved hcap, responseLegal_invariant.step h hresponses⟩, hforced.hwVec128⟩

end Sys2Proof.Machine
end

section
/-! SUPPORT. The family of 60_exceptions.md: which rule decides each error status (O9 to O13), that an accepted command
completes (O15), and what an authentication failure leaves (O42). -/

namespace Sys2Proof.Machine

/-! ### The first rule a command breaks (R258) -/

/-- The rule of error status `st` is the first that the command breaks, in the order of R258. -/
def FirstBroken (st : Status) (i : Instr) (s : State) : Prop :=
  match st with
  | .sequenceError => OutOfOrder i s
  | .invalidArgument => ¬ OutOfOrder i s ∧ RefAbsent i
  | .invalidSize => ¬ OutOfOrder i s ∧ ¬ RefAbsent i ∧ WrongSize i
  | .lengthMismatch => ¬ OutOfOrder i s ∧ ¬ RefAbsent i ∧ ¬ WrongSize i ∧ LengthsDiffer i
  | .accessFault =>
    ¬ OutOfOrder i s ∧ ¬ RefAbsent i ∧ ¬ WrongSize i ∧ ¬ LengthsDiffer i ∧ OutOfBounds i s
  | .ok | .authenticationFailure | .illegalCommand => False

/-- The branches of `verdict` are the rules in their order: the one taken says which check failed and that every
earlier one passed (R258). -/
theorem verdict_error_iff {st : Status} {i : Instr} {s : State} :
    verdict (checks i s) = .error st ↔ FirstBroken st i s := by
  have hlive := live_false_iff i s
  have hpresent := checks_present_false_iff i s
  have hsized := checks_sized_false_iff i s
  have hrelated := checks_related_false_iff i s
  have hbounded := checks_bounded_false_iff i s
  unfold verdict
  split_ifs <;> cases st <;> simp_all [FirstBroken]

/-! ### How an accepted command ends (R254) -/

theorem Status.code_injective : Function.Injective Status.code := by
  intro a b
  cases a <;> cases b <;> decide

@[simp] theorem aeadDone_status (m : Memory) (st : BitVec 8) (s : State) : (aeadDone m st s).ctx.status = st := rfl

/-- A decryption ends with `OK`, or with memory as it was and the ephemeral registers wiped (R210, R212). -/
theorem decrypt_ok_or_failed (nonce ct tag aad pt : Range) (s : State) :
    (decrypt nonce ct tag aad pt s).ctx.status = Status.ok.code ∨
      decrypt nonce ct tag aad pt s = aeadDone s.mem Status.authenticationFailure.code s := by
  by_cases h : tagMatches nonce ct tag aad s
  · rw [decrypt_eq_of_match h]
    exact .inl rfl
  · exact .inr (decrypt_eq_of_mismatch h)

/-- Of the accepted commands, only a decryption ends with another status than `OK` (R254). -/
theorem workOf_ok_or_failed {i : Instr} {s : State} (ha : accepted i s) :
    (workOf i s).ctx.status = Status.ok.code ∨
      IsDecryption i ∧ workOf i s = aeadDone s.mem Status.authenticationFailure.code s := by
  cases i with
  | aeDec nonce ct tag aad pt => rw [workOf_aeDec ha]; exact (decrypt_ok_or_failed ..).imp_right (⟨trivial, ·⟩)
  | aeDecc nonce inp aad pt => rw [workOf_aeDecc ha]; exact (decrypt_ok_or_failed ..).imp_right (⟨trivial, ·⟩)
  | aeEnc nonce pt aad ct tag => rw [workOf_aeEnc ha, encrypt_eq]; exact .inl rfl
  | aeEncc nonce pt aad out => rw [workOf_aeEncc ha, encrypt_eq]; exact .inl rfl
  | keyLoad key => rw [workOf_keyLoad ha]; exact .inl rfl
  | ccInit counter key nonce => rw [workOf_ccInit ha]; exact .inl rfl
  | ccXor buf => rw [workOf_ccXor ha]; exact .inl rfl
  | pInit key => rw [workOf_pInit ha]; exact .inl rfl
  | pUpdate data => rw [workOf_pUpdate ha]; exact .inl rfl
  | pFinish tag => rw [workOf_pFinish ha]; exact .inl rfl
  | pVerify tagA tagB => rw [workOf_pVerify ha]; exact .inl rfl
  | keyDispose | ccClear | capForce _ | capRd => exact .inl rfl

/-- Settles O15: acceptance lets the work begin, and only a decryption can still fail. -/
theorem acceptableCommandsComplete : Obligations.AcceptableCommandsComplete := by
  intro i s h
  refine ⟨workOf i s, exec_acceptable h, ?_⟩
  rcases workOf_ok_or_failed ((accepted_iff_acceptable i s).mpr h) with hok | ⟨hi, hw⟩
  · exact .inl hok
  · exact .inr ⟨by rw [hw, aeadDone_status]; rfl, hi⟩

/-- Settles O42: no rule of acceptance answers `AuthenticationFailure`, and of accepted commands only a decryption
whose tag does not match. -/
theorem authenticationFailureLeavesMemory : Obligations.AuthenticationFailureLeavesMemory := by
  intro i s t h hst
  rcases exec_next h with ⟨ha, rfl⟩ | ⟨st, he, rfl⟩
  · rcases workOf_ok_or_failed ha with hok | ⟨hi, hw⟩
    · exact absurd (hok.symm.trans hst) (by decide)
    · exact ⟨hi, (accepted_iff_acceptable i s).mp ha, hw⟩
  · obtain rfl : st = .authenticationFailure := Status.code_injective hst
    exact (verdict_error_iff.mp he).elim

/-! ### Each error status of acceptance (R251 to R253, R255, R257) -/

/-- A command ends with an error status of acceptance exactly when it breaks that status's rule first, and then
changes nothing but the response (R258, R260 a). -/
theorem exec_error_exactly {st : Status} (hok : st ≠ .ok) (hauth : st ≠ .authenticationFailure) (i : Instr)
    (s : State) :
    (FirstBroken st i s → exec i s = .next (s.raise st)) ∧
      ∀ t, exec i s = .next t → t.ctx.status = st.code → FirstBroken st i s := by
  refine ⟨fun hb => exec_error (verdict_error_iff.mpr hb), fun t h hst => ?_⟩
  rcases exec_next h with ⟨ha, rfl⟩ | ⟨st', he, rfl⟩
  · rcases workOf_ok_or_failed ha with hw | ⟨-, hw⟩
    · exact absurd (Status.code_injective (hst.symm.trans hw)) hok
    · rw [hw, aeadDone_status] at hst
      exact absurd (Status.code_injective hst).symm hauth
  · obtain rfl : st' = st := Status.code_injective hst
    exact verdict_error_iff.mp he

/-- Settles O9: the liveness flags are the first check. -/
theorem outOfOrderIsSequenceError : Obligations.OutOfOrderIsSequenceError :=
  exec_error_exactly (st := .sequenceError) nofun nofun

/-- Settles O10: presence is checked of commands in order. -/
theorem absentReferenceIsInvalidArgument : Obligations.AbsentReferenceIsInvalidArgument := fun i s =>
  have ⟨hraise, hbroken⟩ := exec_error_exactly (st := .invalidArgument) nofun nofun i s
  ⟨fun hord habsent => hraise ⟨hord, habsent⟩, hbroken⟩

/-- Settles O11: sizes are checked when every reference is present. -/
theorem wrongSizeIsInvalidSize : Obligations.WrongSizeIsInvalidSize := fun i s =>
  have ⟨hraise, hbroken⟩ := exec_error_exactly (st := .invalidSize) nofun nofun i s
  ⟨fun hord hpres hsize => hraise ⟨hord, hpres, hsize⟩, hbroken⟩

/-- Settles O12: lengths are compared once the fixed sizes are right. -/
theorem unequalLengthsAreLengthMismatch : Obligations.UnequalLengthsAreLengthMismatch := fun i s =>
  have ⟨hraise, hbroken⟩ := exec_error_exactly (st := .lengthMismatch) nofun nofun i s
  ⟨fun hord hpres hsized hlen => hraise ⟨hord, hpres, hsized, hlen⟩, hbroken⟩

/-- Settles O13: bounds are the last of the error checks. -/
theorem outOfBoundsIsAccessFault : Obligations.OutOfBoundsIsAccessFault := fun i s =>
  have ⟨hraise, hbroken⟩ := exec_error_exactly (st := .accessFault) nofun nofun i s
  ⟨fun hord hpres hsized hrel hout => hraise ⟨hord, hpres, hsized, hrel, hout⟩, hbroken⟩

end Sys2Proof.Machine
end
